-- ==== Sys2Proof/Word.lean ====
section
/-! DEFINITION. The word and byte types (00_scope.md R6, R8): a Memory word and an instruction are 32 bits, a stream
byte is 8 bits. -/

namespace Sys2Proof

/-- A Memory word or an instruction word, 32 bits (R6 `WORD_BITS`, R16). The width is written here and nowhere else. -/
abbrev Word := BitVec 32

/-- The width of a bit vector. -/
@[simp] def widthOf {n : Nat} (_ : BitVec n) : Nat := n

/-- `WORD_BITS`: the width of a word (R6). -/
@[simp] def Config.wordBits : Nat := widthOf (0 : Word)

/-- One byte of a stream, of a packed string or of the program file (R12, R38). -/
abbrev Byte := BitVec 8

end Sys2Proof
end

