-- ==== Sys2Proof/Config.lean ====
section
/-! DEFINITION. The fixed parameters of 00_scope.md R6, each defined once. The OPEN parameters of R7 (with the defaults
the spec gives them) are in `Sys2Proof/Machine/Params.lean`; `WORD_BITS` stands with the word type in
`Sys2Proof/Word.lean`. At the end the one thing left free: an endless input stream (R29). -/

namespace Sys2Proof.Config

/-- `MEM_WORDS`: the words of Memory, indices 0..1023 (R6, R16). -/
@[simp] def memWords : Nat := 1024

/-- `PC_BITS`: the width the source gives `pc`, signed (R6). Nothing is reduced by it: `pc` holds the exact result of its
arithmetic (R21, D2, log 1). -/
def pcBits : Nat := 16

/-- `SP_BITS`: the width the source gives `sp`, signed (R6). Every `sp` a run reaches fits it (R23), so nothing is reduced
by it (D2, log 1). -/
def spBits : Nat := 16

/-- `SP_RESET`: the stack pointer of the empty stack (R6, R22). -/
@[simp] def spReset : Int := 1024

/-- `PC_RESET`: the first instruction's index (R6, R18). -/
@[simp] def pcReset : Int := 0

/-- `MAGIC`: the required first word of a program (R6, R48). -/
@[simp] def magic : Word := 0xDEADBEEF#32

/-- `SENTINEL`: the padding byte of packed strings, suppressed by Stprint (R6, R99, R150). -/
@[simp] def sentinel : Byte := 0x01#8

/-- `CONT_FLAG`: bit 24, "more packed words follow" (R6, R99). -/
@[simp] def contFlag : Nat := 0x01000000

/-- `CHUNK`: the string bytes packed per word (R6, R99). -/
@[simp] def chunk : Nat := 3

/-- `HALT_BITS`: the width of the halt code (R6, R95). -/
@[simp] def haltBits : Nat := 8

/-- `OFFSET_SCALE`: the divisor that turns a byte offset or count into a word offset (R6, R13). -/
@[simp] def offsetScale : Int := 4

/-! ### The endless input stream (R29, D26, log 33) -/

/-- Line `k` of an endless input stream, without its terminator: uninterpreted, so that it stands for any (log 33). -/
opaque endlessLine : Nat → List Byte

/-- Whether line `k` of an endless input stream ends in a null byte and not in a newline: uninterpreted (log 33). -/
opaque endlessNull : Nat → Bool

end Sys2Proof.Config
end

