-- ==== Sys2Proof/Machine/State.lean ====
section
/-! DEFINITION. The state of the core (10_state.md), the faults of its run (60_exceptions.md R161), the reasons a step
of the model stops, and the state after reset (R32). -/

namespace Sys2Proof.Machine

/-- Memory (R16) as byte cells in one canonical form: the byte `k` (R38) of word `i` is the cell `4 * i + k`; addresses
strictly rise and no listed byte equals `Memory.unlisted`. The cell numbering is the model's own (log 2). -/
abbrev Memory := List Host.Cell

/-- The eight fault kinds of R161. -/
inductive FaultKind where
  | badProgram
  | stackOverflow
  | parseError
  | illegalInstruction
  | fetchRange
  | ioError
  | divideByZero
  | memoryRange
  deriving DecidableEq, Repr

/-- A run-time fault with the `info` R161 records. `pc` is the index of the faulting instruction. -/
inductive RunFault where
  /-- R163: a push that finds `sp <= 0`. -/
  | stackOverflow (pc : Int)
  /-- R164: Input's text is no number. -/
  | parseError (pc : Int)
  /-- R165: the fetched word is no instruction. -/
  | illegalInstruction (pc : Int) (word : Word)
  /-- R166: a fetch with `pc` outside 0..1023; `pc` is that value. -/
  | fetchRange (pc : Int)
  /-- R167: a channel operation answered `Error`. -/
  | ioError (pc : Int)
  /-- R172: Div or Rem with a zero right operand. -/
  | divideByZero (pc : Int)
  /-- R173: a data access at an index outside 0..1023. -/
  | memoryRange (pc index : Int)
  deriving DecidableEq, Repr

/-- The run state `rs` of R28. -/
inductive RunState where
  /-- After reset, no program loaded. -/
  | constructed
  /-- A load answered `Ok`. -/
  | loaded
  /-- Start was given; the engine runs cycles. -/
  | running
  /-- Exit ended the run; the halt code is 0..255 (R95). -/
  | halted (code : Nat)
  /-- A run-time fault ended the run (R169). -/
  | faulted (fault : RunFault)
  deriving DecidableEq, Repr

/-- How the input stream goes on behind the bytes at hand: "a sequence of bytes, finite or not" (R29; log 33). -/
inductive StreamTail where
  /-- The stream is at its end, for ever (R29). -/
  | ends
  /-- The stream delivers neither a byte nor its end (R84, 93_implementation_defined.md S13). -/
  | silent
  /-- The stream repeats these bytes, the first one apart so that there is one, without end. -/
  | repeats (first : Byte) (rest : List Byte)
  /-- The stream goes on without end, line after line, from line `k` of `Config.endlessLine`, which is uninterpreted. -/
  | lines (k : Nat)
  deriving DecidableEq, Repr

/-- The whole state (R15), and four fields of the model's own: what R33 calls parameters of the step relation (`input`,
`inputTail`, `oracle`; logs 7, 33), and whether the channels are attached (`attached`; log 34). -/
structure State where
  /-- Memory, 1024 words (R16, R17). -/
  mem : Memory
  /-- The program counter, untruncated (R18, R21; log 1). -/
  pc : Int
  /-- The stack pointer (R22, R23; log 1). -/
  sp : Int
  /-- The run state (R28). -/
  rs : RunState
  /-- The bytes the input stream delivers next (R29; log 7). -/
  input : List Byte
  /-- What it delivers after them (R29; log 33). -/
  inputTail : StreamTail
  /-- How many input bytes have been consumed (R29). -/
  consumed : Nat
  /-- The bytes emitted so far, oldest first (R30). -/
  output : List Byte
  /-- Answers of the I/O failure oracle to the channel operations still to come, `true` for `Error`; every later
  answer is `Ok` (R12, D26; log 7). -/
  oracle : List Bool
  /-- The host has attached the channels, "which stay attached for the life of the machine" (R187; log 34). -/
  attached : Bool
  deriving DecidableEq, Repr

/-- Why there is no next state. A run-time fault of the machine is none of these: it is TAKEN (a next state whose run
state is `faulted`, log 3), and only the step after it stops, by `runFaulted`. -/
inductive Fault where
  /-- Raised by `step` when the run state is `Halted(code)` (R28, R84): the outcome of R27, after which "nothing is
  fetched". Safe. -/
  | runHalted (code : Nat)
  /-- Raised by `step` when the run state is `Faulted(kind, info)` (R169, R171): the outcome of R27. Safe. -/
  | runFaulted (fault : RunFault)
  /-- Raised by Input and Stinput whose line never ends, because the stream falls silent or never delivers a terminator:
  "the instruction never completes" (93_implementation_defined.md S13, R84), and the model is stuck. Safe (log 33). -/
  | neverCompletes
  deriving DecidableEq, Repr

/-- Why there is no meaning to give. -/
inductive Refusal where
  /-- Raised by no arm of `exec`: every instruction has its meaning. Safe. -/
  | notModelled (mnemonic : String)
  /-- Raised by `step` in the run states Constructed and Loaded: no Start was given, and a cycle's precondition is
  `rs = Running` (R80, R84; log 5). Safe: the model stops where the machine waits for its host. -/
  | notStarted
  deriving DecidableEq, Repr

/-- The machine right after construction (R32, R186): Memory zero, `pc` 0, `sp` 1024, nothing consumed, nothing emitted,
no program. `input`, `inputTail` and `oracle` are the environment's (logs 7, 33), which nobody has attached
yet (R187). -/
def State.reset : State :=
  { mem := []
    pc := Config.pcReset
    sp := Config.spReset
    rs := .constructed
    input := []
    inputTail := .ends
    consumed := 0
    output := []
    oracle := []
    attached := false }

end Sys2Proof.Machine
end

