-- ==== Sys2Proof/Machine/Operands.lean ====
section
/-! DEFINITION. Operand forms: the conversions of 00_scope.md R9 and R13, and the stack-relative indices of 20_memory.md
R44. Index arithmetic is exact (R9, D2). -/

namespace Sys2Proof.Machine

/-- `u32(x)` as a word: `x mod 2^32` (R9). -/
def u32 (x : Int) : Word := BitVec.ofInt _ x

/-- `s32(v)`: the word read as two's complement (R9). -/
def s32 (v : Word) : Int := v.toInt

/-- `tdiv(a, b)`: the quotient rounded toward zero (R9). -/
def tdiv (a b : Int) : Int := Int.tdiv a b

/-- `trem(a, b) = a - b * tdiv(a, b)` (R9). -/
def trem (a b : Int) : Int := a - b * tdiv a b

/-- `clamp(x, lo, hi)` (R9). -/
def clamp (x lo hi : Int) : Int := max lo (min x hi)

/-- `widx(x)`: a byte offset or byte count in words (R13, R40). -/
def widx (x : Int) : Int := tdiv x Config.offsetScale

/-- The index of a data operand at byte offset `off` from the stack pointer (R44 (b)): Swap, Dup, Print, Stprint. -/
def stackIndex (s : State) (off : Int) : Int := s.sp + widx off

/-- The print radix: the low two bits of Print's offset, `W[1:0]` (R58, R151). -/
def radixOf (off : Int) : Nat := (off % 4).toNat

/-- The target of a control transfer at index `p`: `p + off`, untruncated (R130, R21). -/
def target (p off : Int) : Int := p + off

/-- `sp` after `Pop count` (R105). -/
def popSp (sp : Int) (count : Nat) : Int := clamp (sp + widx count) 0 Config.spReset

/-- `sp` after `Return extra` (R132); both `sp` are the old value, so 1025 is reachable (C4, D21, log 22). -/
def returnSp (sp : Int) (extra : Nat) : Int := sp + 1 + clamp (widx extra) 0 (Config.spReset - sp)

/-- `sh = u32(r) mod 32`: the amount of a shift by the word `r` (R120, D10, log 11). -/
def shiftAmount (modulus : Nat) (r : Word) : Nat := r.toNat % modulus

/-- The index is one of Memory's, 0..1023 (R10). -/
def inMemory (i : Int) : Bool := decide (0 ≤ i ∧ i < Config.memWords)

end Sys2Proof.Machine
end

