-- ==== Sys2Proof/Machine/Params.lean ====
section
/-! DEFINITION. The open parameters of 00_scope.md R7, each with the default 92_eei_decisions.md gives it: the shift
mask (D10), the newline byte and the whitespace set (D16), the number grammar (R101, D16), the texts of Print (R153,
D19) and Dump (R154, D20) and the fault code numbers (D5). Characters are ASCII bytes (93_implementation_defined.md G1
to G4, PRESUMED, log 17). A statement about exact text or about a shift by 32 or more rests on these defaults. -/

namespace Sys2Proof.Machine

/-! ### Shift amounts and fault codes -/

/-- `SHIFT_MASK` is 31: a shift amount is the right operand's low five bits, its value modulo this modulus (D10, log
11). -/
def shiftModulus : Nat := 32

/-- The default fault codes 1..8 of R161 (D5, log 26). -/
def FaultKind.code : FaultKind → Nat
  | .badProgram => 1
  | .stackOverflow => 2
  | .parseError => 3
  | .illegalInstruction => 4
  | .fetchRange => 5
  | .ioError => 6
  | .divideByZero => 7
  | .memoryRange => 8

/-- The kind of a run-time fault (R161). -/
def RunFault.kind : RunFault → FaultKind
  | .stackOverflow _ => .stackOverflow
  | .parseError _ => .parseError
  | .illegalInstruction _ _ => .illegalInstruction
  | .fetchRange _ => .fetchRange
  | .ioError _ => .ioError
  | .divideByZero _ => .divideByZero
  | .memoryRange _ _ => .memoryRange

/-- The `pc` a run-time fault records: the index of the faulting instruction, or the `pc` that could not be fetched from
(R161). -/
def RunFault.pc : RunFault → Int
  | .stackOverflow p => p
  | .parseError p => p
  | .illegalInstruction p _ => p
  | .fetchRange p => p
  | .ioError p => p
  | .divideByZero p => p
  | .memoryRange p _ => p

/-! ### Lines and whitespace -/

/-- `NEWLINE`, the byte 0x0A (R88, G1, log 17). -/
def newline : Byte := 0x0A#8

/-- A line ends at a newline or at a null byte (R88). -/
def endsLine (b : Byte) : Bool := decide (b = newline) || decide (b = 0x00#8)

/-- `IsSpace`: tab, 0x0A, 0x0B, 0x0C, carriage return, space (R89, G2, log 17). -/
def isSpace (b : Byte) : Bool := decide (0x09 ≤ b.toNat ∧ b.toNat ≤ 0x0D) || decide (b.toNat = 0x20)

/-- `Trim` of R89: whitespace removed from both ends, nothing from the middle. -/
def trim (s : List Byte) : List Byte := ((s.dropWhile isSpace).reverse.dropWhile isSpace).reverse

/-! ### The number parser of Input (R101) -/

/-- The value of one digit character in a base up to 16: `0-9`, `a-f`, `A-F` (R101). -/
def digitValue (base : Nat) (b : Byte) : Option Nat :=
  let n := b.toNat
  let v :=
    if 0x30 ≤ n ∧ n ≤ 0x39 then n - 0x30
    else if 0x61 ≤ n ∧ n ≤ 0x66 then n - 0x61 + 10
    else if 0x41 ≤ n ∧ n ≤ 0x46 then n - 0x41 + 10
    else base
  if v < base then some v else none

/-- The value of digits read after a value `acc`, or `none` at a byte that is no digit. -/
def digitsFrom (base : Nat) : Nat → List Byte → Option Nat
  | acc, [] => some acc
  | acc, b :: rest =>
    match digitValue base b with
    | some v => digitsFrom base (acc * base + v) rest
    | none => none

/-- The value of a nonempty digit string (R101). -/
def digitsNat (base : Nat) (d : List Byte) : Option Nat :=
  if d = [] then none else digitsFrom base 0 d

/-- Hexadecimal and binary values: at most 0xFFFFFFFF (R101). -/
def parsePrefixed (base : Nat) (d : List Byte) : Option Word :=
  match digitsNat base d with
  | some v => if v ≤ 0xFFFFFFFF then some (BitVec.ofNat _ v) else none
  | none => none

/-- Decimal digits with their sign: -2147483648..2147483647 (R101). -/
def parseSigned (neg : Bool) (d : List Byte) : Option Word :=
  match digitsNat 10 d with
  | some n =>
    let v : Int := if neg then -(n : Int) else n
    if -2147483648 ≤ v ∧ v ≤ 2147483647 then some (BitVec.ofInt _ v) else none
  | none => none

/-- `ParseInput`, the default of R101 (D16, log 17): `0x` hexadecimal, `0b` binary, otherwise decimal with an optional
`-`. -/
def parseInput (t : List Byte) : Option Word :=
  match t with
  | 0x30#8 :: 0x78#8 :: d => parsePrefixed 16 d
  | 0x30#8 :: 0x62#8 :: d => parsePrefixed 2 d
  | 0x2D#8 :: d => parseSigned true d
  | d => parseSigned false d

/-! ### The texts of Print and Dump (R153, R154) -/

/-- The character of a digit below 16, letters in lower case (R153). -/
def digitChar (n : Nat) : Byte := if n < 10 then BitVec.ofNat 8 (0x30 + n) else BitVec.ofNat 8 (0x61 + (n - 10))

/-- `n` in a base, without leading zeros, zero as `0`; the first argument bounds the number of digits. -/
def digitsOf (base : Nat) : Nat → Nat → List Byte
  | 0, _ => []
  | fuel + 1, n =>
    if n < base then [digitChar n] else digitsOf base fuel (n / base) ++ [digitChar (n % base)]

/-- `n` in exactly `k` hexadecimal digits, leading zeros kept (R154). -/
def hexFixed : Nat → Nat → List Byte
  | 0, _ => []
  | k + 1, n => hexFixed k (n / 16) ++ [digitChar (n % 16)]

/-- A word's number in a base of at least 2 has at most `WORD_BITS` digits. -/
def digitsWord (base n : Nat) : List Byte := digitsOf base Config.wordBits n

/-- `s32(v)` in decimal, `-` first when negative (R153, radix 0). -/
def formatDecimal (v : Int) : List Byte :=
  if v < 0 then 0x2D#8 :: digitsWord 10 v.natAbs else digitsWord 10 v.natAbs

/-- `FormatPrint`, the default of R153 (D19, log 20): radix 0 signed decimal, 1 hexadecimal, 2 binary, 3 octal of the
unsigned word. -/
def formatPrint (radix : Nat) (v : Word) : List Byte :=
  match radix with
  | 0 => formatDecimal v.toInt
  | 1 => digitsWord 16 v.toNat
  | 2 => digitsWord 2 v.toNat
  | _ => digitsWord 8 v.toNat

/-- `FormatDump`, the default of R154 (D20, log 21): four hexadecimal digits of the relative word address, colon, space,
eight hexadecimal digits of the word. -/
def formatDump (rel : Nat) (v : Word) : List Byte :=
  hexFixed 4 rel ++ [0x3A#8, 0x20#8] ++ hexFixed 8 v.toNat

end Sys2Proof.Machine
end

