-- ==== Sys2Proof/Machine/Alu.lean ====
section
/-! DEFINITION. What each ALU instruction computes (43_arithmetic.md): operands as signed 32-bit integers, the exact
result, then reduction modulo 2^32 (R110, R111, R125). `none` is division by zero. -/

namespace Sys2Proof.Machine

/-- `l + r` (R112). -/
def aluAdd (l r : Word) : Option Word := some (u32 (s32 l + s32 r))

/-- `l - r` (R113). -/
def aluSub (l r : Word) : Option Word := some (u32 (s32 l - s32 r))

/-- `l * r`, low 32 bits (R114). -/
def aluMul (l r : Word) : Option Word := some (u32 (s32 l * s32 r))

/-- `tdiv(l, r)`; no value for `r = 0` (R115, D11, log 12). -/
def aluDiv (l r : Word) : Option Word := if s32 r = 0 then none else some (u32 (tdiv (s32 l) (s32 r)))

/-- `trem(l, r)`; no value for `r = 0` (R116, D11, log 12). -/
def aluRem (l r : Word) : Option Word := if s32 r = 0 then none else some (u32 (trem (s32 l) (s32 r)))

/-- Bitwise AND (R117, D12, log 13). -/
def aluAnd (l r : Word) : Option Word := some (l &&& r)

/-- Bitwise inclusive OR (R118). -/
def aluOr (l r : Word) : Option Word := some (l ||| r)

/-- Bitwise exclusive OR (R119). -/
def aluXor (l r : Word) : Option Word := some (l ^^^ r)

/-- `l * 2^sh` (R120). -/
def aluShl (l r : Word) : Option Word := some (u32 (s32 l * 2 ^ shiftAmount shiftModulus r))

/-- `floor(u32(l) / 2^sh)` (R121). -/
def aluLogicalShr (l r : Word) : Option Word := some (u32 ((l.toNat : Int) / 2 ^ shiftAmount shiftModulus r))

/-- `floor(l / 2^sh)` on the signed value (R122). -/
def aluArithmeticShr (l r : Word) : Option Word := some (u32 (s32 l / 2 ^ shiftAmount shiftModulus r))

/-- `-a` (R123). -/
def aluNegate (a : Word) : Word := u32 (-(s32 a))

/-- Bitwise complement (R124, D12, log 13). -/
def aluNot (a : Word) : Word := ~~~a

end Sys2Proof.Machine
end

