-- ==== Sys2Proof/Syntax.lean ====
section
/-! DEFINITION. The instruction set, whole: one constructor for each of the 38 rows of spec/opcode_table.json
(30_encoding.md R60), in the table's order. An operand is the DECODED value of R58, a mathematical integer; the range
the encoding admits (R58, R65) is checked by `Instr.wellFormed`. -/

namespace Sys2Proof

/-- An instruction with its decoded operand values (30_encoding.md R58, R60). -/
inductive Instr where
  /-- `Exit code` (R95); `code` is 0..255. -/
  | exit (code : Nat)
  /-- `Swap from, to` (R96); two byte offsets, each -2048..2047. -/
  | swap (fromOff toOff : Int)
  /-- `Nop` (R97). -/
  | nop
  /-- `Input` (R98). -/
  | input
  /-- `Stinput max` (R99); a byte count, 0..2^24-1. -/
  | stinput (max : Nat)
  /-- `Debug` (R100). -/
  | debug
  /-- `Pop count` (R105); a byte count, 0..2^28-1. -/
  | pop (count : Nat)
  /-- `Add` (R112). -/
  | add
  /-- `Sub` (R113). -/
  | sub
  /-- `Mul` (R114). -/
  | mul
  /-- `Div` (R115). -/
  | div
  /-- `Rem` (R116). -/
  | rem
  /-- `And` (R117). -/
  | and
  /-- `Or` (R118). -/
  | or
  /-- `Xor` (R119). -/
  | xor
  /-- `Shl` (R120). -/
  | shl
  /-- `LogicalShr` (R121). -/
  | logicalShr
  /-- `ArithmeticShr` (R122). -/
  | arithmeticShr
  /-- `Negate` (R123). -/
  | negate
  /-- `Not` (R124). -/
  | not
  /-- `Stprint off` (R150); a byte offset, 0..2^28-1, never negative (C1). -/
  | stprint (off : Nat)
  /-- `Call off` (R131); a word offset, -2^25..2^25-1. -/
  | call (off : Int)
  /-- `Return extra` (R132); a byte count, 0..2^26-1. -/
  | ret (extra : Nat)
  /-- `Goto off` (R133); a word offset, -2^23..2^23-1. -/
  | goto (off : Int)
  /-- `BinaryIf.eq off` (R134); a word offset, -2^22..2^22-1. -/
  | binaryIfEq (off : Int)
  /-- `BinaryIf.ne off` (R135). -/
  | binaryIfNe (off : Int)
  /-- `BinaryIf.lt off` (R136). -/
  | binaryIfLt (off : Int)
  /-- `BinaryIf.gt off` (R137). -/
  | binaryIfGt (off : Int)
  /-- `BinaryIf.le off` (R138). -/
  | binaryIfLe (off : Int)
  /-- `BinaryIf.ge off` (R139). -/
  | binaryIfGe (off : Int)
  /-- `UnaryIf.eqz off` (R140); a word offset, -2^23..2^23-1. -/
  | unaryIfEqz (off : Int)
  /-- `UnaryIf.nez off` (R141). -/
  | unaryIfNez (off : Int)
  /-- `UnaryIf.ltz off` (R142). -/
  | unaryIfLtz (off : Int)
  /-- `UnaryIf.gez off` (R143). -/
  | unaryIfGez (off : Int)
  /-- `Dup off` (R106); a byte offset, 0..2^28-1. -/
  | dup (off : Nat)
  /-- `Print off` (R151); a byte offset, -2^27..2^27-1, whose low two bits are also the radix. -/
  | print (off : Int)
  /-- `Dump` (R152). -/
  | dump
  /-- `Push imm` (R107); -2^27..2^27-1. -/
  | push (imm : Int)
  deriving DecidableEq, Repr

end Sys2Proof
end

