-- ==== Sys2Proof/WellFormed.lean ====
section
/-! DEFINITION. Which instructions can be encoded: the operand ranges of 30_encoding.md R58 and R65 ("A value outside
the range cannot be encoded"). -/

namespace Sys2Proof

/-- `v` fits an unsigned field of `n` bits. -/
def fitsUnsigned (n v : Nat) : Bool := decide (v < 2 ^ n)

/-- `v` fits a two's-complement field of `n` bits. -/
def fitsSigned (n : Nat) (v : Int) : Bool := decide (-(2 ^ (n - 1)) ≤ v ∧ v < 2 ^ (n - 1))

/-- Every operand is in the range R65 lists for its instruction. -/
def Instr.wellFormed : Instr → Bool
  | .exit code => fitsUnsigned Config.haltBits code
  | .swap fromOff toOff => fitsSigned 12 fromOff && fitsSigned 12 toOff
  | .nop => true
  | .input => true
  | .stinput max => fitsUnsigned 24 max
  | .debug => true
  | .pop count => fitsUnsigned 28 count
  | .add => true
  | .sub => true
  | .mul => true
  | .div => true
  | .rem => true
  | .and => true
  | .or => true
  | .xor => true
  | .shl => true
  | .logicalShr => true
  | .arithmeticShr => true
  | .negate => true
  | .not => true
  | .stprint off => fitsUnsigned 28 off
  | .call off => fitsSigned 26 off
  | .ret extra => fitsUnsigned 26 extra
  | .goto off => fitsSigned 24 off
  | .binaryIfEq off => fitsSigned 23 off
  | .binaryIfNe off => fitsSigned 23 off
  | .binaryIfLt off => fitsSigned 23 off
  | .binaryIfGt off => fitsSigned 23 off
  | .binaryIfLe off => fitsSigned 23 off
  | .binaryIfGe off => fitsSigned 23 off
  | .unaryIfEqz off => fitsSigned 24 off
  | .unaryIfNez off => fitsSigned 24 off
  | .unaryIfLtz off => fitsSigned 24 off
  | .unaryIfGez off => fitsSigned 24 off
  | .dup off => fitsUnsigned 28 off
  | .print off => fitsSigned 28 off
  | .dump => true
  | .push imm => fitsSigned 28 imm

end Sys2Proof
end

