-- ==== Sys2Proof/Decode.lean ====
section
/-! DEFINITION. The instruction codec (30_encoding.md): the decoder (R55 to R59, R62, R63), a pure total function of the
32-bit word; after it the canonical encoder (R65) and the opcode table (R60) as data; and the byte numbering of a word
(R37, R38). -/

namespace Sys2Proof

/-! ### Bit fields -/

/-- `W[hi:lo]` of R8: the unsigned integer made of bits `hi` down to `lo`. -/
def bits (w : Word) (hi lo : Nat) : Nat := w.toNat / 2 ^ lo % 2 ^ (hi + 1 - lo)

/-- `sext_n` of R9: an `n`-bit field value read as two's complement. -/
def sext (n v : Nat) : Int := if v < 2 ^ (n - 1) then (v : Int) else (v : Int) - 2 ^ n

/-- `x m n` of R65: `x mod 2^n`, the field that holds `x`. -/
def field (n : Nat) (x : Int) : Nat := (x % 2 ^ n).toNat

/-- Byte `k` of a word is `W[8k+7 : 8k]`, byte 0 the least significant (R38). -/
def byteOf (w : Word) (k : Nat) : Byte := BitVec.ofNat 8 (w.toNat / 256 ^ k)

/-- The word of four bytes, the first the least significant (R37, R38). -/
def wordOfBytes (b0 b1 b2 b3 : Byte) : Word :=
  BitVec.ofNat _ (b0.toNat + 256 * b1.toNat + 65536 * b2.toNat + 16777216 * b3.toNat)

/-! ### The decoder -/

/-- Why a word is no instruction: the cases of R62 by name, and a byte string that is no whole word. -/
inductive DecodeError where
  /-- R62 (a): `W[31:28]` is 0xA or 0xB. -/
  | unusedGroup
  /-- R62 (b): group 0x0 with a sub-opcode the table does not list. -/
  | miscSub
  /-- R62 (c): group 0x2 with a sub-opcode the table does not list. -/
  | binarySub
  /-- R62 (d): group 0x3 with a sub-opcode the table does not list. -/
  | unarySub
  /-- R62 (e): group 0x8 with comparison code 6 or 7 (D8, log 9). -/
  | comparison
  /-- Not four bytes: an instruction is one 32-bit word (R55). -/
  | notAWord
  deriving DecidableEq, Repr

/-- Group 0x0, selected by `W[27:24]` (R59). -/
def decodeMisc (w : Word) : Except DecodeError Instr :=
  match bits w 27 24 with
  | 0x0 => .ok (.exit (bits w (Config.haltBits - 1) 0))
  | 0x1 => .ok (.swap (sext 12 (bits w 23 12)) (sext 12 (bits w 11 0)))
  | 0x2 => .ok .nop
  | 0x4 => .ok .input
  | 0x5 => .ok (.stinput (bits w 23 0))
  | 0xF => .ok .debug
  | _ => .error .miscSub

/-- Group 0x2, selected by `W[27:24]`; codes and names pair in order (R59, D9, log 10). -/
def decodeBinary (w : Word) : Except DecodeError Instr :=
  match bits w 27 24 with
  | 0x0 => .ok .add
  | 0x1 => .ok .sub
  | 0x2 => .ok .mul
  | 0x3 => .ok .div
  | 0x4 => .ok .rem
  | 0x5 => .ok .and
  | 0x6 => .ok .or
  | 0x7 => .ok .xor
  | 0x8 => .ok .shl
  | 0x9 => .ok .logicalShr
  | 0xB => .ok .arithmeticShr
  | _ => .error .binarySub

/-- Group 0x3, selected by `W[27:24]` (R59). -/
def decodeUnary (w : Word) : Except DecodeError Instr :=
  match bits w 27 24 with
  | 0x0 => .ok .negate
  | 0x1 => .ok .not
  | _ => .error .unarySub

/-- Group 0x8, selected by the comparison code `W[27:25]`; the offset is `W[24:2]` (R58, R59). -/
def decodeBinaryIf (w : Word) : Except DecodeError Instr :=
  match bits w 27 25 with
  | 0 => .ok (.binaryIfEq (sext 23 (bits w 24 2)))
  | 1 => .ok (.binaryIfNe (sext 23 (bits w 24 2)))
  | 2 => .ok (.binaryIfLt (sext 23 (bits w 24 2)))
  | 3 => .ok (.binaryIfGt (sext 23 (bits w 24 2)))
  | 4 => .ok (.binaryIfLe (sext 23 (bits w 24 2)))
  | 5 => .ok (.binaryIfGe (sext 23 (bits w 24 2)))
  | _ => .error .comparison

/-- Group 0x9, selected by the comparison code `W[26:25]`, whose four values are all used; the offset is `W[23:0]`, not
shifted (R58, R59). -/
def decodeUnaryIf (w : Word) : Instr :=
  match bits w 26 25 with
  | 0 => .unaryIfEqz (sext 24 (bits w 23 0))
  | 1 => .unaryIfNez (sext 24 (bits w 23 0))
  | 2 => .unaryIfLtz (sext 24 (bits w 23 0))
  | _ => .unaryIfGez (sext 24 (bits w 23 0))

/-- `Decode` of R56: dispatch on the group `W[31:28]` (R55, R59), operands assembled as R58 says; bits no field covers
are not examined (R63, D7, log 9). -/
def decode (w : Word) : Except DecodeError Instr :=
  match bits w 31 28 with
  | 0x0 => decodeMisc w
  | 0x1 => .ok (.pop (bits w 27 0))
  | 0x2 => decodeBinary w
  | 0x3 => decodeUnary w
  | 0x4 => .ok (.stprint (bits w 27 0))
  | 0x5 => .ok (.call (sext 26 (bits w 25 0)))
  | 0x6 => .ok (.ret (bits w 25 0))
  | 0x7 => .ok (.goto (sext 24 (bits w 25 2)))
  | 0x8 => decodeBinaryIf w
  | 0x9 => .ok (decodeUnaryIf w)
  | 0xC => .ok (.dup (bits w 27 0))
  | 0xD => .ok (.print (sext 28 (bits w 27 0)))
  | 0xE => .ok .dump
  | 0xF => .ok (.push (sext 28 (bits w 27 0)))
  | _ => .error .unusedGroup

/-- The decoder on a byte string, in the byte order of the program file (R37): four bytes make one instruction. -/
def decodeBytes : List Byte → Except DecodeError Instr
  | [b0, b1, b2, b3] => decode (wordOfBytes b0 b1 b2 b3)
  | _ => .error .notAWord

/-- What the decoder reads from an instruction whose `nbits` low bits are `w`, every higher bit 0. The machine stores and
fetches an instruction as one whole word (R36, R55), so the layout is the word itself. -/
def decodeTableWord (nbits w : Nat) : Option Instr :=
  (decode (BitVec.ofNat _ (w % 2 ^ nbits))).toOption

/-! ### The encoder -/

/-- The canonical encoding of R65 as a number: every ignored bit is zero. -/
def encodeNat : Instr → Nat
  | .exit code => code
  | .swap fromOff toOff => 0x01000000 + field 12 fromOff * 4096 + field 12 toOff
  | .nop => 0x02000000
  | .input => 0x04000000
  | .stinput max => 0x05000000 + max
  | .debug => 0x0F000000
  | .pop count => 0x10000000 + count
  | .add => 0x20000000
  | .sub => 0x21000000
  | .mul => 0x22000000
  | .div => 0x23000000
  | .rem => 0x24000000
  | .and => 0x25000000
  | .or => 0x26000000
  | .xor => 0x27000000
  | .shl => 0x28000000
  | .logicalShr => 0x29000000
  | .arithmeticShr => 0x2B000000
  | .negate => 0x30000000
  | .not => 0x31000000
  | .stprint off => 0x40000000 + off
  | .call off => 0x50000000 + field 26 off
  | .ret extra => 0x60000000 + extra
  | .goto off => 0x70000000 + field 24 off * 4
  | .binaryIfEq off => 0x80000000 + field 23 off * 4
  | .binaryIfNe off => 0x82000000 + field 23 off * 4
  | .binaryIfLt off => 0x84000000 + field 23 off * 4
  | .binaryIfGt off => 0x86000000 + field 23 off * 4
  | .binaryIfLe off => 0x88000000 + field 23 off * 4
  | .binaryIfGe off => 0x8A000000 + field 23 off * 4
  | .unaryIfEqz off => 0x90000000 + field 24 off
  | .unaryIfNez off => 0x92000000 + field 24 off
  | .unaryIfLtz off => 0x94000000 + field 24 off
  | .unaryIfGez off => 0x96000000 + field 24 off
  | .dup off => 0xC0000000 + off
  | .print off => 0xD0000000 + field 28 off
  | .dump => 0xE0000000
  | .push imm => 0xF0000000 + field 28 imm

/-- The canonical word of an instruction (R65). -/
def encode (i : Instr) : Word := BitVec.ofNat _ (encodeNat i)

/-! ### The opcode table as data -/

/-- One row of R60: a word `W` is the row's instruction exactly when `W & mask = pattern`. -/
structure OpcodeRow where
  mnemonic : String
  mask : Word
  pattern : Word
  deriving DecidableEq, Repr

/-- The word lies in the row (R60). -/
def OpcodeRow.holds (r : OpcodeRow) (w : Word) : Bool := decide (w &&& r.mask = r.pattern)

/-- The mnemonic of an instruction (R60), as spec/opcode_table.json spells it. -/
def Instr.mnemonic : Instr → String
  | .exit _ => "Exit"
  | .swap _ _ => "Swap"
  | .nop => "Nop"
  | .input => "Input"
  | .stinput _ => "Stinput"
  | .debug => "Debug"
  | .pop _ => "Pop"
  | .add => "Add"
  | .sub => "Sub"
  | .mul => "Mul"
  | .div => "Div"
  | .rem => "Rem"
  | .and => "And"
  | .or => "Or"
  | .xor => "Xor"
  | .shl => "Shl"
  | .logicalShr => "LogicalShr"
  | .arithmeticShr => "ArithmeticShr"
  | .negate => "Negate"
  | .not => "Not"
  | .stprint _ => "Stprint"
  | .call _ => "Call"
  | .ret _ => "Return"
  | .goto _ => "Goto"
  | .binaryIfEq _ => "BinaryIf.eq"
  | .binaryIfNe _ => "BinaryIf.ne"
  | .binaryIfLt _ => "BinaryIf.lt"
  | .binaryIfGt _ => "BinaryIf.gt"
  | .binaryIfLe _ => "BinaryIf.le"
  | .binaryIfGe _ => "BinaryIf.ge"
  | .unaryIfEqz _ => "UnaryIf.eqz"
  | .unaryIfNez _ => "UnaryIf.nez"
  | .unaryIfLtz _ => "UnaryIf.ltz"
  | .unaryIfGez _ => "UnaryIf.gez"
  | .dup _ => "Dup"
  | .print _ => "Print"
  | .dump => "Dump"
  | .push _ => "Push"

/-- The masks of R60: the bits that select the instruction. -/
def Instr.opcodeMask : Instr → Word
  | .exit _ | .swap _ _ | .nop | .input | .stinput _ | .debug => 0xFF000000#32
  | .add | .sub | .mul | .div | .rem | .and | .or | .xor => 0xFF000000#32
  | .shl | .logicalShr | .arithmeticShr | .negate | .not => 0xFF000000#32
  | .binaryIfEq _ | .binaryIfNe _ | .binaryIfLt _ => 0xFE000000#32
  | .binaryIfGt _ | .binaryIfLe _ | .binaryIfGe _ => 0xFE000000#32
  | .unaryIfEqz _ | .unaryIfNez _ | .unaryIfLtz _ | .unaryIfGez _ => 0xF6000000#32
  | .pop _ | .stprint _ | .call _ | .ret _ | .goto _ => 0xF0000000#32
  | .dup _ | .print _ | .dump | .push _ => 0xF0000000#32

/-- The bits of R57 that carry an operand; a bit in neither mask is ignored (R63). -/
def Instr.operandMask : Instr → Word
  | .exit _ => 0x000000FF#32
  | .swap _ _ | .stinput _ => 0x00FFFFFF#32
  | .nop | .input | .debug | .dump => 0#32
  | .add | .sub | .mul | .div | .rem | .and | .or | .xor => 0#32
  | .shl | .logicalShr | .arithmeticShr | .negate | .not => 0#32
  | .pop _ | .stprint _ | .dup _ | .print _ | .push _ => 0x0FFFFFFF#32
  | .call _ | .ret _ => 0x03FFFFFF#32
  | .goto _ => 0x03FFFFFC#32
  | .binaryIfEq _ | .binaryIfNe _ | .binaryIfLt _ => 0x01FFFFFC#32
  | .binaryIfGt _ | .binaryIfLe _ | .binaryIfGe _ => 0x01FFFFFC#32
  | .unaryIfEqz _ | .unaryIfNez _ | .unaryIfLtz _ | .unaryIfGez _ => 0x00FFFFFF#32

/-- Rows 1 to 20 of R60. -/
def opcodeTableLow : List OpcodeRow :=
  [⟨"Exit", 0xFF000000#32, 0x00000000#32⟩, ⟨"Swap", 0xFF000000#32, 0x01000000#32⟩,
   ⟨"Nop", 0xFF000000#32, 0x02000000#32⟩, ⟨"Input", 0xFF000000#32, 0x04000000#32⟩,
   ⟨"Stinput", 0xFF000000#32, 0x05000000#32⟩, ⟨"Debug", 0xFF000000#32, 0x0F000000#32⟩,
   ⟨"Pop", 0xF0000000#32, 0x10000000#32⟩, ⟨"Add", 0xFF000000#32, 0x20000000#32⟩,
   ⟨"Sub", 0xFF000000#32, 0x21000000#32⟩, ⟨"Mul", 0xFF000000#32, 0x22000000#32⟩,
   ⟨"Div", 0xFF000000#32, 0x23000000#32⟩, ⟨"Rem", 0xFF000000#32, 0x24000000#32⟩,
   ⟨"And", 0xFF000000#32, 0x25000000#32⟩, ⟨"Or", 0xFF000000#32, 0x26000000#32⟩,
   ⟨"Xor", 0xFF000000#32, 0x27000000#32⟩, ⟨"Shl", 0xFF000000#32, 0x28000000#32⟩,
   ⟨"LogicalShr", 0xFF000000#32, 0x29000000#32⟩, ⟨"ArithmeticShr", 0xFF000000#32, 0x2B000000#32⟩,
   ⟨"Negate", 0xFF000000#32, 0x30000000#32⟩, ⟨"Not", 0xFF000000#32, 0x31000000#32⟩]

/-- Rows 21 to 38 of R60. -/
def opcodeTableHigh : List OpcodeRow :=
  [⟨"Stprint", 0xF0000000#32, 0x40000000#32⟩, ⟨"Call", 0xF0000000#32, 0x50000000#32⟩,
   ⟨"Return", 0xF0000000#32, 0x60000000#32⟩, ⟨"Goto", 0xF0000000#32, 0x70000000#32⟩,
   ⟨"BinaryIf.eq", 0xFE000000#32, 0x80000000#32⟩, ⟨"BinaryIf.ne", 0xFE000000#32, 0x82000000#32⟩,
   ⟨"BinaryIf.lt", 0xFE000000#32, 0x84000000#32⟩, ⟨"BinaryIf.gt", 0xFE000000#32, 0x86000000#32⟩,
   ⟨"BinaryIf.le", 0xFE000000#32, 0x88000000#32⟩, ⟨"BinaryIf.ge", 0xFE000000#32, 0x8A000000#32⟩,
   ⟨"UnaryIf.eqz", 0xF6000000#32, 0x90000000#32⟩, ⟨"UnaryIf.nez", 0xF6000000#32, 0x92000000#32⟩,
   ⟨"UnaryIf.ltz", 0xF6000000#32, 0x94000000#32⟩, ⟨"UnaryIf.gez", 0xF6000000#32, 0x96000000#32⟩,
   ⟨"Dup", 0xF0000000#32, 0xC0000000#32⟩, ⟨"Print", 0xF0000000#32, 0xD0000000#32⟩,
   ⟨"Dump", 0xF0000000#32, 0xE0000000#32⟩, ⟨"Push", 0xF0000000#32, 0xF0000000#32⟩]

/-- The complete instruction list of R60, in its order. -/
def opcodeTable : List OpcodeRow := opcodeTableLow ++ opcodeTableHigh

end Sys2Proof
end

