-- ==== Sys2Proof/Machine/Memory.lean ====
section
/-! DEFINITION. Memory as a canonical list of byte cells: its form, the read and write of one cell, and the read and
write of one whole word, the machine's only access width (20_memory.md R39). Indices here are already in range; the
range check is `memRead` and `memWrite` of Ops. -/

namespace Sys2Proof.Machine

/-- What an unlisted cell reads as: zero, the reset content of Memory (R16, R32). -/
def Memory.unlisted : Byte := 0#8

/-- The number of byte cells: four per word (log 2). -/
def Memory.cells : Nat := 4 * Config.memWords

/-- The form from address `lo` on: addresses at least `lo`, strictly rising, below `Memory.cells`, and no entry equal to
what an unlisted address reads as. -/
def Memory.wfFrom : Nat → Memory → Bool
  | _, [] => true
  | lo, (a, b) :: t =>
    decide (lo ≤ a) && decide (a < Memory.cells) && decide (b ≠ Memory.unlisted) && Memory.wfFrom (a + 1) t

/-- The one canonical form of Memory. -/
def Memory.wf (m : Memory) : Bool := Memory.wfFrom 0 m

/-- The byte in cell `a`. -/
def Memory.readByte : Memory → Nat → Byte
  | [], _ => Memory.unlisted
  | (k, c) :: t, a => if k = a then c else Memory.readByte t a

/-- Memory with byte `b` in cell `a`, in canonical form again. -/
def Memory.writeByte : Memory → Nat → Byte → Memory
  | [], a, b => if b = Memory.unlisted then [] else [(a, b)]
  | (k, c) :: t, a, b =>
    if a < k then (if b = Memory.unlisted then (k, c) :: t else (a, b) :: (k, c) :: t)
    else if a = k then (if b = Memory.unlisted then t else (a, b) :: t)
    else (k, c) :: Memory.writeByte t a b

/-- `Mem[i]` (R10): the whole word of index `i`. -/
def Memory.readWord (m : Memory) (i : Nat) : Word :=
  wordOfBytes (m.readByte (4 * i)) (m.readByte (4 * i + 1)) (m.readByte (4 * i + 2)) (m.readByte (4 * i + 3))

/-- `Mem[i] <- v` (R10). -/
def Memory.writeWord (m : Memory) (i : Nat) (v : Word) : Memory :=
  (((m.writeByte (4 * i + 3) (byteOf v 3)).writeByte (4 * i + 2) (byteOf v 2)).writeByte
    (4 * i + 1) (byteOf v 1)).writeByte (4 * i) (byteOf v 0)

/-- Memory with the words `ws` at the indices from `i` upward (R48). -/
def Memory.writeWords (m : Memory) (i : Nat) : List Word → Memory
  | [] => m
  | w :: ws => (m.writeWords (i + 1) ws).writeWord i w

end Sys2Proof.Machine
end

