-- ==== Sys2Proof/Machine/Ops.lean ====
section
/-! DEFINITION. The engine's named operations (00_scope.md R10 to R12, 40_execution_cycle.md R86 to R89): the updates of
State, Memory access with its range check, the stack, the two channels, taking a fault (60_exceptions.md R169), and the
fetch (R81). A meaning is a sequence of these, written in the order of the spec's pseudocode, which is normative for
which fault is reported (R11, R168). -/

namespace Sys2Proof.Machine

/-! ### Updates of State, one per field -/

def State.setMem (s : State) (m : Memory) : State := { s with mem := m }
def State.setPc (s : State) (p : Int) : State := { s with pc := p }
def State.setSp (s : State) (p : Int) : State := { s with sp := p }
def State.setRs (s : State) (r : RunState) : State := { s with rs := r }
def State.setInput (s : State) (i : List Byte) : State := { s with input := i }
def State.setInputTail (s : State) (l : StreamTail) : State := { s with inputTail := l }
def State.setConsumed (s : State) (n : Nat) : State := { s with consumed := n }
def State.setOutput (s : State) (o : List Byte) : State := { s with output := o }
def State.setOracle (s : State) (o : List Bool) : State := { s with oracle := o }
def State.setAttached (s : State) (b : Bool) : State := { s with attached := b }

/-! ### Sequences of operations and taking a fault -/

/-- How a piece of pseudocode does not go on. -/
inductive Stop where
  /-- It raises a fault (R11). -/
  | fault (f : RunFault)
  /-- It never completes (S13, log 33). -/
  | never
  deriving DecidableEq, Repr

/-- A piece of an instruction's pseudocode: it goes on with a value and the state so far, or it stops, keeping the state
written so far (R90, R170; log 3). -/
abbrev Op (α : Type) := EStateM Stop State α

/-- `raise K(info)` of R11; the fault records the index of the instruction, which `pc` holds while it executes (R19). -/
def raise {α : Type} (f : Int → RunFault) : Op α := fun s => .error (.fault (f s.pc)) s

/-- FAULT ENTRY (R169), the one way a fault is taken: the run state becomes `Faulted(kind, info)`; nothing is saved, no
mode changes, control goes nowhere. There is no return from it (R171). -/
def takeFault (f : RunFault) (s : State) : State := s.setRs (.faulted f)

/-- An instruction as a step outcome: the state it completes in, the state in which its fault is taken (R11), or no state
at all if it never completes. -/
def complete (m : Op Unit) (s : State) : Host.Outcome State Fault Refusal :=
  match m s with
  | .ok _ t => .next t
  | .error (.fault f) t => .next (takeFault f t)
  | .error .never _ => .fault .neverCompletes

/-! ### Registers -/

/-- Read `sp`. -/
def getSp : Op Int := fun s => .ok s.sp s

/-- Read `pc`, the index of the executing instruction (R19). -/
def getPc : Op Int := fun s => .ok s.pc s

/-- `sp <- e`. -/
def putSp (e : Int) : Op Unit := fun s => .ok () (s.setSp e)

/-- `pc <- e`: the instruction sets `pc` itself and skips the implicit increment (R83). -/
def jump (e : Int) : Op Unit := fun s => .ok () (s.setPc e)

/-- The Advance phase, `pc <- p + 1` (R83); not reduced modulo anything (R21). -/
def advance : Op Unit := fun s => .ok () (s.setPc (s.pc + 1))

/-- `rs <- Halted(code)` (R95). -/
def halt (code : Nat) : Op Unit := fun s => .ok () (s.setRs (.halted code))

/-! ### Memory -/

/-- `MemRead(i, 1)` (R10). -/
def memRead (i : Int) : Op Word := fun s =>
  if inMemory i then .ok (s.mem.readWord i.toNat) s else .error (.fault (.memoryRange s.pc i)) s

/-- `MemWrite(i, 1, v)` (R10). -/
def memWrite (i : Int) (v : Word) : Op Unit := fun s =>
  if inMemory i then .ok () (s.setMem (s.mem.writeWord i.toNat v)) else .error (.fault (.memoryRange s.pc i)) s

/-! ### The stack -/

/-- The `Push` primitive on a word (R86): the overflow check comes before the decrement and before the write. -/
def pushWord (v : Word) : Op Unit := do
  let sp ← getSp
  if sp ≤ 0 then raise .stackOverflow
  else do
    putSp (sp - 1)
    memWrite (sp - 1) v

/-- `Push(v)` for an integer `v`: stores `u32(v)` (R86). -/
def push (v : Int) : Op Unit := pushWord (u32 v)

/-- `PopWord()` (R87): read, then increment. -/
def popWord : Op Word := do
  let sp ← getSp
  let v ← memRead sp
  putSp (sp + 1)
  pure v

/-- The words of a list pushed in turn, the first one first. -/
def pushWords : List Word → Op Unit
  | [] => pure ()
  | w :: ws => do
    pushWord w
    pushWords ws

/-! ### The channels -/

/-- One channel operation asks the failure oracle (R12, D26); `Error` raises IoError (R167). -/
def channel : Op Unit := fun s =>
  if s.oracle.headD false then .error (.fault (.ioError s.pc)) (s.setOracle s.oracle.tail)
  else .ok () (s.setOracle s.oracle.tail)

/-- The bytes the rest of the stream delivers next: one round of what repeats, one line with its terminator of an endless
stream, nothing from a stream that has ended or is silent (R29, log 33). -/
def StreamTail.block : StreamTail → List Byte
  | .ends => []
  | .silent => []
  | .repeats b bs => b :: bs
  | .lines k => Config.endlessLine k ++ [if Config.endlessNull k then 0x00#8 else newline]

/-- The rest of the stream behind its `block`. -/
def StreamTail.after : StreamTail → StreamTail
  | .ends => .ends
  | .silent => .silent
  | .repeats b bs => .repeats b bs
  | .lines k => .lines (k + 1)

/-- Take the next byte of the input stream, `none` at its end, which persists (R29). From a silent stream none ever comes
(S13). -/
def takeByte : Op (Option Byte) := fun s =>
  match s.input with
  | b :: rest => .ok (some b) ((s.setInput rest).setConsumed (s.consumed + 1))
  | [] =>
    match s.inputTail.block with
    | b :: rest => .ok (some b) (((s.setInput rest).setInputTail s.inputTail.after).setConsumed (s.consumed + 1))
    | [] => if s.inputTail = .silent then .error .never s else .ok none s

/-- `InByte()` (R12): `none` is EndOfStream; `Error` raises IoError and consumes nothing. -/
def inByte : Op (Option Byte) := do
  channel
  takeByte

/-- Append one byte to the output stream (R30). -/
def putByte (b : Byte) : Op Unit := fun s => .ok () (s.setOutput (s.output ++ [b]))

/-- `Emit(b)` (R12): a byte whose OutByte answers `Error` is not emitted. -/
def emit (b : Byte) : Op Unit := do
  channel
  putByte b

/-- `EmitAll(bytes)` (R12). -/
def emitAll : List Byte → Op Unit
  | [] => pure ()
  | b :: bs => do
    emit b
    emitAll bs

/-- `Flush()` (R12, R155): adds no bytes, can only fail or succeed. -/
def flush : Op Unit := channel

/-- The loop of `ReadLine` (R88) from the line read so far. The first argument bounds the InByte calls; a loop that has
used them all up never ends. -/
def readLineFrom : Nat → List Byte → Op (List Byte)
  | 0, _ => fun s => .error .never s
  | n + 1, buf => do
    let r ← inByte
    match r with
    | none => pure buf
    | some b => if endsLine b then pure buf else readLineFrom n (buf ++ [b])

/-- `ReadLine()` (R88). Each call of InByte that does not end the loop consumes a byte. So the bytes at hand and one block
of the rest are gone after so many calls: a terminator that has not come by then never comes, the end of the stream has
been reached, and with the oracle's answers used up no call fails any more. -/
def readLine : Op (List Byte) := fun s =>
  readLineFrom (s.input.length + s.inputTail.block.length + s.oracle.length + 1) [] s

/-! ### Fetch -/

/-- The Fetch phase (R81): the word at `pc`, or FetchRange. -/
def fetch (s : State) : Except RunFault Word :=
  if inMemory s.pc then .ok (s.mem.readWord s.pc.toNat) else .error (.fetchRange s.pc)

end Sys2Proof.Machine
end

