-- ==== Sys2Proof/Machine/Arith.lean ====
section
/-! DEFINITION. The ALU instructions (43_arithmetic.md): eleven binary operations over `binOp` (R110), two unary ones
over `unOp` (R111). -/

namespace Sys2Proof.Machine

/-- `BinOp(f)` of R110: the word at `sp` is the right operand, the word at `sp+1` the left one; then Advance. `none`
from `f` is DivideByZero, raised with both operands popped (R172). -/
def binOp (f : Word → Word → Option Word) : Op Unit := do
  let r ← popWord
  let l ← popWord
  match f l r with
  | none => raise .divideByZero
  | some v => do
    pushWord v
    advance

/-- `UnOp(f)` of R111, then Advance. -/
def unOp (f : Word → Word) : Op Unit := do
  let a ← popWord
  pushWord (f a)
  advance

/-- `Add` (R112). -/
def execAdd (s : State) : Host.Outcome State Fault Refusal := complete (binOp aluAdd) s

/-- `Sub` (R113). -/
def execSub (s : State) : Host.Outcome State Fault Refusal := complete (binOp aluSub) s

/-- `Mul` (R114). -/
def execMul (s : State) : Host.Outcome State Fault Refusal := complete (binOp aluMul) s

/-- `Div` (R115). -/
def execDiv (s : State) : Host.Outcome State Fault Refusal := complete (binOp aluDiv) s

/-- `Rem` (R116). -/
def execRem (s : State) : Host.Outcome State Fault Refusal := complete (binOp aluRem) s

/-- `And` (R117). -/
def execAnd (s : State) : Host.Outcome State Fault Refusal := complete (binOp aluAnd) s

/-- `Or` (R118). -/
def execOr (s : State) : Host.Outcome State Fault Refusal := complete (binOp aluOr) s

/-- `Xor` (R119). -/
def execXor (s : State) : Host.Outcome State Fault Refusal := complete (binOp aluXor) s

/-- `Shl` (R120). -/
def execShl (s : State) : Host.Outcome State Fault Refusal := complete (binOp aluShl) s

/-- `LogicalShr` (R121). -/
def execLogicalShr (s : State) : Host.Outcome State Fault Refusal := complete (binOp aluLogicalShr) s

/-- `ArithmeticShr` (R122). -/
def execArithmeticShr (s : State) : Host.Outcome State Fault Refusal := complete (binOp aluArithmeticShr) s

/-- `Negate` (R123). -/
def execNegate (s : State) : Host.Outcome State Fault Refusal := complete (unOp aluNegate) s

/-- `Not` (R124). -/
def execNot (s : State) : Host.Outcome State Fault Refusal := complete (unOp aluNot) s

end Sys2Proof.Machine
end

