-- ==== Sys2Proof/Machine/Flags.lean ====
section
/-! DEFINITION. The machine has no flags and no condition codes (10_state.md R26): a conditional branch compares stack
words at the branch. This file holds those comparisons, signed (44_control.md R130, R145, R146), left REL right (D13,
log 14). -/

namespace Sys2Proof.Machine

/-- BinaryIf.eq: `l = r` (R134). -/
def relEq (l r : Int) : Bool := decide (l = r)

/-- BinaryIf.ne: `l != r` (R135). -/
def relNe (l r : Int) : Bool := decide (l ≠ r)

/-- BinaryIf.lt: `l < r` (R136). -/
def relLt (l r : Int) : Bool := decide (l < r)

/-- BinaryIf.gt: `l > r` (R137). -/
def relGt (l r : Int) : Bool := decide (l > r)

/-- BinaryIf.le: `l <= r` (R138). -/
def relLe (l r : Int) : Bool := decide (l ≤ r)

/-- BinaryIf.ge: `l >= r` (R139). -/
def relGe (l r : Int) : Bool := decide (l ≥ r)

/-- UnaryIf.eqz: `v = 0` (R140). -/
def testEqz (v : Int) : Bool := decide (v = 0)

/-- UnaryIf.nez: `v != 0` (R141). -/
def testNez (v : Int) : Bool := decide (v ≠ 0)

/-- UnaryIf.ltz: `v < 0` (R142). -/
def testLtz (v : Int) : Bool := decide (v < 0)

/-- UnaryIf.gez: `v >= 0` (R143). -/
def testGez (v : Int) : Bool := decide (v ≥ 0)

end Sys2Proof.Machine
end

