-- ==== Sys2Proof/Machine/Control.lean ====
section
/-! DEFINITION. Control transfer (44_control.md): Call, Return, Goto, the six BinaryIf over `binaryIf` (R145), the four
UnaryIf over `unaryIf` (R146). A bad target is no fault of the transfer; the next fetch raises FetchRange (R130). -/

namespace Sys2Proof.Machine

/-- `Call off` (R131). -/
def execCall (off : Int) (s : State) : Host.Outcome State Fault Refusal :=
  complete (do
    push (s.pc + 1)
    jump (target s.pc off)) s

/-- `Return extra` (R132): the popped word is taken whole, unsigned, as the address. -/
def execReturn (extra : Nat) (s : State) : Host.Outcome State Fault Refusal :=
  complete (do
    let ra ← memRead s.sp
    putSp (returnSp s.sp extra)
    jump ra.toNat) s

/-- `Goto off` (R133). -/
def execGoto (off : Int) (s : State) : Host.Outcome State Fault Refusal := complete (jump (target s.pc off)) s

/-- `BinaryIf(REL, off)` of R145: peeks two words, never moves `sp`. -/
def binaryIf (rel : Int → Int → Bool) (off : Int) : Op Unit := do
  let sp ← getSp
  let r ← memRead sp
  let l ← memRead (sp + 1)
  let p ← getPc
  if rel (s32 l) (s32 r) then jump (target p off) else advance

/-- `UnaryIf(TEST, off)` of R146: peeks one word, never moves `sp`. -/
def unaryIf (test : Int → Bool) (off : Int) : Op Unit := do
  let sp ← getSp
  let v ← memRead sp
  let p ← getPc
  if test (s32 v) then jump (target p off) else advance

/-- `BinaryIf.eq off` (R134). -/
def execBinaryIfEq (off : Int) (s : State) : Host.Outcome State Fault Refusal := complete (binaryIf relEq off) s

/-- `BinaryIf.ne off` (R135). -/
def execBinaryIfNe (off : Int) (s : State) : Host.Outcome State Fault Refusal := complete (binaryIf relNe off) s

/-- `BinaryIf.lt off` (R136). -/
def execBinaryIfLt (off : Int) (s : State) : Host.Outcome State Fault Refusal := complete (binaryIf relLt off) s

/-- `BinaryIf.gt off` (R137). -/
def execBinaryIfGt (off : Int) (s : State) : Host.Outcome State Fault Refusal := complete (binaryIf relGt off) s

/-- `BinaryIf.le off` (R138). -/
def execBinaryIfLe (off : Int) (s : State) : Host.Outcome State Fault Refusal := complete (binaryIf relLe off) s

/-- `BinaryIf.ge off` (R139). -/
def execBinaryIfGe (off : Int) (s : State) : Host.Outcome State Fault Refusal := complete (binaryIf relGe off) s

/-- `UnaryIf.eqz off` (R140). -/
def execUnaryIfEqz (off : Int) (s : State) : Host.Outcome State Fault Refusal := complete (unaryIf testEqz off) s

/-- `UnaryIf.nez off` (R141). -/
def execUnaryIfNez (off : Int) (s : State) : Host.Outcome State Fault Refusal := complete (unaryIf testNez off) s

/-- `UnaryIf.ltz off` (R142). -/
def execUnaryIfLtz (off : Int) (s : State) : Host.Outcome State Fault Refusal := complete (unaryIf testLtz off) s

/-- `UnaryIf.gez off` (R143). -/
def execUnaryIfGez (off : Int) (s : State) : Host.Outcome State Fault Refusal := complete (unaryIf testGez off) s

end Sys2Proof.Machine
end

