-- ==== Sys2Proof/Machine/Misc.lean ====
section
/-! DEFINITION. Group 0x0 (41_miscellaneous.md): Exit, Swap, Nop, Input, Stinput, Debug, and the packed string of
Stinput. -/

namespace Sys2Proof.Machine

/-! ### Packed strings (R99, R38) -/

/-- A chunk (`CHUNK` bytes) as a word, the first character least significant (R99, C2). -/
def chunkWord (a b c : Byte) (flag : Nat) : Word :=
  BitVec.ofNat _ (a.toNat + 256 * b.toNat + 65536 * c.toNat + flag)

/-- Sentinel padding to a length that is a multiple of `CHUNK` (R99). -/
def padString (s : List Byte) : List Byte :=
  s ++ List.replicate ((Config.chunk - s.length % Config.chunk) % Config.chunk) Config.sentinel

/-- The words of a padded string, chunk 0 first; every chunk but the last carries the continuation flag (R99). -/
def packChunks : List Byte → List Word
  | a :: b :: c :: rest => chunkWord a b c (if rest = [] then 0 else Config.contFlag) :: packChunks rest
  | _ => []

/-- The words Stinput leaves on the stack for a string, from the new top of the stack upward: one zero word for the
empty string, else the packed chunks (R99, R174). -/
def stringWords (s : List Byte) : List Word := if s = [] then [0#32] else packChunks (padString s)

/-- The string Stinput keeps of a line: trimmed, then truncated to `max` bytes (R99, D17, log 18). -/
def lineString (max : Nat) (line : List Byte) : List Byte := (trim line).take max

/-! ### The meanings -/

/-- `Exit code` (R95): the run ends; `pc` stays (D22, log 23). -/
def execExit (code : Nat) (s : State) : Host.Outcome State Fault Refusal := complete (halt code) s

/-- `Swap from, to` (R96): both reads come before either write. -/
def execSwap (fromOff toOff : Int) (s : State) : Host.Outcome State Fault Refusal :=
  complete (do
    let x ← memRead (stackIndex s fromOff)
    let y ← memRead (stackIndex s toOff)
    memWrite (stackIndex s fromOff) y
    memWrite (stackIndex s toOff) x
    advance) s

/-- `Nop` (R97). -/
def execNop (s : State) : Host.Outcome State Fault Refusal := complete advance s

/-- `Input` (R98): read, trim, parse, push. -/
def execInput (s : State) : Host.Outcome State Fault Refusal :=
  complete (do
    let line ← readLine
    match parseInput (trim line) with
    | none => raise .parseError
    | some r => do
      pushWord r
      advance) s

/-- `Stinput max` (R99): the last chunk is pushed first. -/
def execStinput (max : Nat) (s : State) : Host.Outcome State Fault Refusal :=
  complete (do
    let line ← readLine
    pushWords (stringWords (lineString max line)).reverse
    advance) s

/-- `Debug` (R100): no architectural effect (D15, log 16). -/
def execDebug (s : State) : Host.Outcome State Fault Refusal := complete advance s

end Sys2Proof.Machine
end

