-- ==== Sys2Proof/Machine/Output.lean ====
section
/-! DEFINITION. The output instructions (45_output.md): Stprint, Print, Dump. None changes `sp` or Memory. -/

namespace Sys2Proof.Machine

/-- The bytes Stprint emits of one word: bytes 0, 1, 2, sentinels suppressed; byte 3 is never printed (R150, C9). -/
def printedBytes (w : Word) : List Byte :=
  ((List.range Config.chunk).map (byteOf w)).filter (fun b => decide (b ≠ Config.sentinel))

/-- The continuation flag alone says that more packed words follow (R150). -/
def continues (w : Word) : Bool := decide (w.toNat / Config.contFlag % 2 = 1)

/-- The walk of Stprint from index `i` (R150): a zero word ends the string and prints nothing; a word without the
continuation flag is the last one. The first argument is how many words of Memory lie from `i` to 1023. -/
def stprintWalk : Nat → Int → Op Unit
  | 0, _ => pure ()
  | n + 1, i => do
    let w ← memRead i
    if w = 0#32 then pure ()
    else do
      emitAll (printedBytes w)
      if continues w then stprintWalk n (i + 1) else pure ()

/-- How many words of Memory lie from index `i` to 1023; none for an index above (R150, R152). -/
def wordsFrom (i : Int) : Nat := (Config.memWords - i).toNat

/-- `Stprint off` (R150): flushes even when nothing was printed (R155). -/
def execStprint (off : Nat) (s : State) : Host.Outcome State Fault Refusal :=
  complete (do
    stprintWalk (wordsFrom (stackIndex s off)) (stackIndex s off)
    flush
    advance) s

/-- `Print off` (R151): the read comes before any output. -/
def execPrint (off : Int) (s : State) : Host.Outcome State Fault Refusal :=
  complete (do
    let v ← memRead (stackIndex s off)
    emitAll (formatPrint (radixOf off) v)
    emit newline
    flush
    advance) s

/-- The lines of Dump from relative address `rel`; the first argument is how many are left (R152). -/
def dumpLines (sp : Int) : Nat → Nat → Op Unit
  | 0, _ => pure ()
  | n + 1, rel => do
    let v ← memRead (sp + rel)
    emitAll (formatDump rel v)
    emit newline
    dumpLines sp n (rel + 1)

/-- `Dump` (R152): on an empty stack no channel operation at all (D27, log 27). -/
def execDump (s : State) : Host.Outcome State Fault Refusal :=
  complete (do
    if s.sp < Config.memWords then do
      dumpLines s.sp (wordsFrom s.sp) 0
      flush
      advance
    else advance) s

end Sys2Proof.Machine
end

