-- ==== Sys2Proof/Machine/Stack.lean ====
section
/-! DEFINITION. The stack instructions (42_stack.md): Pop, Dup, Push. -/

namespace Sys2Proof.Machine

/-- `Pop count` (R105): clamps, never faults, leaves Memory alone. -/
def execPop (count : Nat) (s : State) : Host.Outcome State Fault Refusal :=
  complete (do
    putSp (popSp s.sp count)
    advance) s

/-- `Dup off` (R106): the index is taken with the `sp` of before the push. -/
def execDup (off : Nat) (s : State) : Host.Outcome State Fault Refusal :=
  complete (do
    let v ← memRead (stackIndex s off)
    pushWord v
    advance) s

/-- `Push imm` (R107). -/
def execPush (imm : Int) (s : State) : Host.Outcome State Fault Refusal :=
  complete (do
    push imm
    advance) s

end Sys2Proof.Machine
end

