-- ==== Sys2Proof/Machine/Dispatch.lean ====
section
/-! DEFINITION. The Execute and Advance phases of a cycle (40_execution_cycle.md R80): one arm per instruction, each a
direct call of that instruction's meaning. -/

namespace Sys2Proof.Machine

def exec (i : Instr) (s : State) : Host.Outcome State Fault Refusal :=
  match i with
  | .exit code => Sys2Proof.Machine.execExit code s
  | .swap fromOff toOff => Sys2Proof.Machine.execSwap fromOff toOff s
  | .nop => Sys2Proof.Machine.execNop s
  | .input => Sys2Proof.Machine.execInput s
  | .stinput max => Sys2Proof.Machine.execStinput max s
  | .debug => Sys2Proof.Machine.execDebug s
  | .pop count => Sys2Proof.Machine.execPop count s
  | .add => Sys2Proof.Machine.execAdd s
  | .sub => Sys2Proof.Machine.execSub s
  | .mul => Sys2Proof.Machine.execMul s
  | .div => Sys2Proof.Machine.execDiv s
  | .rem => Sys2Proof.Machine.execRem s
  | .and => Sys2Proof.Machine.execAnd s
  | .or => Sys2Proof.Machine.execOr s
  | .xor => Sys2Proof.Machine.execXor s
  | .shl => Sys2Proof.Machine.execShl s
  | .logicalShr => Sys2Proof.Machine.execLogicalShr s
  | .arithmeticShr => Sys2Proof.Machine.execArithmeticShr s
  | .negate => Sys2Proof.Machine.execNegate s
  | .not => Sys2Proof.Machine.execNot s
  | .stprint off => Sys2Proof.Machine.execStprint off s
  | .call off => Sys2Proof.Machine.execCall off s
  | .ret extra => Sys2Proof.Machine.execReturn extra s
  | .goto off => Sys2Proof.Machine.execGoto off s
  | .binaryIfEq off => Sys2Proof.Machine.execBinaryIfEq off s
  | .binaryIfNe off => Sys2Proof.Machine.execBinaryIfNe off s
  | .binaryIfLt off => Sys2Proof.Machine.execBinaryIfLt off s
  | .binaryIfGt off => Sys2Proof.Machine.execBinaryIfGt off s
  | .binaryIfLe off => Sys2Proof.Machine.execBinaryIfLe off s
  | .binaryIfGe off => Sys2Proof.Machine.execBinaryIfGe off s
  | .unaryIfEqz off => Sys2Proof.Machine.execUnaryIfEqz off s
  | .unaryIfNez off => Sys2Proof.Machine.execUnaryIfNez off s
  | .unaryIfLtz off => Sys2Proof.Machine.execUnaryIfLtz off s
  | .unaryIfGez off => Sys2Proof.Machine.execUnaryIfGez off s
  | .dup off => Sys2Proof.Machine.execDup off s
  | .print off => Sys2Proof.Machine.execPrint off s
  | .dump => Sys2Proof.Machine.execDump s
  | .push imm => Sys2Proof.Machine.execPush imm s

end Sys2Proof.Machine
end

