-- ==== Sys2Proof/Machine/Step.lean ====
section
/-! DEFINITION. One cycle of the engine (40_execution_cycle.md R80): fetch (R81), decode (R82), execute and advance
(`exec`). -/

namespace Sys2Proof.Machine

/-- `Step()` of R80 in run state Running: the fault of the Fetch or Decode phase is taken before any state changes (R168,
R170 (c)). -/
def cycle (s : State) : Host.Outcome State Fault Refusal :=
  match fetch s with
  | .error f => .next (takeFault f s)
  | .ok w =>
    match decode w with
    | .error _ => .next (takeFault (.illegalInstruction s.pc w) s)
    | .ok i => exec i s

/-- One step. A cycle needs `rs = Running` (R80): before Start the step is refused, after the end of the run it answers
the run's outcome and nothing is fetched (R84; log 5). -/
def step (s : State) : Host.Outcome State Fault Refusal :=
  match s.rs with
  | .running => cycle s
  | .constructed => .refused .notStarted
  | .loaded => .refused .notStarted
  | .halted code => .fault (.runHalted code)
  | .faulted f => .fault (.runFaulted f)

/-- `s` with the instruction word `w` where the next cycle fetches, and Running, so that the next step runs it. It stands
for a load and a Start (log 6). A `pc` from which nothing can be fetched becomes 0. -/
def State.withFetchWord (s : State) (nbits w : Nat) : State :=
  let p : Int := if inMemory s.pc then s.pc else 0
  { s with pc := p, mem := s.mem.writeWord p.toNat (BitVec.ofNat _ (w % 2 ^ nbits)), rs := .running }

end Sys2Proof.Machine
end

