-- ==== Sys2Proof/Machine/Interface.lean ====
section
/-! DEFINITION. The host's operations outside the engine's cycle (10_state.md R27, 20_memory.md R47 to R50,
70_reset_and_hazards.md R187): the program file's bytes as words, Load, attaching the channels, Start and the Outcome. -/

namespace Sys2Proof.Machine

/-- The file's bytes in 4-byte little-endian words (R37); `none` for a trailing chunk of 1 to 3 bytes (R50). -/
def fileWords : List Byte → Option (List Word)
  | [] => some []
  | b0 :: b1 :: b2 :: b3 :: rest =>
    match fileWords rest with
    | some ws => some (wordOfBytes b0 b1 b2 b3 :: ws)
    | none => none
  | _ => none

/-- What the Load and Start interfaces answer. -/
inductive HostAnswer where
  /-- The operation was done. -/
  | ok
  /-- The load-time fault of R162, an answer and no run state. -/
  | badProgram
  /-- The operation is not available in this run state; nothing changed (93_implementation_defined.md S14; logs 24, 34). -/
  | refused
  deriving DecidableEq, Repr

/-- The program words behind the magic word, if the sequence is a program: magic word first, at most 1024 words after it
(R48). -/
def programWords : List Word → Option (List Word)
  | [] => none
  | w :: ws => if w = Config.magic ∧ ws.length ≤ Config.memWords then some ws else none

/-- `Load(P)` (R48): both checks come before the first write (R49); legal only in run state Constructed (R47). -/
def load (p : List Word) (s : State) : HostAnswer × State :=
  if s.rs = .constructed then
    match programWords p with
    | some ws => (.ok, (s.setMem (s.mem.writeWords 0 ws)).setRs .loaded)
    | none => (.badProgram, s)
  else (.refused, s)

/-- A program file presented to Load: a partial trailing word is BadProgram and nothing reaches the core (R50). -/
def loadFile (file : List Byte) (s : State) : HostAnswer × State :=
  match fileWords file with
  | some p => load p s
  | none => (.badProgram, s)

/-- The host attaches the channels (R187 (3)): the input stream, finite or not, by its first bytes and what follows them,
and the answers of the failure oracle (R29, D26; logs 7, 33). R187 places it between Load and Start, so it is legal only in
run state Loaded, and attached channels "stay attached for the life of the machine", so it is refused a second time. After
a terminal state the refusal is S14's; in Constructed and in Running before any attach, where the spec gives no answer, it
is the model's (DESIGN CHOICE, log 34). -/
def attach (input : List Byte) (tail : StreamTail) (oracle : List Bool) (s : State) : HostAnswer × State :=
  if s.rs = .loaded ∧ s.attached = false then
    (.ok, (((s.setInput input).setInputTail tail).setOracle oracle).setAttached true)
  else (.refused, s)

/-- `Start` (R84): legal only in run state Loaded; changes nothing but the run state. It does not ask whether
the channels have been attached (DESIGN CHOICE, log 34). -/
def start (s : State) : HostAnswer × State :=
  if s.rs = .loaded then (.ok, s.setRs .running) else (.refused, s)

/-- The Outcome interface (R27 (5)). -/
inductive RunOutcome where
  | halted (code : Nat)
  | faulted (fault : RunFault)
  deriving DecidableEq, Repr

/-- The outcome, once the run state is terminal (R27, R28). -/
def outcome (s : State) : Option RunOutcome :=
  match s.rs with
  | .halted c => some (.halted c)
  | .faulted f => some (.faulted f)
  | .constructed => none
  | .loaded => none
  | .running => none

/-- What the host can see (R34): the outcome, the output and the consumption of input. -/
def observe (s : State) : Option RunOutcome × List Byte × Nat := (outcome s, s.output, s.consumed)

/-- Construction, Load, attaching and Start in the order of R187; `none` when the load is not answered `Ok`. -/
def boot (p : List Word) (input : List Byte) (tail : StreamTail) (oracle : List Bool) : Option State :=
  match load p State.reset with
  | (.ok, s) => some (start (attach input tail oracle s).2).2
  | (.badProgram, _) => none
  | (.refused, _) => none

end Sys2Proof.Machine
end

