-- ==== Sys2Proof/Safety.lean ====
section
/-! DEFINITION. The terms claims use: the invariant of the state, what counts as a safe outcome of a run, what an
instruction may touch, and the frame of one instruction, read through `Memory.readByte`. -/

namespace Sys2Proof.Machine

/-! ### The invariant -/

/-- The run has not ended in a fault. After a fault the spec gives no value of Memory, `pc` or `sp` (R170, log 3), so
the invariant says nothing of them then but the form of the model's own data. -/
def State.unfaulted (s : State) : Bool :=
  match s.rs with
  | .faulted _ => false
  | .constructed => true
  | .loaded => true
  | .running => true
  | .halted _ => true

/-- `0 <= sp <= 1025` (R23). -/
def State.spInRange (s : State) : Prop := 0 ≤ s.sp ∧ s.sp ≤ 1025

/-- `pc` lies between the farthest target of a backward Call and the largest word a Return can take (R21, R131, R132). -/
def State.pcInRange (s : State) : Prop := -33554432 ≤ s.pc ∧ s.pc ≤ 4294967295

/-- A halt code is 0..255 (R28, R95). -/
def State.haltInRange (s : State) : Prop := ∀ c, s.rs = .halted c → c ≤ 255

/-- What every step keeps: Memory in canonical form inside the 1024 words, the halt code a byte, and, unless the run has
faulted, `sp` and `pc` in their ranges. -/
def State.Inv (s : State) : Prop :=
  s.mem.wf = true ∧ s.haltInRange ∧ (s.unfaulted = true → s.spInRange ∧ s.pcInRange)

/-! ### Safe runs -/

/-- "either returns a halt code in `0..255` or a specific fault kind" (R84): the run goes on, has halted with a byte, has
ended in a named fault, or waits for ever for input ("A run need not end"); it is never refused. -/
def SafeOutcome : Host.Outcome State Fault Refusal → Prop
  | .next _ => True
  | .fault (.runHalted c) => c ≤ 255
  | .fault (.runFaulted _) => True
  | .fault .neverCompletes => True
  | .refused _ => False

end Sys2Proof.Machine

namespace Sys2Proof

/-! ### Classes of instructions -/

/-- The instructions that set `pc` themselves or end the run (R83): all others advance. -/
def Instr.setsPc : Instr → Bool
  | .exit _ | .call _ | .ret _ | .goto _ => true
  | .binaryIfEq _ | .binaryIfNe _ | .binaryIfLt _ | .binaryIfGt _ | .binaryIfLe _ | .binaryIfGe _ => true
  | .unaryIfEqz _ | .unaryIfNez _ | .unaryIfLtz _ | .unaryIfGez _ => true
  | .swap _ _ | .nop | .input | .stinput _ | .debug | .pop _ => false
  | .add | .sub | .mul | .div | .rem | .and | .or | .xor | .shl | .logicalShr | .arithmeticShr => false
  | .negate | .not | .stprint _ | .dup _ | .print _ | .dump | .push _ => false

/-- The instructions that never write `sp` (R25). -/
def Instr.keepsSp : Instr → Bool
  | .exit _ | .swap _ _ | .nop | .debug | .stprint _ | .goto _ | .print _ | .dump => true
  | .binaryIfEq _ | .binaryIfNe _ | .binaryIfLt _ | .binaryIfGt _ | .binaryIfLe _ | .binaryIfGe _ => true
  | .unaryIfEqz _ | .unaryIfNez _ | .unaryIfLtz _ | .unaryIfGez _ => true
  | .input | .stinput _ | .pop _ | .call _ | .ret _ | .dup _ | .push _ => false
  | .add | .sub | .mul | .div | .rem | .and | .or | .xor | .shl | .logicalShr | .arithmeticShr => false
  | .negate | .not => false

/-- The instructions that write no word of Memory (R44). -/
def Instr.keepsMemory : Instr → Bool
  | .exit _ | .nop | .debug | .pop _ | .stprint _ | .ret _ | .goto _ | .print _ | .dump => true
  | .binaryIfEq _ | .binaryIfNe _ | .binaryIfLt _ | .binaryIfGt _ | .binaryIfLe _ | .binaryIfGe _ => true
  | .unaryIfEqz _ | .unaryIfNez _ | .unaryIfLtz _ | .unaryIfGez _ => true
  | .swap _ _ | .input | .stinput _ | .call _ | .dup _ | .push _ => false
  | .add | .sub | .mul | .div | .rem | .and | .or | .xor | .shl | .logicalShr | .arithmeticShr => false
  | .negate | .not => false

/-- The consumers of the input stream (R29). -/
def Instr.readsInput : Instr → Bool
  | .input | .stinput _ => true
  | .exit _ | .swap _ _ | .nop | .debug | .pop _ | .stprint _ | .call _ | .ret _ | .goto _ => false
  | .binaryIfEq _ | .binaryIfNe _ | .binaryIfLt _ | .binaryIfGt _ | .binaryIfLe _ | .binaryIfGe _ => false
  | .unaryIfEqz _ | .unaryIfNez _ | .unaryIfLtz _ | .unaryIfGez _ => false
  | .add | .sub | .mul | .div | .rem | .and | .or | .xor | .shl | .logicalShr | .arithmeticShr => false
  | .negate | .not | .dup _ | .print _ | .dump | .push _ => false

/-- The producers of output (R30). -/
def Instr.writesOutput : Instr → Bool
  | .stprint _ | .print _ | .dump => true
  | .exit _ | .swap _ _ | .nop | .input | .stinput _ | .debug | .pop _ | .call _ | .ret _ | .goto _ => false
  | .binaryIfEq _ | .binaryIfNe _ | .binaryIfLt _ | .binaryIfGt _ | .binaryIfLe _ | .binaryIfGe _ => false
  | .unaryIfEqz _ | .unaryIfNez _ | .unaryIfLtz _ | .unaryIfGez _ => false
  | .add | .sub | .mul | .div | .rem | .and | .or | .xor | .shl | .logicalShr | .arithmeticShr => false
  | .negate | .not | .dup _ | .push _ => false

/-- The eleven instructions of group 0x2 (R59). -/
def Instr.isBinary : Instr → Bool
  | .add | .sub | .mul | .div | .rem | .and | .or | .xor | .shl | .logicalShr | .arithmeticShr => true
  | .exit _ | .swap _ _ | .nop | .input | .stinput _ | .debug | .pop _ | .negate | .not | .stprint _ | .call _ => false
  | .ret _ | .goto _ | .dup _ | .print _ | .dump | .push _ => false
  | .binaryIfEq _ | .binaryIfNe _ | .binaryIfLt _ | .binaryIfGt _ | .binaryIfLe _ | .binaryIfGe _ => false
  | .unaryIfEqz _ | .unaryIfNez _ | .unaryIfLtz _ | .unaryIfGez _ => false

/-- The six comparisons of group 0x8 (R59). -/
def Instr.isBinaryIf : Instr → Bool
  | .binaryIfEq _ | .binaryIfNe _ | .binaryIfLt _ | .binaryIfGt _ | .binaryIfLe _ | .binaryIfGe _ => true
  | .exit _ | .swap _ _ | .nop | .input | .stinput _ | .debug | .pop _ | .negate | .not | .stprint _ | .call _ => false
  | .add | .sub | .mul | .div | .rem | .and | .or | .xor | .shl | .logicalShr | .arithmeticShr => false
  | .ret _ | .goto _ | .dup _ | .print _ | .dump | .push _ => false
  | .unaryIfEqz _ | .unaryIfNez _ | .unaryIfLtz _ | .unaryIfGez _ => false

/-- The instructions that read the top word and nothing above it: the two of group 0x3, the four of group 0x9, and
Return (R44, R59). -/
def Instr.readsTopOnly : Instr → Bool
  | .negate | .not | .ret _ | .unaryIfEqz _ | .unaryIfNez _ | .unaryIfLtz _ | .unaryIfGez _ => true
  | .exit _ | .swap _ _ | .nop | .input | .stinput _ | .debug | .pop _ | .stprint _ | .call _ | .goto _ => false
  | .add | .sub | .mul | .div | .rem | .and | .or | .xor | .shl | .logicalShr | .arithmeticShr => false
  | .binaryIfEq _ | .binaryIfNe _ | .binaryIfLt _ | .binaryIfGt _ | .binaryIfLe _ | .binaryIfGe _ => false
  | .dup _ | .print _ | .dump | .push _ => false

/-- The run-time faults an instruction's Execute phase can raise (R161, the "raised by" column, and each instruction's
own rule). -/
def Instr.mayRaise : Instr → List Machine.FaultKind
  | .exit _ | .nop | .debug | .pop _ | .goto _ => []
  | .swap _ _ => [.memoryRange]
  | .input => [.ioError, .parseError, .stackOverflow, .memoryRange]
  | .stinput _ => [.ioError, .stackOverflow, .memoryRange]
  | .add | .sub | .mul | .and | .or | .xor | .shl | .logicalShr | .arithmeticShr | .negate | .not => [.memoryRange]
  | .div | .rem => [.memoryRange, .divideByZero]
  | .stprint _ | .dump => [.ioError]
  | .call _ | .push _ | .dup _ => [.stackOverflow, .memoryRange]
  | .ret _ => [.memoryRange]
  | .binaryIfEq _ | .binaryIfNe _ | .binaryIfLt _ | .binaryIfGt _ | .binaryIfLe _ | .binaryIfGe _ => [.memoryRange]
  | .unaryIfEqz _ | .unaryIfNez _ | .unaryIfLtz _ | .unaryIfGez _ => [.memoryRange]
  | .print _ => [.memoryRange, .ioError]

end Sys2Proof

namespace Sys2Proof.Machine

/-! ### Frames -/

/-- `Mem[i]` of a state (R10). -/
def State.word (s : State) (i : Int) : Word := s.mem.readWord i.toNat

/-- Cell `a` is one of the four of word `i`. -/
def inWord (i : Int) (a : Nat) : Prop := 4 * i ≤ (a : Int) ∧ (a : Int) < 4 * i + 4

/-- Every byte of Memory reads as before. -/
def SameMemory (s t : State) : Prop := ∀ a, t.mem.readByte a = s.mem.readByte a

/-- Word `i` holds `v`, and every byte of Memory outside it reads as before. -/
def StoresWord (s t : State) (i : Int) (v : Word) : Prop :=
  t.word i = v ∧ ∀ a, ¬ inWord i a → t.mem.readByte a = s.mem.readByte a

/-- The input stream and its position are untouched, and the channels as attached as before. -/
def SameInput (s t : State) : Prop :=
  t.input = s.input ∧ t.inputTail = s.inputTail ∧ t.consumed = s.consumed ∧ t.attached = s.attached

/-- The input stream, its position, the output stream and the oracle are untouched: no channel operation was made. -/
def SameChannels (s t : State) : Prop := SameInput s t ∧ t.output = s.output ∧ t.oracle = s.oracle

/-- Both ALU operands are on the stack: `Mem[sp]` and `Mem[sp+1]` exist (R108, `d >= 2`). -/
def State.hasTwo (s : State) : Prop := 0 ≤ s.sp ∧ s.sp ≤ 1022

/-- The stack is not empty (R108, `d >= 1`). -/
def State.hasOne (s : State) : Prop := 0 ≤ s.sp ∧ s.sp ≤ 1023

/-- One more word can be pushed (R86). -/
def State.hasRoom (s : State) : Prop := 1 ≤ s.sp ∧ s.sp ≤ 1024

/-- A completed binary ALU operation (R110): `v` replaces the two operands, everything else is untouched. -/
def BinaryResult (i : Instr) (s : State) (v : Word) : Prop :=
  ∃ t, exec i s = .next t ∧ StoresWord s t (s.sp + 1) v ∧ t.sp = s.sp + 1 ∧ t.pc = s.pc + 1 ∧ t.rs = s.rs ∧
    SameChannels s t

/-- A completed unary ALU operation (R111): `v` replaces the operand, everything else is untouched. -/
def UnaryResult (i : Instr) (s : State) (v : Word) : Prop :=
  ∃ t, exec i s = .next t ∧ StoresWord s t s.sp v ∧ t.sp = s.sp ∧ t.pc = s.pc + 1 ∧ t.rs = s.rs ∧ SameChannels s t

/-- A completed instruction whose one stack effect is to push `v` (R86), leaving `pc` at `p`. -/
def PushResult (i : Instr) (s : State) (v : Word) (p : Int) : Prop :=
  ∃ t, exec i s = .next t ∧ StoresWord s t (s.sp - 1) v ∧ t.sp = s.sp - 1 ∧ t.pc = p ∧ t.rs = s.rs ∧ SameChannels s t

/-- An instruction that ends the run in fault `f` without a channel operation. Nothing is said of Memory, `pc` and `sp`
(R170, log 3). -/
def FaultsWith (i : Instr) (s : State) (f : RunFault) : Prop :=
  ∃ t, exec i s = .next t ∧ t.rs = .faulted f ∧ SameChannels s t

/-- The same for a fault whose rule says that nothing has been written. -/
def FaultsUnwritten (i : Instr) (s : State) (f : RunFault) : Prop :=
  ∃ t, exec i s = .next t ∧ t.rs = .faulted f ∧ SameMemory s t ∧ SameChannels s t

/-- No channel operation still to come fails. -/
def State.noFailure (s : State) : Prop := ∀ b ∈ s.oracle, b = false

/-- What the input stream answers to one request that does not fail (R12, S13). -/
inductive Incoming where
  | byte (b : Byte)
  | endOfStream
  /-- No answer, for ever. -/
  | nothing
  deriving DecidableEq, Repr

/-- The answer `n` requests from now, of a stream with the given bytes at hand and the given rest. -/
def incoming : Nat → List Byte → StreamTail → Incoming
  | 0, b :: _, _ => .byte b
  | n + 1, _ :: bs, tail => incoming n bs tail
  | 0, [], tail =>
    match tail.block with
    | b :: _ => .byte b
    | [] => if tail = .silent then .nothing else .endOfStream
  | n + 1, [], tail =>
    match tail.block with
    | _ :: bs => incoming n bs tail.after
    | [] => if tail = .silent then .nothing else .endOfStream

/-- What the input stream answers to the request `n` requests from now: the whole of what it will deliver (R29). -/
def State.incoming (s : State) (n : Nat) : Incoming := Sys2Proof.Machine.incoming n s.input s.inputTail

/-- The next `k` bytes have been consumed: the position has moved by `k` and the stream delivers what it would have
delivered `k` requests later. Bytes at hand are taken from the front. -/
def Consumes (s t : State) (k : Nat) : Prop :=
  t.consumed = s.consumed + k ∧ (∀ n, t.incoming n = s.incoming (n + k)) ∧
    (k ≤ s.input.length → t.input = s.input.drop k ∧ t.inputTail = s.inputTail)

/-- The bytes at hand and one block of the rest: if no terminator is among them, none ever comes. -/
def State.ahead (s : State) : List Byte := s.input ++ s.inputTail.block

/-- The line has a terminator. -/
def State.terminated (s : State) : Bool := s.ahead.any endsLine

/-- The line ends, at a terminator or at the end of the stream (R88). -/
def State.lineEnds (s : State) : Bool := s.terminated || decide (s.inputTail = .ends)

/-- The line ReadLine returns if it ends: the bytes before the first newline or null byte, or all of them (R88). -/
def State.line (s : State) : List Byte := s.ahead.takeWhile (fun b => !endsLine b)

/-- The next line has been taken off the input stream, with its terminator if there is one, by `line.length + 1` InByte
operations, and nothing was emitted (R88). -/
def TakesLine (s t : State) : Prop :=
  Consumes s t (s.line.length + if s.terminated then 1 else 0) ∧ t.output = s.output ∧
    t.oracle = s.oracle.drop (s.line.length + 1)

/-- Reading a line never completes: the line never ends, and an InByte that would fail is never reached, because one
before it is never answered (R84, S13). -/
def State.lineNever (s : State) : Prop :=
  s.lineEnds = false ∧ ∀ k, s.oracle[k]? = some true → ∃ j, j < k ∧ s.incoming j = .nothing

/-- The engine waits for ever: the instruction at `pc` reads a line and that never completes (R84). -/
def State.waitsForEver (s : State) : Prop :=
  0 ≤ s.pc ∧ s.pc ≤ 1023 ∧ (∃ i : Instr, decode (s.word s.pc) = .ok i ∧ i.readsInput = true) ∧ s.lineNever

/-- What a list of words prints as a packed string (R150): nothing from a zero word on; of each word `W` the bytes
`W[7:0]`, `W[15:8]`, `W[23:16]` that are not 0x01, a zero byte like any other; nothing after a word whose bit 24 is 0. -/
def packedText : List Word → List Byte
  | [] => []
  | w :: ws =>
    if w = 0#32 then []
    else [w.extractLsb' 0 8, w.extractLsb' 8 8, w.extractLsb' 16 8].filter (fun b => decide (b ≠ 0x01#8)) ++
      if w.getLsbD 24 then packedText ws else []

/-- The value of a digit `0`-`9`, `a`-`f` (R153). -/
def digitOf (b : Byte) : Option Nat :=
  if 0x30 ≤ b.toNat ∧ b.toNat ≤ 0x39 then some (b.toNat - 0x30)
  else if 0x61 ≤ b.toNat ∧ b.toNat ≤ 0x66 then some (b.toNat - 0x61 + 10)
  else none

/-- The text is made of digits of the base, letters in lower case, and its value is `n`. -/
def Spells (base : Nat) (text : List Byte) (n : Nat) : Prop :=
  (∀ b ∈ text, ∃ v, digitOf b = some v ∧ v < base) ∧
    text.foldl (fun acc b => acc * base + (digitOf b).getD 0) 0 = n

/-- The same without leading zeros, zero being the one digit `0` (R153). -/
def SpellsPlain (base : Nat) (text : List Byte) (n : Nat) : Prop :=
  Spells base text n ∧ text ≠ [] ∧ (text.head? = some 0x30#8 → text = [0x30#8])

/-- The `n` words of Memory from index `i` upward. -/
def State.wordsUp (s : State) (i : Int) (n : Nat) : List Word := (List.range n).map (fun k => s.word (i + k))

/-- The text of Dump: one line for each of the `n` words from `sp` upward (R152). -/
def State.dumpText (s : State) (n : Nat) : List Byte :=
  (List.range n).flatMap (fun k => formatDump k (s.word (s.sp + k)) ++ [newline])

end Sys2Proof.Machine
end

