-- ==== Sys2Proof/Certificates/Slice0/Obligations.lean ====
section
/-! DEFINITION. The statements about the model. Each docstring names the rules of spec/ it formalises, or, where a clause
rests on a decision of the spec's own (D<n>) or on a choice of the model's, says so with its log entry. -/

open Sys2Proof Sys2Proof.Machine

/-! ### The codec -/

/-- R65 with R58: decoding the canonical word of an instruction gives the instruction back, for every operand value the
encoding admits. -/
def Obligations.DecodeOfEncodeIsIdentity : Prop :=
  ∀ i : Instr, i.wellFormed = true → decode (encode i) = .ok i

/-- R58: every decoded operand is in the range the table gives. -/
def Obligations.DecodedInstructionsAreWellFormed : Prop :=
  ∀ (w : Word) (i : Instr), decode w = .ok i → i.wellFormed = true

/-- R60: the decoder, which dispatches on groups, agrees with the mask-and-match table of 38 rows: a decoded word lies in
exactly the one row of its instruction, a rejected word in none. The rows follow the spec's own pairing of sub-opcodes and
operations (D9, log 10) and its own reading of comparison codes 6 and 7 as illegal (D8, log 9). -/
def Obligations.DecodeAgreesWithOpcodeTable : Prop :=
  opcodeTable.length = 38 ∧
    ∀ w : Word, (opcodeTable.filter (fun r => r.holds w)).map (fun r => r.mnemonic) =
      match decode w with
      | .ok i => [i.mnemonic]
      | .error _ => []

/-- R62 (a) to (e), each rejection by its own name; (e) is the spec's own choice (D8, log 9). -/
def Obligations.IllegalWordsAreRejectedByName : Prop :=
  ∀ w : Word,
    (decode w = .error .unusedGroup ↔ bits w 31 28 = 0xA ∨ bits w 31 28 = 0xB) ∧
    (decode w = .error .miscSub ↔
      bits w 31 28 = 0x0 ∧ bits w 27 24 ∈ [0x3, 0x6, 0x7, 0x8, 0x9, 0xA, 0xB, 0xC, 0xD, 0xE]) ∧
    (decode w = .error .binarySub ↔ bits w 31 28 = 0x2 ∧ bits w 27 24 ∈ [0xA, 0xC, 0xD, 0xE, 0xF]) ∧
    (decode w = .error .unarySub ↔ bits w 31 28 = 0x3 ∧ 0x2 ≤ bits w 27 24) ∧
    (decode w = .error .comparison ↔ bits w 31 28 = 0x8 ∧ (bits w 27 25 = 6 ∨ bits w 27 25 = 7)) ∧
    decode w ≠ .error .notAWord

/-- R63 (D7, log 9): an ignored bit may hold any value and changes neither the instruction nor its legality; and no other
bit is dropped: the canonical word keeps every opcode and operand bit of the decoded word and clears the rest. -/
def Obligations.ExactlyTheIgnoredBitsAreIgnored : Prop :=
  ∀ (w : Word) (i : Instr), decode w = .ok i →
    encode i = w &&& (i.opcodeMask ||| i.operandMask) ∧
    ∀ w' : Word, w' &&& (i.opcodeMask ||| i.operandMask) = w &&& (i.opcodeMask ||| i.operandMask) →
      decode w' = .ok i

/-- Words written out from the encodings of R57, R58 and R60 decode to the instructions they stand for. That 0x2B000000 is
ArithmeticShr and 0x31000000 Not is the spec's own pairing (D9, log 10). -/
def Obligations.SampleWordsDecode : Prop :=
  decode 0x00000005#32 = .ok (.exit 5) ∧ decode 0x01FFC004#32 = .ok (.swap (-4) 4) ∧
    decode 0x0500000A#32 = .ok (.stinput 10) ∧ decode 0x10000004#32 = .ok (.pop 4) ∧
    decode 0x2B000000#32 = .ok .arithmeticShr ∧ decode 0x31000000#32 = .ok .not ∧
    decode 0x4FFFFFFF#32 = .ok (.stprint 268435455) ∧ decode 0x53FFFFFF#32 = .ok (.call (-1)) ∧
    decode 0x60000008#32 = .ok (.ret 8) ∧ decode 0x73FFFFFC#32 = .ok (.goto (-1)) ∧
    decode 0x8BFFFFFC#32 = .ok (.binaryIfGe (-1)) ∧ decode 0x92FFFFFD#32 = .ok (.unaryIfNez (-3)) ∧
    decode 0xC0000004#32 = .ok (.dup 4) ∧ decode 0xDFFFFFFC#32 = .ok (.print (-4)) ∧
    decode 0xE0000000#32 = .ok .dump ∧ decode 0xF8000000#32 = .ok (.push (-134217728))

/-! ### Reset, load, start -/

/-- R186 and the table of R32: what construction leaves. The run state's name and the streams' start are the spec's own
(D1, D26). -/
def Obligations.ResetLeavesAnEmptyMachine : Prop :=
  State.reset.pc = 0 ∧ State.reset.sp = 1024 ∧ State.reset.rs = .constructed ∧ State.reset.consumed = 0 ∧
    State.reset.output = [] ∧ ∀ i : Nat, i < 1024 → State.reset.word i = 0#32

/-- R48: Load in run state Constructed. A sequence whose first word is the magic word, with at most 1024 words after it,
is copied behind it to `Mem[0..]`, and `pc`, `sp`, the streams and the rest of Memory are unchanged; any other sequence
is answered BadProgram with nothing changed. For a program that is too long the last is the spec's own extension (R49,
D23, log 24). -/
def Obligations.LoadCopiesTheProgram : Prop :=
  ∀ (p : List Word) (s : State), s.rs = .constructed → s.mem.wf = true →
    (p.head? = some 0xDEADBEEF#32 → p.length ≤ 1025 →
      ∃ t, load p s = (.ok, t) ∧ t.rs = .loaded ∧ t.pc = s.pc ∧ t.sp = s.sp ∧ SameChannels s t ∧
        (∀ (k : Nat) (w : Word), p[k + 1]? = some w → t.word k = w) ∧
        ∀ a : Nat, 4 * p.length ≤ a + 4 → t.mem.readByte a = s.mem.readByte a) ∧
    (¬ (p.head? = some 0xDEADBEEF#32 ∧ p.length ≤ 1025) → load p s = (.badProgram, s))

/-- R47, R84, R187 and S14: Load is refused outside Constructed, Start outside Loaded, attaching the channels outside
Loaded and a second time; attaching changes the channels alone, and Start changes the run state alone. The refusals are the
spec's own (D1, D23, log 24), but for that of a first attach in Constructed and in Running, which is the model's choice, as
is a Start without an attach (log 34). -/
def Obligations.HostOperationsNeedTheirRunState : Prop :=
  ∀ (p : List Word) (input : List Byte) (tail : StreamTail) (oracle : List Bool) (s : State),
    (s.rs ≠ .constructed → load p s = (.refused, s)) ∧
    (s.rs ≠ .loaded ∨ s.attached = true → attach input tail oracle s = (.refused, s)) ∧
    (s.rs = .loaded → s.attached = false → attach input tail oracle s =
      (.ok, { s with input := input, inputTail := tail, oracle := oracle, attached := true })) ∧
    (s.rs ≠ .loaded → start s = (.refused, s)) ∧
    (s.rs = .loaded → start s = (.ok, { s with rs := .running }))

/-- R37 and R50 (D23, log 24): a file of whole 4-byte chunks becomes little-endian words; a trailing chunk of 1 to 3
bytes is BadProgram and nothing reaches the core. -/
def Obligations.FileBytesMakeLittleEndianWords : Prop :=
  ∀ bs : List Byte,
    (bs.length % 4 = 0 → ∃ ws, fileWords bs = some ws ∧ 4 * ws.length = bs.length ∧
      ∀ (k j : Nat) (w : Word), ws[k]? = some w → j < 4 → bs[4 * k + j]? = some (byteOf w j)) ∧
    (bs.length % 4 ≠ 0 → ∀ s : State, loadFile bs s = (.badProgram, s))

/-! ### The cycle -/

/-- R80: when the word at `pc` decodes to `i`, a step of the running engine is `exec i`, which holds the Execute and the
Advance phase; `step` adds nothing around it. -/
def Obligations.StepRunsTheDecodedInstruction : Prop :=
  ∀ (s : State) (i : Instr), s.rs = .running → 0 ≤ s.pc → s.pc ≤ 1023 → decode (s.word s.pc) = .ok i →
    step s = exec i s

/-- R81: the fetch reads `Mem[pc]`, whatever Memory holds, and for `pc` outside 0..1023 raises FetchRange(pc) with
nothing read and nothing changed but the run state. -/
def Obligations.FetchReadsMemoryOrFaults : Prop :=
  ∀ s : State,
    (0 ≤ s.pc → s.pc ≤ 1023 → fetch s = .ok (s.word s.pc)) ∧
    ((s.pc < 0 ∨ 1023 < s.pc) → s.rs = .running → step s = .next { s with rs := .faulted (.fetchRange s.pc) })

/-- R82: a fetched word that is no instruction raises IllegalInstruction(W) before any state changes. That the fault also
records `pc` is the spec's own choice (D5, log 26). -/
def Obligations.IllegalWordFaultsBeforeAnyChange : Prop :=
  ∀ (s : State) (e : DecodeError), s.rs = .running → 0 ≤ s.pc → s.pc ≤ 1023 → decode (s.word s.pc) = .error e →
    step s = .next { s with rs := .faulted (.illegalInstruction s.pc (s.word s.pc)) }

/-- R198, "every word either executes by its rule or faults": every step of the running engine answers a next state, but
for an Input or Stinput whose line never ends, which never completes (R84, S13). How the model says that is its own choice
(log 33). -/
def Obligations.EveryRunningStepAnswersNext : Prop :=
  ∀ s : State, s.rs = .running →
    (¬ s.waitsForEver → ∃ t, step s = .next t) ∧ (s.waitsForEver → step s = .fault .neverCompletes)

/-- R28 and R84: only a running engine steps; its run state then stays Running, or becomes Halted(code) by a fetched Exit
with that code, 0..255, or becomes Faulted. The names of the run states are the spec's own (D1). After the end the
model's step answers the outcome of R27, before Start it is refused (log 5). -/
def Obligations.RunStateChangesOnlyByExitOrFault : Prop :=
  (∀ s t : State, step s = .next t →
    s.rs = .running ∧
      (t.rs = .running ∨
        (∃ c, t.rs = .halted c ∧ c ≤ 255 ∧ 0 ≤ s.pc ∧ s.pc ≤ 1023 ∧ decode (s.word s.pc) = .ok (.exit c)) ∨
        ∃ f, t.rs = .faulted f)) ∧
  ∀ s : State,
    (∀ c, s.rs = .halted c → step s = .fault (.runHalted c)) ∧
    (∀ f, s.rs = .faulted f → step s = .fault (.runFaulted f)) ∧
    (s.rs = .constructed ∨ s.rs = .loaded → step s = .refused .notStarted)

/-- R83: an instruction that is no Exit, Goto, Call, Return, BinaryIf or UnaryIf and that completes advances `pc` by
exactly one. -/
def Obligations.PlainInstructionsAdvanceByOne : Prop :=
  ∀ (i : Instr) (s t : State), i.setsPc = false → s.rs = .running → exec i s = .next t → t.rs = .running →
    t.pc = s.pc + 1

/-! ### Invariants and the outcome of a run -/

/-- Every step keeps the invariant: Memory canonical and inside its 1024 words, halt codes 0..255 (R28), and, while the
run has not faulted, `0 <= sp <= 1025` (R23) and `pc` between the farthest targets (R21, R131, R132). That `sp` reaches
1025 and `pc` is not truncated are the spec's own decisions (D21, D2; logs 22, 1). -/
def Obligations.StepKeepsTheInvariant : Prop :=
  ∀ s t : State, s.Inv → step s = .next t → t.Inv

/-- The invariant holds after reset. -/
def Obligations.ResetSatisfiesTheInvariant : Prop := State.reset.Inv

/-- The invariant holds in every state in which a run starts, and that state is Running with `pc = 0`, `sp = 1024` and the
channels attached (R84, R187). -/
def Obligations.BootedMachineSatisfiesTheInvariant : Prop :=
  ∀ (p : List Word) (input : List Byte) (tail : StreamTail) (oracle : List Bool) (s : State),
    boot p input tail oracle = some s →
    s.Inv ∧ s.rs = .running ∧ s.pc = 0 ∧ s.sp = 1024 ∧ s.attached = true

/-- R84: "For all valid programs, `load` followed by `run` either returns a halt code in `0..255` or a specific fault
kind": whatever the program, the input and the failures of the channels, after any number of steps the run goes on or
has one of those outcomes, or it waits for ever for input. That an ended run answers its outcome is the model's own choice
(log 5), and so is the answer of a run that waits for ever (log 33). -/
def Obligations.EveryRunHasASafeOutcome : Prop :=
  ∀ (p : List Word) (input : List Byte) (tail : StreamTail) (oracle : List Bool) (s : State) (n : Nat),
    boot p input tail oracle = some s → SafeOutcome (Host.Core.run Sys2Proof.core n s)

/-- A canonical Memory is determined by what its bytes read as, so equal memories are equal data (the model's form of
R16, log 2). -/
def Obligations.CanonicalMemoryIsUnique : Prop :=
  ∀ m m' : Memory, m.wf = true → m'.wf = true → (∀ a, m.readByte a = m'.readByte a) → m = m'

/-! ### What instructions may touch -/

/-- R25 and R44: Exit, Swap, Nop, Debug, Stprint, Goto, BinaryIf, UnaryIf, Print and Dump never write `sp`; Exit, Nop,
Debug, Pop, Stprint, Return, Goto, BinaryIf, UnaryIf, Print and Dump write no byte of Memory. No instruction, faulting or not, detaches or reattaches the channels (R187; the
field is the model's, log 34). -/
def Obligations.InstructionsKeepWhatTheyDoNotWrite : Prop :=
  ∀ (i : Instr) (s t : State), exec i s = .next t →
    t.attached = s.attached ∧
      (t.unfaulted = true → (i.keepsSp = true → t.sp = s.sp) ∧ (i.keepsMemory = true → SameMemory s t))

/-- R30 and R170 (a): the output only grows, also in an instruction that faults, and only Stprint, Print and Dump add to
it. -/
def Obligations.OutputOnlyGrowsByOutputInstructions : Prop :=
  ∀ (i : Instr) (s t : State), exec i s = .next t →
    (∃ bs, t.output = s.output ++ bs) ∧ (i.writesOutput = false → t.output = s.output)

/-- R29 and R170 (b): input is consumed strictly in order, also in an instruction that faults, only by Input and Stinput,
and `consumed` counts it, of a stream finite or not. What the stream holds is the environment's (D26; logs 7, 33). -/
def Obligations.InputIsConsumedInOrderByReaders : Prop :=
  ∀ (i : Instr) (s t : State), exec i s = .next t → ∃ k, Consumes s t k ∧ (i.readsInput = false → k = 0)

/-- R29 and R34: what the input stream holds cannot influence any instruction but Input and Stinput. -/
def Obligations.InputIsInvisibleToOtherInstructions : Prop :=
  ∀ (i : Instr) (s t : State) (bs : List Byte) (tail : StreamTail) (n : Nat), i.readsInput = false →
    exec i s = .next t →
    ∃ u, exec i { s with input := bs, inputTail := tail, consumed := n } = .next u ∧ u.rs = t.rs ∧
      u.output = t.output ∧ (t.unfaulted = true → u = { t with input := bs, inputTail := tail, consumed := n })

/-- R161: the Execute phase of an instruction raises only the kinds its rule lists and records the instruction's own
index. MemoryRange and the recorded info are the spec's own (D3, D5; logs 4, 26). -/
def Obligations.InstructionsRaiseOnlyTheirFaults : Prop :=
  ∀ (i : Instr) (s t : State) (f : RunFault), s.rs = .running → s.spInRange → exec i s = .next t →
    t.rs = .faulted f → f.kind ∈ i.mayRaise ∧ f.pc = s.pc

/-! ### Primitives -/

/-- R86: the Push primitive in its three cases, full stack, room, and `sp = 1025`. MemoryRange and the recorded info are
the spec's own (D3, D5; logs 4, 26), and that Memory is as before in the third case is the sequential reading of the
pseudocode (R170, log 3). -/
def Obligations.PushPrimitiveChecksThenWrites : Prop :=
  ∀ (v : Int) (s : State), s.mem.wf = true →
    (s.sp ≤ 0 → push v s = .error (.fault (.stackOverflow s.pc)) s) ∧
    (1 ≤ s.sp → s.sp ≤ 1024 → ∃ t, push v s = .ok () t ∧ StoresWord s t (s.sp - 1) (BitVec.ofInt 32 v) ∧
      t.sp = s.sp - 1 ∧ t.pc = s.pc ∧ t.rs = s.rs ∧ SameChannels s t) ∧
    (s.sp = 1025 → ∃ t, push v s = .error (.fault (.memoryRange s.pc 1024)) t ∧ SameMemory s t)

/-- R88: ReadLine returns the bytes before the first newline, null byte or end of stream, consumes exactly those and the
terminator, and raises IoError at the first InByte that fails, with the bytes before it consumed; Input and Stinput then
end in that fault (R167). If none of these comes, ReadLine and the instruction never complete (R84, S13, log 33). The
newline byte is general knowledge of the spec's (G1, D16, log 17), the recorded `pc` its own choice (D5, log 26). -/
def Obligations.ReadLineTakesOneLine : Prop :=
  ∀ s : State,
    (s.lineEnds = true →
      (∀ (k : Nat) (b : Byte), s.line[k]? = some b → s.incoming k = .byte b ∧ b ≠ 0x0A#8 ∧ b ≠ 0x00#8) ∧
      s.incoming s.line.length ∈ [.byte 0x0A#8, .byte 0x00#8, .endOfStream] ∧
      (s.noFailure → ∃ t, readLine s = .ok s.line t ∧ TakesLine s t ∧ t.mem = s.mem ∧ t.pc = s.pc ∧ t.sp = s.sp ∧
        t.rs = s.rs)) ∧
    (s.lineEnds = false → ∀ k, s.incoming k ∉ [.byte 0x0A#8, .byte 0x00#8, .endOfStream]) ∧
    (s.lineNever → ∀ i : Instr, i.readsInput = true → exec i s = .fault .neverCompletes) ∧
    ∀ (k : Nat) (rest : List Bool),
      (∀ j, j < k → ∃ b, s.incoming j = .byte b ∧ b ≠ 0x0A#8 ∧ b ≠ 0x00#8) →
      s.oracle = List.replicate k false ++ true :: rest →
      ∃ t, readLine s = .error (.fault (.ioError s.pc)) t ∧ Consumes s t k ∧ t.output = s.output ∧
        ∀ i : Instr, i.readsInput = true → exec i s = .next { t with rs := .faulted (.ioError s.pc) }

/-- What Print writes, Input reads back: the decimal text of a word parses to the word, and so do its hexadecimal and
binary texts behind `0x` and `0b`. Both functions are the spec's defaults (R101, R153; D16, D19; logs 17, 20). -/
def Obligations.PrintedNumbersParseBack : Prop :=
  ∀ v : Word,
    parseInput (formatPrint 0 v) = some v ∧
    parseInput (0x30#8 :: 0x78#8 :: formatPrint 1 v) = some v ∧
    parseInput (0x30#8 :: 0x62#8 :: formatPrint 2 v) = some v

/-! ### Miscellaneous group -/

/-- R95: Exit ends the run with its code and changes nothing else; that `pc` stays is the spec's own (D22, log 23). -/
def Obligations.ExitHaltsWithItsCode : Prop :=
  ∀ (code : Nat) (s : State), exec (.exit code) s = .next { s with rs := .halted code }

/-- R96: Swap with both indices in Memory exchanges the two words, and changes no other byte and nothing but `pc`. The
stored addresses are `stackIndex`, the meaning's own, which is `sp` plus a quarter of the byte offset, rounded toward zero
(R13, R40, R193). -/
def Obligations.SwapExchangesTwoWords : Prop :=
  (∀ (s : State) (off : Int), stackIndex s off = s.sp + Int.tdiv off 4) ∧
  ∀ (fromOff toOff : Int) (s : State) (a b : Int), a = stackIndex s fromOff → b = stackIndex s toOff →
    s.mem.wf = true → 0 ≤ a → a ≤ 1023 → 0 ≤ b → b ≤ 1023 →
    ∃ t, exec (.swap fromOff toOff) s = .next t ∧ t.word a = s.word b ∧ t.word b = s.word a ∧
      (∀ c, ¬ inWord a c → ¬ inWord b c → t.mem.readByte c = s.mem.readByte c) ∧
      t.sp = s.sp ∧ t.pc = s.pc + 1 ∧ t.rs = s.rs ∧ SameChannels s t

/-- R96, R151, R168: a Swap with an index outside Memory raises MemoryRange, `from` first, and has written nothing; a
Print outside Memory raises it before any output. The fault and the order are the spec's own (D3, D6, D14; logs 4, 8,
15). -/
def Obligations.OffsetsOutsideMemoryFault : Prop :=
  (∀ (fromOff toOff : Int) (s : State) (a b : Int), a = stackIndex s fromOff → b = stackIndex s toOff →
    ((a < 0 ∨ 1023 < a) → FaultsUnwritten (.swap fromOff toOff) s (.memoryRange s.pc a)) ∧
    (0 ≤ a → a ≤ 1023 → (b < 0 ∨ 1023 < b) → FaultsUnwritten (.swap fromOff toOff) s (.memoryRange s.pc b))) ∧
  ∀ (off : Int) (s : State) (i : Int), i = stackIndex s off → (i < 0 ∨ 1023 < i) →
    FaultsWith (.print off) s (.memoryRange s.pc i)

/-- R97, R100: Nop and Debug change nothing but `pc`; for Debug that is the spec's own reading (D15, log 16). -/
def Obligations.NopAndDebugOnlyAdvance : Prop :=
  ∀ s : State, exec .nop s = .next { s with pc := s.pc + 1 } ∧ exec .debug s = .next { s with pc := s.pc + 1 }

/-- R98: Input takes one line off the stream and pushes the number it holds. The number grammar is the spec's default
(D16, log 17). -/
def Obligations.InputPushesTheNumberOfTheLine : Prop :=
  ∀ (s : State) (v : Word), s.mem.wf = true → s.hasRoom → s.noFailure → s.lineEnds = true →
    parseInput (trim s.line) = some v →
    ∃ t, exec .input s = .next t ∧ TakesLine s t ∧ StoresWord s t (s.sp - 1) v ∧ t.sp = s.sp - 1 ∧
      t.pc = s.pc + 1 ∧ t.rs = s.rs

/-- R98, R99, R163, R164, R168: for Input, a line that is no number is ParseError, whatever the stack, and a number with a
full stack is StackOverflow with Memory unmodified; for Stinput, a string of more chunks than the stack has room for is
StackOverflow. In all three the line is consumed. The order and the recorded `pc` are the spec's own (D6, D5; logs 8,
26). -/
def Obligations.LineReadersFaultAfterTakingTheLine : Prop :=
  ∀ s : State, s.noFailure → s.lineEnds = true →
    (parseInput (trim s.line) = none →
      ∃ t, exec .input s = .next t ∧ t.rs = .faulted (.parseError s.pc) ∧ TakesLine s t) ∧
    (∀ v, parseInput (trim s.line) = some v → s.sp ≤ 0 →
      ∃ t, exec .input s = .next t ∧ t.rs = .faulted (.stackOverflow s.pc) ∧ TakesLine s t ∧ SameMemory s t) ∧
    ∀ (max : Nat) (str : List Byte), str = lineString max s.line → 0 ≤ s.sp → s.sp ≤ 1024 →
      s.sp < ((if str = [] then 1 else (str.length + 2) / 3 : Nat) : Int) →
      ∃ t, exec (.stinput max) s = .next t ∧ t.rs = .faulted (.stackOverflow s.pc) ∧ TakesLine s t

/-- R99: the Memory image of Stinput, chunk `k` of the padded string in `Mem[sp'+k]`, first byte least significant, byte 3
the continuation flag on all chunks but the last; one zero word for the empty string. `sp` goes down by the number of
chunks and every other byte is unchanged. Trimming before truncating is the spec's own (D17, log 18). -/
def Obligations.StinputPacksTheLine : Prop :=
  ∀ (max : Nat) (s : State) (str : List Byte) (n : Nat), str = lineString max s.line →
    n = (if str = [] then 1 else (str.length + 2) / 3) →
    s.mem.wf = true → s.noFailure → s.lineEnds = true → (n : Int) ≤ s.sp → s.sp ≤ 1024 →
    ∃ t, exec (.stinput max) s = .next t ∧ TakesLine s t ∧ t.sp = s.sp - n ∧ t.pc = s.pc + 1 ∧ t.rs = s.rs ∧
      (str = [] → t.word t.sp = 0#32) ∧
      (str ≠ [] → ∀ k, k < n →
        (∀ j, j < 3 → (padString str)[3 * k + j]? = some (t.mem.readByte (4 * (t.sp.toNat + k) + j))) ∧
        t.mem.readByte (4 * (t.sp.toNat + k) + 3) = if k + 1 < n then 0x01#8 else 0x00#8) ∧
      ∀ a : Nat, ((a : Int) < 4 * t.sp ∨ 4 * s.sp ≤ a) → t.mem.readByte a = s.mem.readByte a

/-- The round trip the document's section 8 asks for, for every line: Stinput and then Stprint at offset 0 print exactly
the trimmed, truncated line, less any sentinel byte typed in it. Trimming before truncating and the bounds of the printing
walk are the spec's own (D17, D18; logs 18, 19). -/
def Obligations.StinputThenStprintPrintsTheLine : Prop :=
  ∀ (max : Nat) (s : State) (str : List Byte), str = lineString max s.line → s.mem.wf = true → s.noFailure →
    s.lineEnds = true → ((if str = [] then 1 else (str.length + 2) / 3 : Nat) : Int) ≤ s.sp → s.sp ≤ 1024 →
    ∃ t u, exec (.stinput max) s = .next t ∧ exec (.stprint 0) t = .next u ∧
      u.output = s.output ++ str.filter (fun b => decide (b ≠ 0x01#8)) ∧ u.sp = t.sp ∧ u.rs = s.rs

/-! ### Stack group -/

/-- R105: Pop decodes from every word of group 0x1, moves `sp` up by the whole words of its byte count, clamped to
0..1024, never faults, and leaves Memory and everything else alone. -/
def Obligations.PopClampsTheStackPointer : Prop :=
  (∀ w : Word, w &&& 0xF0000000#32 = 0x10000000#32 → decode w = .ok (.pop (w.extractLsb' 0 28).toNat)) ∧
    ∀ (count : Nat) (s : State),
      exec (.pop count) s =
        .next { s with sp := max 0 (min (s.sp + ((count / 4 : Nat) : Int)) 1024), pc := s.pc + 1 }

/-- R106: Dup pushes a copy of the word at `sp + off/4`, taken with the `sp` of before the push. -/
def Obligations.DupPushesACopy : Prop :=
  ∀ (off : Nat) (s : State), s.mem.wf = true → 1 ≤ s.sp → s.sp + ((off / 4 : Nat) : Int) ≤ 1023 →
    PushResult (.dup off) s (s.word (s.sp + ((off / 4 : Nat) : Int))) (s.pc + 1)

/-- R106, R168: Dup outside Memory raises MemoryRange, then a full stack StackOverflow; the first fault, the order and
the recorded `pc` are the spec's own (D3, D6, D5; logs 4, 8, 26). -/
def Obligations.DupFaultsInOrder : Prop :=
  ∀ (off : Nat) (s : State) (i : Int), i = s.sp + ((off / 4 : Nat) : Int) → 0 ≤ s.sp →
    (1023 < i → FaultsWith (.dup off) s (.memoryRange s.pc i)) ∧
    (i ≤ 1023 → s.sp = 0 → FaultsUnwritten (.dup off) s (.stackOverflow s.pc))

/-- R107: Push decodes from every word of group 0xF with its 28 bits sign-extended, pushes the 32-bit form of its
immediate, and on a full stack raises StackOverflow with Memory unmodified; the recorded `pc` is the spec's own choice
(D5, log 26). -/
def Obligations.PushStoresItsImmediate : Prop :=
  (∀ w : Word, w &&& 0xF0000000#32 = 0xF0000000#32 →
    ∃ imm : Int, decode w = .ok (.push imm) ∧ -134217728 ≤ imm ∧ imm ≤ 134217727 ∧
      BitVec.ofInt 32 imm = (w.extractLsb' 0 28).signExtend 32) ∧
    ∀ (imm : Int) (s : State), s.mem.wf = true →
      (s.hasRoom → PushResult (.push imm) s (BitVec.ofInt 32 imm) (s.pc + 1)) ∧
      (s.sp ≤ 0 → FaultsUnwritten (.push imm) s (.stackOverflow s.pc))

/-- R86, R98, R99, R131: with `sp = 1025`, which only a Return leaves, every pushing instruction but Dup (whose read
faults first) raises MemoryRange(1024) from its push, Input and Stinput with the line consumed. The fault and the reach of
1025 are the spec's own decisions (D3, D21; logs 4, 22). -/
def Obligations.PushesAboveTheEmptyStackFault : Prop :=
  ∀ s : State, s.sp = 1025 →
    (∀ imm : Int, FaultsWith (.push imm) s (.memoryRange s.pc 1024)) ∧
    (∀ off : Int, FaultsWith (.call off) s (.memoryRange s.pc 1024)) ∧
    (s.noFailure → s.lineEnds = true →
      (∀ v, parseInput (trim s.line) = some v →
        ∃ t, exec .input s = .next t ∧ t.rs = .faulted (.memoryRange s.pc 1024) ∧ TakesLine s t) ∧
      ∀ max : Nat, ∃ t, exec (.stinput max) s = .next t ∧ t.rs = .faulted (.memoryRange s.pc 1024) ∧ TakesLine s t)

/-- The aliasing of R17 and R45: a Push whose stack slot is the next instruction's word makes the very next fetch read
the pushed word. -/
def Obligations.PushedWordIsFetchedNext : Prop :=
  ∀ (imm : Int) (s : State), s.mem.wf = true → s.rs = .running → 0 ≤ s.pc → s.pc ≤ 1022 → s.sp = s.pc + 2 →
    decode (s.word s.pc) = .ok (.push imm) →
    ∃ t, step s = .next t ∧ t.rs = .running ∧ fetch t = .ok (BitVec.ofInt 32 imm)

/-! ### ALU -/

/-- R112, R113, R114 over R110: with two words on the stack, Add, Sub and Mul replace them by left plus, minus, times
right modulo 2^32, left being `Mem[sp+1]`. The pairing of encodings is D9 and no part of this. -/
def Obligations.AddSubMulWrap : Prop :=
  ∀ (s : State) (l r : Word), l = s.word (s.sp + 1) → r = s.word s.sp → s.mem.wf = true → s.hasTwo →
    BinaryResult .add s (l + r) ∧ BinaryResult .sub s (l - r) ∧ BinaryResult .mul s (l * r)

/-- R115, R116: Div and Rem by a nonzero right operand are the signed quotient rounded toward zero and its remainder,
wrapping at -2147483648 / -1. Rounding and wrapping are the spec's own (D11, log 12). -/
def Obligations.DivAndRemRoundTowardZero : Prop :=
  ∀ (s : State) (l r : Word), l = s.word (s.sp + 1) → r = s.word s.sp → s.mem.wf = true → s.hasTwo → r ≠ 0#32 →
    BinaryResult .div s (l.sdiv r) ∧ BinaryResult .rem s (l.srem r)

/-- R172: Div and Rem with a zero right operand raise DivideByZero, for every left operand, and nothing is pushed. The
recorded `pc` is the spec's own choice (D5, log 26). -/
def Obligations.DivisionByZeroFaults : Prop :=
  ∀ s : State, s.hasTwo → s.word s.sp = 0#32 →
    FaultsUnwritten .div s (.divideByZero s.pc) ∧ FaultsUnwritten .rem s (.divideByZero s.pc)

/-- R117, R118, R119: And, Or and Xor work bit by bit on the two words; bitwise is the spec's own reading (D12, log
13). -/
def Obligations.BitwiseOperationsWorkBitByBit : Prop :=
  ∀ (s : State) (l r : Word), l = s.word (s.sp + 1) → r = s.word s.sp → s.mem.wf = true → s.hasTwo →
    ∃ a o x : Word, BinaryResult .and s a ∧ BinaryResult .or s o ∧ BinaryResult .xor s x ∧
      ∀ k, k < 32 →
        a.getLsbD k = (l.getLsbD k && r.getLsbD k) ∧ o.getLsbD k = (l.getLsbD k || r.getLsbD k) ∧
        x.getLsbD k = (l.getLsbD k != r.getLsbD k)

/-- R120, R121, R122: the three shifts of the left operand by the right operand's low five bits, zeros or sign copies
entering. Five bits are the spec's default (D10, log 11). -/
def Obligations.ShiftsUseTheLowFiveBits : Prop :=
  ∀ (s : State) (l r : Word) (n : Nat), l = s.word (s.sp + 1) → r = s.word s.sp → n = r.toNat % 32 →
    s.mem.wf = true → s.hasTwo →
    BinaryResult .shl s (l <<< n) ∧ BinaryResult .logicalShr s (l >>> n) ∧
      BinaryResult .arithmeticShr s (l.sshiftRight n)

/-- R123, R124 over R111: Negate and Not replace the top word by its two's complement and its bitwise complement; the
latter is the spec's own reading (D12, log 13). -/
def Obligations.NegateAndNotReplaceTheTop : Prop :=
  ∀ s : State, s.mem.wf = true → s.hasOne →
    UnaryResult .negate s (-(s.word s.sp)) ∧ UnaryResult .not s (s.word s.sp ^^^ 0xFFFFFFFF#32)

/-- R110, R111, R132, R145, R146, R173: an instruction with two operands raises MemoryRange at `sp` or at `sp+1`,
whichever index is first outside Memory; Negate, Not, Return and UnaryIf raise it at `sp` on an empty stack. The fault is
the spec's own (D3, log 4). -/
def Obligations.MissingOperandsFault : Prop :=
  (∀ (i : Instr) (s : State), (i.isBinary = true ∨ i.isBinaryIf = true) →
    (1023 < s.sp → FaultsWith i s (.memoryRange s.pc s.sp)) ∧
    (s.sp = 1023 → FaultsWith i s (.memoryRange s.pc 1024))) ∧
  ∀ (i : Instr) (s : State), i.readsTopOnly = true → 1023 < s.sp → FaultsWith i s (.memoryRange s.pc s.sp)

/-! ### Control transfer -/

/-- R131: Call decodes from every word of group 0x5 with its 26 bits sign-extended, pushes the index after itself and
goes to its own index plus the offset; on a full stack it raises StackOverflow and `pc` is not changed. The recorded `pc`
is the spec's own choice (D5, log 26). -/
def Obligations.CallPushesTheReturnAddress : Prop :=
  (∀ w : Word, w &&& 0xF0000000#32 = 0x50000000#32 → decode w = .ok (.call (w.extractLsb' 0 26).toInt)) ∧
    ∀ (off : Int) (s : State), s.mem.wf = true →
      (s.hasRoom → PushResult (.call off) s (BitVec.ofInt 32 (s.pc + 1)) (s.pc + off)) ∧
      (s.sp ≤ 0 → ∃ t, exec (.call off) s = .next t ∧ t.rs = .faulted (.stackOverflow s.pc) ∧ t.pc = s.pc ∧
        SameMemory s t ∧ SameChannels s t)

/-- R132: Return takes the top word, unsigned and whole, as the address and moves `sp` past it and `extra/4` further
words, clamped against the old depth, so that asking for the whole stack or more leaves 1025. Whole-word addresses and
1025 are the spec's own decisions (D2, D21; logs 1, 22). -/
def Obligations.ReturnTakesTheTopWord : Prop :=
  ∀ (extra : Nat) (s : State), s.hasOne →
    exec (.ret extra) s =
      .next { s with
        sp := if s.sp + 1 + ((extra / 4 : Nat) : Int) ≤ 1024 then s.sp + 1 + ((extra / 4 : Nat) : Int) else 1025
        pc := ((s.word s.sp).toNat : Int) }

/-- R144: a Call, followed by a Return in any state that has the same `sp` and the same word there, comes back to the
instruction after the Call with the `sp` of before it. -/
def Obligations.ReturnUndoesCall : Prop :=
  ∀ (off : Int) (s : State), s.mem.wf = true → s.hasRoom → 0 ≤ s.pc → s.pc ≤ 1023 →
    ∃ t, exec (.call off) s = .next t ∧
      ∀ u : State, u.sp = t.sp → u.word u.sp = t.word t.sp →
        ∃ v, exec (.ret 0) u = .next v ∧ v.pc = s.pc + 1 ∧ v.sp = s.sp

/-- R133: Goto decodes from every word of group 0x7 with bits 25..2 sign-extended, goes to its own index plus the offset
and changes nothing else; FetchRange comes at the next fetch if the target is outside 0..1023. That the target is exact, so that every far target
faults, is the spec's own (R130, R21, D2, log 1). -/
def Obligations.GotoMovesOnlyPc : Prop :=
  (∀ w : Word, w &&& 0xF0000000#32 = 0x70000000#32 → decode w = .ok (.goto (w.extractLsb' 2 24).toInt)) ∧
    ∀ (off : Int) (s t : State), t = { s with pc := s.pc + off } →
      exec (.goto off) s = .next t ∧
        (s.rs = .running → t.pc < 0 ∨ 1023 < t.pc → step t = .next { t with rs := .faulted (.fetchRange t.pc) })

/-- R145, R134 to R139: with two words on the stack each BinaryIf goes to `p + off` when left REL right holds, signed,
else to `p + 1`, and changes nothing else. The orientation is the spec's own (D13, log 14). -/
def Obligations.BinaryIfBranchesOnSignedComparison : Prop :=
  ∀ (off : Int) (s : State) (l r : Word), l = s.word (s.sp + 1) → r = s.word s.sp → s.hasTwo →
    exec (.binaryIfEq off) s = .next { s with pc := s.pc + if l = r then off else 1 } ∧
    exec (.binaryIfNe off) s = .next { s with pc := s.pc + if l = r then 1 else off } ∧
    exec (.binaryIfLt off) s = .next { s with pc := s.pc + if l.slt r then off else 1 } ∧
    exec (.binaryIfGt off) s = .next { s with pc := s.pc + if r.slt l then off else 1 } ∧
    exec (.binaryIfLe off) s = .next { s with pc := s.pc + if l.sle r then off else 1 } ∧
    exec (.binaryIfGe off) s = .next { s with pc := s.pc + if r.sle l then off else 1 }

/-- R146, R140 to R143: with a word on the stack each UnaryIf goes to `p + off` when its test of the top word holds, else
to `p + 1`, and changes nothing else. -/
def Obligations.UnaryIfBranchesOnTheTopWord : Prop :=
  ∀ (off : Int) (s : State) (v : Word), v = s.word s.sp → s.hasOne →
    exec (.unaryIfEqz off) s = .next { s with pc := s.pc + if v = 0#32 then off else 1 } ∧
    exec (.unaryIfNez off) s = .next { s with pc := s.pc + if v = 0#32 then 1 else off } ∧
    exec (.unaryIfLtz off) s = .next { s with pc := s.pc + if v.msb then off else 1 } ∧
    exec (.unaryIfGez off) s = .next { s with pc := s.pc + if v.msb then 1 else off }

/-! ### Output -/

/-- R150: Stprint emits the packed string found from index `sp + off/4` upward to the end of Memory, flushes even when
there is none, and changes nothing else. `packedText` writes the string out from the bits of the words: bytes 0, 1, 2 in
this order less the sentinel, and on to the next word when bit 24 is set. Bounds and byte 3 are the spec's reading (D18,
C3, C9; log 19). -/
def Obligations.StprintEmitsThePackedString : Prop :=
  ∀ (off : Nat) (s : State) (i : Int) (text : List Byte), i = s.sp + ((off / 4 : Nat) : Int) →
    text = packedText (s.wordsUp i (1024 - i).toNat) → 0 ≤ s.sp → s.noFailure →
    exec (.stprint off) s =
      .next { s with output := s.output ++ text, oracle := s.oracle.drop (text.length + 1), pc := s.pc + 1 }

/-- R151: Print emits the text of the word at its index in the radix of its low two offset bits, a newline, and flushes;
nothing else changes. The text is R153's: decimal with a `-` for a negative word, or hexadecimal, binary, octal of the
unsigned word, lower case and without leading zeros (the default of D19, log 20). -/
def Obligations.PrintEmitsALine : Prop :=
  (∀ v : Word,
    (v.msb = false → SpellsPlain 10 (formatPrint 0 v) v.toNat) ∧
    (v.msb = true → ∃ d, formatPrint 0 v = 0x2D#8 :: d ∧ SpellsPlain 10 d (4294967296 - v.toNat)) ∧
    SpellsPlain 16 (formatPrint 1 v) v.toNat ∧ SpellsPlain 2 (formatPrint 2 v) v.toNat ∧
    SpellsPlain 8 (formatPrint 3 v) v.toNat) ∧
  ∀ (off : Int) (s : State) (i : Int) (text : List Byte), i = s.sp + Int.tdiv off 4 → 0 ≤ i → i ≤ 1023 →
    text = formatPrint (off % 4).toNat (s.word i) ++ [0x0A#8] → s.noFailure →
    exec (.print off) s =
      .next { s with output := s.output ++ text, oracle := s.oracle.drop (text.length + 1), pc := s.pc + 1 }

/-- R152: on an empty stack Dump only advances, with no channel operation; otherwise it emits one line for each of the
`1024 - sp` words from the top, and flushes. A line is R154's: the relative address in four hexadecimal digits, colon,
space, the word in eight (the defaults of D20, D27; logs 21, 27). -/
def Obligations.DumpEmitsTheStack : Prop :=
  (∀ (rel : Nat) (v : Word), rel ≤ 1023 → ∃ a d : List Byte, formatDump rel v = a ++ [0x3A#8, 0x20#8] ++ d ∧
    a.length = 4 ∧ Spells 16 a rel ∧ d.length = 8 ∧ Spells 16 d v.toNat) ∧
  ∀ s : State,
    (1024 ≤ s.sp → exec .dump s = .next { s with pc := s.pc + 1 }) ∧
    ∀ text : List Byte, text = s.dumpText (1024 - s.sp).toNat → s.hasOne → s.noFailure →
      exec .dump s =
        .next { s with output := s.output ++ text, oracle := s.oracle.drop (text.length + 1), pc := s.pc + 1 }

/-- R167 and R170 (a): when the channel fails at operation `k` of an output instruction, the run ends in IoError with
exactly the first `k` bytes emitted; for `k` the length of the text it is the flush that fails. When channels fail is
the environment's (D26, log 7). -/
def Obligations.FailingChannelKeepsEmittedBytes : Prop :=
  ∀ (i : Instr) (s : State) (text : List Byte) (k : Nat) (rest : List Bool),
    ((∃ off, i = .print off ∧ 0 ≤ stackIndex s off ∧ stackIndex s off ≤ 1023 ∧
        text = formatPrint (off % 4).toNat (s.word (stackIndex s off)) ++ [0x0A#8]) ∨
      (∃ off : Nat, i = .stprint off ∧ 0 ≤ s.sp ∧
        text = packedText (s.wordsUp (stackIndex s off) (1024 - stackIndex s off).toNat)) ∨
      (i = .dump ∧ s.hasOne ∧ text = s.dumpText (1024 - s.sp).toNat)) →
    k ≤ text.length → s.oracle = List.replicate k false ++ true :: rest →
    ∃ t, exec i s = .next t ∧ t.rs = .faulted (.ioError s.pc) ∧ t.output = s.output ++ text.take k ∧ SameInput s t
end

