-- ==== Sys2Proof/Laws/Codec.lean ====
section
/-! SUPPORT. Laws of the bit fields (R8, R9) and of the byte numbering of a word (R38). -/

namespace Sys2Proof

/-! ### Fields -/

theorem bits_lt (w : Word) (hi lo : Nat) : bits w hi lo < 2 ^ (hi + 1 - lo) :=
  Nat.mod_lt _ (Nat.two_pow_pos _)

/-- A field of a word made from a number below 2^32 is read by arithmetic on the number. -/
theorem bits_ofNat {n : Nat} (h : n < 4294967296) (hi lo : Nat) :
    bits (BitVec.ofNat 32 n) hi lo = n / 2 ^ lo % 2 ^ (hi + 1 - lo) := by
  simp only [bits, BitVec.toNat_ofNat]
  rw [Nat.mod_eq_of_lt h]

theorem field_lt (n : Nat) (x : Int) : field n x < 2 ^ n := by
  have h0 : (0 : Int) < 2 ^ n := by positivity
  have h1 := Int.emod_nonneg x (ne_of_gt h0)
  have h2 := Int.emod_lt_of_pos x h0
  have : ((field n x : Nat) : Int) < ((2 ^ n : Nat) : Int) := by
    unfold field
    rw [Int.toNat_of_nonneg h1]
    push_cast
    exact h2
  exact_mod_cast this

/-- A sign-extended field is in the range of R58. -/
theorem sext_range {n v : Nat} (hn : 0 < n) (h : v < 2 ^ n) :
    -(2 ^ (n - 1) : Int) ≤ sext n v ∧ sext n v < 2 ^ (n - 1) := by
  obtain ⟨k, rfl⟩ : ∃ k, n = k + 1 := ⟨n - 1, by omega⟩
  have hv : (v : Int) < 2 ^ k * 2 := by exact_mod_cast (pow_succ 2 k) ▸ h
  have hp : (0 : Int) < 2 ^ k := by positivity
  simp only [sext, Nat.add_sub_cancel, pow_succ]
  split
  · rename_i hlt
    have : (v : Int) < 2 ^ k := by exact_mod_cast hlt
    omega
  · rename_i hlt
    have : (2 : Int) ^ k ≤ v := by exact_mod_cast Nat.le_of_not_lt hlt
    omega

/-- Sign extension undoes the field of R65 on the range of the field. -/
theorem sext_field {n : Nat} {x : Int} (hn : 0 < n) (h1 : -(2 ^ (n - 1) : Int) ≤ x) (h2 : x < 2 ^ (n - 1)) :
    sext n (field n x) = x := by
  obtain ⟨k, rfl⟩ : ∃ k, n = k + 1 := ⟨n - 1, by omega⟩
  simp only [Nat.add_sub_cancel] at h1 h2
  have hp : (0 : Int) < 2 ^ k := by positivity
  have hd : (2 : Int) ^ (k + 1) = 2 ^ k * 2 := pow_succ 2 k
  have h0 : (0 : Int) < 2 ^ (k + 1) := by positivity
  have hf : ((field (k + 1) x : Nat) : Int) = x % 2 ^ (k + 1) :=
    Int.toNat_of_nonneg (Int.emod_nonneg x (ne_of_gt h0))
  have hcast : (field (k + 1) x < 2 ^ (k + 1 - 1)) ↔ x % 2 ^ (k + 1) < 2 ^ k := by
    rw [← hf, Nat.add_sub_cancel]
    exact_mod_cast Iff.rfl
  unfold sext
  rw [hf]
  by_cases hx : 0 ≤ x
  · have : x % 2 ^ (k + 1) = x := Int.emod_eq_of_lt hx (by omega)
    rw [if_pos (hcast.2 (by omega)), this]
  · have : x % 2 ^ (k + 1) = x + 2 ^ (k + 1) := by
      rw [← Int.add_emod_right, Int.emod_eq_of_lt (by omega) (by omega)]
    rw [if_neg (fun h => by have := hcast.1 h; omega), this]
    omega

/-! ### Bytes of a word -/

theorem byteOf_toNat (w : Word) (k : Nat) : (byteOf w k).toNat = w.toNat / 256 ^ k % 256 := by
  simp [byteOf]

theorem wordOfBytes_toNat (b0 b1 b2 b3 : Byte) :
    (wordOfBytes b0 b1 b2 b3).toNat = b0.toNat + 256 * b1.toNat + 65536 * b2.toNat + 16777216 * b3.toNat := by
  have h0 := b0.isLt
  have h1 := b1.isLt
  have h2 := b2.isLt
  have h3 := b3.isLt
  simp only [wordOfBytes, BitVec.toNat_ofNat]
  omega

/-- A word is made of its bytes. -/
@[simp] theorem wordOfBytes_byteOf (w : Word) :
    wordOfBytes (byteOf w 0) (byteOf w 1) (byteOf w 2) (byteOf w 3) = w := by
  apply BitVec.eq_of_toNat_eq
  have := w.isLt
  simp only [wordOfBytes_toNat, byteOf_toNat]
  omega

@[simp] theorem byteOf_wordOfBytes_0 (b0 b1 b2 b3 : Byte) : byteOf (wordOfBytes b0 b1 b2 b3) 0 = b0 := by
  apply BitVec.eq_of_toNat_eq
  have := b0.isLt
  simp only [wordOfBytes_toNat, byteOf_toNat]
  omega

@[simp] theorem byteOf_wordOfBytes_1 (b0 b1 b2 b3 : Byte) : byteOf (wordOfBytes b0 b1 b2 b3) 1 = b1 := by
  apply BitVec.eq_of_toNat_eq
  have := b0.isLt
  have := b1.isLt
  simp only [wordOfBytes_toNat, byteOf_toNat]
  omega

@[simp] theorem byteOf_wordOfBytes_2 (b0 b1 b2 b3 : Byte) : byteOf (wordOfBytes b0 b1 b2 b3) 2 = b2 := by
  apply BitVec.eq_of_toNat_eq
  have := b0.isLt
  have := b1.isLt
  have := b2.isLt
  simp only [wordOfBytes_toNat, byteOf_toNat]
  omega

@[simp] theorem byteOf_wordOfBytes_3 (b0 b1 b2 b3 : Byte) : byteOf (wordOfBytes b0 b1 b2 b3) 3 = b3 := by
  apply BitVec.eq_of_toNat_eq
  have := b0.isLt
  have := b1.isLt
  have := b2.isLt
  have := b3.isLt
  simp only [wordOfBytes_toNat, byteOf_toNat]
  omega

/-! ### The masks of the opcode table -/

/-- A mask of the top byte keeps the masked top byte. -/
theorem and_topMask_toNat (w : Word) (m : BitVec 8) :
    (w &&& (m ++ 0#24 : BitVec 32)).toNat = (w.extractLsb' 24 8 &&& m).toNat * 16777216 := by
  have hw : w = ((w.extractLsb' 24 8 ++ w.extractLsb' 0 24 : BitVec (8 + 24)) : BitVec 32) := by
    apply BitVec.eq_of_toNat_eq
    have := w.isLt
    simp only [BitVec.toNat_append, BitVec.extractLsb'_toNat, Nat.shiftRight_eq_div_pow, Nat.pow_zero, Nat.div_one]
    rw [← Nat.shiftLeft_add_eq_or_of_lt (by omega), Nat.shiftLeft_eq]
    omega
  have h : w &&& (m ++ 0#24 : BitVec 32) = ((w.extractLsb' 24 8 &&& m) ++ 0#24 : BitVec 32) := by
    conv_lhs => rw [hw]
    rw [BitVec.and_append]
    simp
  rw [h, BitVec.toNat_append, BitVec.toNat_ofNat, Nat.shiftLeft_eq]
  simp

theorem topByte_toNat (w : Word) : (w.extractLsb' 24 8).toNat = w.toNat / 16777216 := by
  have := w.isLt
  simp only [BitVec.extractLsb'_toNat, Nat.shiftRight_eq_div_pow]
  omega

theorem and_FF_toNat (w : Word) : (w &&& 0xFF000000#32).toNat = bits w 31 24 * 16777216 := by
  have h := and_topMask_toNat w 0xFF#8
  have hx : ∀ x : BitVec 8, (x &&& 0xFF#8).toNat = x.toNat := by decide +kernel
  rw [hx, topByte_toNat] at h
  have := w.isLt
  simp only [bits]
  exact h.trans (by omega)

theorem and_FE_toNat (w : Word) : (w &&& 0xFE000000#32).toNat = bits w 31 25 * 33554432 := by
  have h := and_topMask_toNat w 0xFE#8
  have hx : ∀ x : BitVec 8, (x &&& 0xFE#8).toNat = x.toNat / 2 * 2 := by decide +kernel
  rw [hx, topByte_toNat] at h
  have := w.isLt
  simp only [bits]
  exact h.trans (by omega)

theorem and_F0_toNat (w : Word) : (w &&& 0xF0000000#32).toNat = bits w 31 28 * 268435456 := by
  have h := and_topMask_toNat w 0xF0#8
  have hx : ∀ x : BitVec 8, (x &&& 0xF0#8).toNat = x.toNat / 16 * 16 := by decide +kernel
  rw [hx, topByte_toNat] at h
  have := w.isLt
  simp only [bits]
  exact h.trans (by omega)

theorem and_F6_toNat (w : Word) :
    (w &&& 0xF6000000#32).toNat = bits w 31 28 * 268435456 + bits w 26 25 * 33554432 := by
  have h := and_topMask_toNat w 0xF6#8
  have hx : ∀ x : BitVec 8, (x &&& 0xF6#8).toNat = x.toNat / 16 * 16 + x.toNat / 2 % 4 * 2 := by decide +kernel
  rw [hx, topByte_toNat] at h
  have := w.isLt
  simp only [bits]
  exact h.trans (by omega)

end Sys2Proof
end

