-- ==== Sys2Proof/Laws/Memory.lean ====
section
/-! SUPPORT. The laws of Memory: what a read gives after a write, and that every operation keeps the canonical form. -/

namespace Sys2Proof.Machine

/-! ### One cell -/

/-- Below the first address of the form nothing is listed. -/
theorem Memory.readByte_below {m : Memory} {lo a : Nat} (h : m.wfFrom lo = true) (ha : a < lo) :
    m.readByte a = Memory.unlisted := by
  induction m generalizing lo with
  | nil => rfl
  | cons e t ih =>
    obtain ⟨k, c⟩ := e
    simp only [Memory.wfFrom, Bool.and_eq_true, decide_eq_true_eq] at h
    simp only [Memory.readByte]
    rw [if_neg (by omega)]
    exact ih h.2 (by omega)

theorem Memory.wfFrom_mono {m : Memory} {lo lo' : Nat} (h : m.wfFrom lo = true) (hl : lo' ≤ lo) :
    m.wfFrom lo' = true := by
  cases m with
  | nil => rfl
  | cons e t =>
    obtain ⟨k, c⟩ := e
    simp only [Memory.wfFrom, Bool.and_eq_true, decide_eq_true_eq] at h ⊢
    exact ⟨⟨⟨by omega, h.1.1.2⟩, h.1.2⟩, h.2⟩

/-- A cell reads back what was written to it. -/
theorem Memory.readByte_writeByte_same {m : Memory} {lo : Nat} (h : m.wfFrom lo = true) (a : Nat) (b : Byte) :
    (m.writeByte a b).readByte a = b := by
  induction m generalizing lo with
  | nil =>
    simp only [Memory.writeByte]
    split
    · rename_i hb
      simp [Memory.readByte, hb]
    · simp [Memory.readByte]
  | cons e t ih =>
    obtain ⟨k, c⟩ := e
    simp only [Memory.wfFrom, Bool.and_eq_true, decide_eq_true_eq] at h
    simp only [Memory.writeByte]
    split
    · rename_i hak
      split
      · rename_i hb
        simp only [Memory.readByte, hb]
        rw [if_neg (by omega)]
        exact Memory.readByte_below h.2 (by omega)
      · simp [Memory.readByte]
    · split
      · rename_i hak
        subst hak
        split
        · rename_i hb
          rw [hb]
          exact Memory.readByte_below h.2 (by omega)
        · simp [Memory.readByte]
      · simp only [Memory.readByte]
        rw [if_neg (by omega)]
        exact ih h.2

/-- A write leaves every other cell alone. -/
theorem Memory.readByte_writeByte_other (m : Memory) {a a' : Nat} (b : Byte) (ha : a' ≠ a) :
    (m.writeByte a b).readByte a' = m.readByte a' := by
  induction m with
  | nil =>
    simp only [Memory.writeByte]
    split
    · rfl
    · simp [Memory.readByte, Ne.symm ha]
  | cons e t ih =>
    obtain ⟨k, c⟩ := e
    simp only [Memory.writeByte]
    split
    · split
      · rfl
      · simp [Memory.readByte, Ne.symm ha]
    · split
      · rename_i hak
        subst hak
        split
        · simp [Memory.readByte, Ne.symm ha]
        · simp [Memory.readByte, Ne.symm ha]
      · simp only [Memory.readByte, ih]

/-- A write keeps the canonical form. -/
theorem Memory.writeByte_wfFrom {m : Memory} {lo a : Nat} (h : m.wfFrom lo = true) (hl : lo ≤ a)
    (ha : a < Memory.cells) (b : Byte) : (m.writeByte a b).wfFrom lo = true := by
  induction m generalizing lo with
  | nil =>
    simp only [Memory.writeByte]
    split
    · rfl
    · rename_i hb
      simp [Memory.wfFrom, hl, ha, hb]
  | cons e t ih =>
    obtain ⟨k, c⟩ := e
    simp only [Memory.wfFrom, Bool.and_eq_true, decide_eq_true_eq] at h
    simp only [Memory.writeByte]
    split
    · rename_i hak
      split
      · simp only [Memory.wfFrom, Bool.and_eq_true, decide_eq_true_eq]
        exact h
      · rename_i hb
        simp only [Memory.wfFrom, Bool.and_eq_true, decide_eq_true_eq]
        exact ⟨⟨⟨hl, ha⟩, hb⟩, ⟨⟨⟨by omega, h.1.1.2⟩, h.1.2⟩, h.2⟩⟩
    · split
      · rename_i hak
        subst hak
        split
        · exact Memory.wfFrom_mono h.2 (by omega)
        · rename_i hb
          simp only [Memory.wfFrom, Bool.and_eq_true, decide_eq_true_eq]
          exact ⟨⟨⟨hl, ha⟩, hb⟩, h.2⟩
      · simp only [Memory.wfFrom, Bool.and_eq_true, decide_eq_true_eq]
        exact ⟨h.1, ih h.2 (by omega)⟩

theorem Memory.writeByte_wf {m : Memory} (h : m.wf = true) {a : Nat} (ha : a < Memory.cells) (b : Byte) :
    (m.writeByte a b).wf = true :=
  Memory.writeByte_wfFrom h (Nat.zero_le a) ha b

/-! ### One word -/

/-- The cells of word `i`. -/
theorem Memory.cells_of_word {i : Nat} (hi : i < 1024) : 4 * i + 3 < Memory.cells := by
  simp only [Memory.cells, Config.memWords]
  omega

/-- A word write keeps the canonical form. -/
theorem Memory.writeWord_wf {m : Memory} (h : m.wf = true) {i : Nat} (hi : i < 1024) (v : Word) :
    (m.writeWord i v).wf = true := by
  have hc := Memory.cells_of_word hi
  exact Memory.writeByte_wf (Memory.writeByte_wf (Memory.writeByte_wf (Memory.writeByte_wf h (by omega) _)
    (by omega) _) (by omega) _) (by omega) _

/-- A word write leaves every cell outside the word alone. -/
theorem Memory.readByte_writeWord_other (m : Memory) {i a : Nat} (v : Word) (ha : a < 4 * i ∨ 4 * i + 3 < a) :
    (m.writeWord i v).readByte a = m.readByte a := by
  unfold Memory.writeWord
  rw [Memory.readByte_writeByte_other _ _ (by omega), Memory.readByte_writeByte_other _ _ (by omega),
    Memory.readByte_writeByte_other _ _ (by omega), Memory.readByte_writeByte_other _ _ (by omega)]

/-- The cells of a written word hold its bytes. -/
theorem Memory.readByte_writeWord_same {m : Memory} (h : m.wf = true) {i : Nat} (hi : i < 1024) (v : Word) {k : Nat}
    (hk : k < 4) : (m.writeWord i v).readByte (4 * i + k) = byteOf v k := by
  have hc := Memory.cells_of_word hi
  have h3 := Memory.writeByte_wf h (a := 4 * i + 3) (by omega) (byteOf v 3)
  have h2 := Memory.writeByte_wf h3 (a := 4 * i + 2) (by omega) (byteOf v 2)
  have h1 := Memory.writeByte_wf h2 (a := 4 * i + 1) (by omega) (byteOf v 1)
  unfold Memory.writeWord
  obtain rfl | rfl | rfl | rfl : k = 0 ∨ k = 1 ∨ k = 2 ∨ k = 3 := by omega
  · exact Memory.readByte_writeByte_same h1 _ _
  · rw [Memory.readByte_writeByte_other _ _ (by omega)]
    exact Memory.readByte_writeByte_same h2 _ _
  · rw [Memory.readByte_writeByte_other _ _ (by omega), Memory.readByte_writeByte_other _ _ (by omega)]
    exact Memory.readByte_writeByte_same h3 _ _
  · rw [Memory.readByte_writeByte_other _ _ (by omega), Memory.readByte_writeByte_other _ _ (by omega),
      Memory.readByte_writeByte_other _ _ (by omega)]
    exact Memory.readByte_writeByte_same h _ _

/-- `Mem[i]` reads back what was written to it. -/
theorem Memory.readWord_writeWord_same {m : Memory} (h : m.wf = true) {i : Nat} (hi : i < 1024) (v : Word) :
    (m.writeWord i v).readWord i = v := by
  have h0 := Memory.readByte_writeWord_same h hi v (k := 0) (by omega)
  rw [Nat.add_zero] at h0
  unfold Memory.readWord
  rw [h0, Memory.readByte_writeWord_same h hi v (by omega), Memory.readByte_writeWord_same h hi v (by omega),
    Memory.readByte_writeWord_same h hi v (by omega), wordOfBytes_byteOf]

/-- Equal cells make equal words. -/
theorem Memory.readWord_congr {m m' : Memory} {i : Nat}
    (h : ∀ a, 4 * i ≤ a → a < 4 * i + 4 → m'.readByte a = m.readByte a) : m'.readWord i = m.readWord i := by
  unfold Memory.readWord
  rw [h _ (by omega) (by omega), h _ (by omega) (by omega), h _ (by omega) (by omega), h _ (by omega) (by omega)]

/-- A word write leaves every other word alone. -/
theorem Memory.readWord_writeWord_other (m : Memory) {i j : Nat} (v : Word) (hij : j ≠ i) :
    (m.writeWord i v).readWord j = m.readWord j :=
  Memory.readWord_congr fun _ h1 h2 => Memory.readByte_writeWord_other m v (by omega)

/-! ### A program -/

/-- Loading words keeps the canonical form. -/
theorem Memory.writeWords_wf {m : Memory} (h : m.wf = true) (ws : List Word) {i : Nat} (hi : i + ws.length ≤ 1024) :
    (m.writeWords i ws).wf = true := by
  induction ws generalizing i with
  | nil => exact h
  | cons w ws ih =>
    simp only [List.length_cons] at hi
    exact Memory.writeWord_wf (ih (by omega)) (by omega) w

/-- Words outside a loaded range are left alone. -/
theorem Memory.readWord_writeWords_other (m : Memory) (ws : List Word) {i j : Nat}
    (hj : j < i ∨ i + ws.length ≤ j) : (m.writeWords i ws).readWord j = m.readWord j := by
  induction ws generalizing i with
  | nil => rfl
  | cons w ws ih =>
    simp only [List.length_cons] at hj
    simp only [Memory.writeWords]
    rw [Memory.readWord_writeWord_other _ _ (by omega)]
    exact ih (by omega)

/-- Word `i + k` of a loaded range is the list's word `k`. -/
theorem Memory.readWord_writeWords_same {m : Memory} (h : m.wf = true) (ws : List Word) {i k : Nat}
    (hi : i + ws.length ≤ 1024) (hk : k < ws.length) : (m.writeWords i ws).readWord (i + k) = ws[k] := by
  induction ws generalizing i k with
  | nil => simp at hk
  | cons w ws ih =>
    simp only [List.length_cons] at hi hk
    simp only [Memory.writeWords]
    have hw := Memory.writeWords_wf h ws (i := i + 1) (by omega)
    cases k with
    | zero => exact Memory.readWord_writeWord_same hw (by omega) w
    | succ k =>
      rw [Memory.readWord_writeWord_other _ _ (by omega)]
      have := ih (i := i + 1) (k := k) (by omega) (by omega)
      simpa [Nat.add_assoc, Nat.add_comm 1 k] using this

end Sys2Proof.Machine
end

