-- ==== Sys2Proof/Laws/State.lean ====
section
/-! SUPPORT. The fields of State after each update of it: one lemma per field per update, so that no proof unfolds a
record update. -/

namespace Sys2Proof.Machine

variable (s : State)

/-! ### `setMem` -/

@[simp] theorem State.setMem_mem (m : Memory) : (s.setMem m).mem = m := rfl
@[simp] theorem State.setMem_pc (m : Memory) : (s.setMem m).pc = s.pc := rfl
@[simp] theorem State.setMem_sp (m : Memory) : (s.setMem m).sp = s.sp := rfl
@[simp] theorem State.setMem_rs (m : Memory) : (s.setMem m).rs = s.rs := rfl
@[simp] theorem State.setMem_input (m : Memory) : (s.setMem m).input = s.input := rfl
@[simp] theorem State.setMem_inputTail (m : Memory) : (s.setMem m).inputTail = s.inputTail := rfl
@[simp] theorem State.setMem_consumed (m : Memory) : (s.setMem m).consumed = s.consumed := rfl
@[simp] theorem State.setMem_output (m : Memory) : (s.setMem m).output = s.output := rfl
@[simp] theorem State.setMem_oracle (m : Memory) : (s.setMem m).oracle = s.oracle := rfl
@[simp] theorem State.setMem_attached (m : Memory) : (s.setMem m).attached = s.attached := rfl

/-! ### `setPc` -/

@[simp] theorem State.setPc_mem (p : Int) : (s.setPc p).mem = s.mem := rfl
@[simp] theorem State.setPc_pc (p : Int) : (s.setPc p).pc = p := rfl
@[simp] theorem State.setPc_sp (p : Int) : (s.setPc p).sp = s.sp := rfl
@[simp] theorem State.setPc_rs (p : Int) : (s.setPc p).rs = s.rs := rfl
@[simp] theorem State.setPc_input (p : Int) : (s.setPc p).input = s.input := rfl
@[simp] theorem State.setPc_inputTail (p : Int) : (s.setPc p).inputTail = s.inputTail := rfl
@[simp] theorem State.setPc_consumed (p : Int) : (s.setPc p).consumed = s.consumed := rfl
@[simp] theorem State.setPc_output (p : Int) : (s.setPc p).output = s.output := rfl
@[simp] theorem State.setPc_oracle (p : Int) : (s.setPc p).oracle = s.oracle := rfl
@[simp] theorem State.setPc_attached (p : Int) : (s.setPc p).attached = s.attached := rfl

/-! ### `setSp` -/

@[simp] theorem State.setSp_mem (p : Int) : (s.setSp p).mem = s.mem := rfl
@[simp] theorem State.setSp_pc (p : Int) : (s.setSp p).pc = s.pc := rfl
@[simp] theorem State.setSp_sp (p : Int) : (s.setSp p).sp = p := rfl
@[simp] theorem State.setSp_rs (p : Int) : (s.setSp p).rs = s.rs := rfl
@[simp] theorem State.setSp_input (p : Int) : (s.setSp p).input = s.input := rfl
@[simp] theorem State.setSp_inputTail (p : Int) : (s.setSp p).inputTail = s.inputTail := rfl
@[simp] theorem State.setSp_consumed (p : Int) : (s.setSp p).consumed = s.consumed := rfl
@[simp] theorem State.setSp_output (p : Int) : (s.setSp p).output = s.output := rfl
@[simp] theorem State.setSp_oracle (p : Int) : (s.setSp p).oracle = s.oracle := rfl
@[simp] theorem State.setSp_attached (p : Int) : (s.setSp p).attached = s.attached := rfl

/-! ### `setRs` -/

@[simp] theorem State.setRs_mem (r : RunState) : (s.setRs r).mem = s.mem := rfl
@[simp] theorem State.setRs_pc (r : RunState) : (s.setRs r).pc = s.pc := rfl
@[simp] theorem State.setRs_sp (r : RunState) : (s.setRs r).sp = s.sp := rfl
@[simp] theorem State.setRs_rs (r : RunState) : (s.setRs r).rs = r := rfl
@[simp] theorem State.setRs_input (r : RunState) : (s.setRs r).input = s.input := rfl
@[simp] theorem State.setRs_inputTail (r : RunState) : (s.setRs r).inputTail = s.inputTail := rfl
@[simp] theorem State.setRs_consumed (r : RunState) : (s.setRs r).consumed = s.consumed := rfl
@[simp] theorem State.setRs_output (r : RunState) : (s.setRs r).output = s.output := rfl
@[simp] theorem State.setRs_oracle (r : RunState) : (s.setRs r).oracle = s.oracle := rfl
@[simp] theorem State.setRs_attached (r : RunState) : (s.setRs r).attached = s.attached := rfl

/-! ### `setInput` -/

@[simp] theorem State.setInput_mem (i : List Byte) : (s.setInput i).mem = s.mem := rfl
@[simp] theorem State.setInput_pc (i : List Byte) : (s.setInput i).pc = s.pc := rfl
@[simp] theorem State.setInput_sp (i : List Byte) : (s.setInput i).sp = s.sp := rfl
@[simp] theorem State.setInput_rs (i : List Byte) : (s.setInput i).rs = s.rs := rfl
@[simp] theorem State.setInput_input (i : List Byte) : (s.setInput i).input = i := rfl
@[simp] theorem State.setInput_inputTail (i : List Byte) : (s.setInput i).inputTail = s.inputTail := rfl
@[simp] theorem State.setInput_consumed (i : List Byte) : (s.setInput i).consumed = s.consumed := rfl
@[simp] theorem State.setInput_output (i : List Byte) : (s.setInput i).output = s.output := rfl
@[simp] theorem State.setInput_oracle (i : List Byte) : (s.setInput i).oracle = s.oracle := rfl
@[simp] theorem State.setInput_attached (i : List Byte) : (s.setInput i).attached = s.attached := rfl

/-! ### `setInputTail` -/

@[simp] theorem State.setInputTail_mem (l : StreamTail) : (s.setInputTail l).mem = s.mem := rfl
@[simp] theorem State.setInputTail_pc (l : StreamTail) : (s.setInputTail l).pc = s.pc := rfl
@[simp] theorem State.setInputTail_sp (l : StreamTail) : (s.setInputTail l).sp = s.sp := rfl
@[simp] theorem State.setInputTail_rs (l : StreamTail) : (s.setInputTail l).rs = s.rs := rfl
@[simp] theorem State.setInputTail_input (l : StreamTail) : (s.setInputTail l).input = s.input := rfl
@[simp] theorem State.setInputTail_inputTail (l : StreamTail) : (s.setInputTail l).inputTail = l := rfl
@[simp] theorem State.setInputTail_consumed (l : StreamTail) : (s.setInputTail l).consumed = s.consumed := rfl
@[simp] theorem State.setInputTail_output (l : StreamTail) : (s.setInputTail l).output = s.output := rfl
@[simp] theorem State.setInputTail_oracle (l : StreamTail) : (s.setInputTail l).oracle = s.oracle := rfl
@[simp] theorem State.setInputTail_attached (l : StreamTail) : (s.setInputTail l).attached = s.attached := rfl

/-! ### `setConsumed` -/

@[simp] theorem State.setConsumed_mem (n : Nat) : (s.setConsumed n).mem = s.mem := rfl
@[simp] theorem State.setConsumed_pc (n : Nat) : (s.setConsumed n).pc = s.pc := rfl
@[simp] theorem State.setConsumed_sp (n : Nat) : (s.setConsumed n).sp = s.sp := rfl
@[simp] theorem State.setConsumed_rs (n : Nat) : (s.setConsumed n).rs = s.rs := rfl
@[simp] theorem State.setConsumed_input (n : Nat) : (s.setConsumed n).input = s.input := rfl
@[simp] theorem State.setConsumed_inputTail (n : Nat) : (s.setConsumed n).inputTail = s.inputTail := rfl
@[simp] theorem State.setConsumed_consumed (n : Nat) : (s.setConsumed n).consumed = n := rfl
@[simp] theorem State.setConsumed_output (n : Nat) : (s.setConsumed n).output = s.output := rfl
@[simp] theorem State.setConsumed_oracle (n : Nat) : (s.setConsumed n).oracle = s.oracle := rfl
@[simp] theorem State.setConsumed_attached (n : Nat) : (s.setConsumed n).attached = s.attached := rfl

/-! ### `setOutput` -/

@[simp] theorem State.setOutput_mem (o : List Byte) : (s.setOutput o).mem = s.mem := rfl
@[simp] theorem State.setOutput_pc (o : List Byte) : (s.setOutput o).pc = s.pc := rfl
@[simp] theorem State.setOutput_sp (o : List Byte) : (s.setOutput o).sp = s.sp := rfl
@[simp] theorem State.setOutput_rs (o : List Byte) : (s.setOutput o).rs = s.rs := rfl
@[simp] theorem State.setOutput_input (o : List Byte) : (s.setOutput o).input = s.input := rfl
@[simp] theorem State.setOutput_inputTail (o : List Byte) : (s.setOutput o).inputTail = s.inputTail := rfl
@[simp] theorem State.setOutput_consumed (o : List Byte) : (s.setOutput o).consumed = s.consumed := rfl
@[simp] theorem State.setOutput_output (o : List Byte) : (s.setOutput o).output = o := rfl
@[simp] theorem State.setOutput_oracle (o : List Byte) : (s.setOutput o).oracle = s.oracle := rfl
@[simp] theorem State.setOutput_attached (o : List Byte) : (s.setOutput o).attached = s.attached := rfl

/-! ### `setOracle` -/

@[simp] theorem State.setOracle_mem (o : List Bool) : (s.setOracle o).mem = s.mem := rfl
@[simp] theorem State.setOracle_pc (o : List Bool) : (s.setOracle o).pc = s.pc := rfl
@[simp] theorem State.setOracle_sp (o : List Bool) : (s.setOracle o).sp = s.sp := rfl
@[simp] theorem State.setOracle_rs (o : List Bool) : (s.setOracle o).rs = s.rs := rfl
@[simp] theorem State.setOracle_input (o : List Bool) : (s.setOracle o).input = s.input := rfl
@[simp] theorem State.setOracle_inputTail (o : List Bool) : (s.setOracle o).inputTail = s.inputTail := rfl
@[simp] theorem State.setOracle_consumed (o : List Bool) : (s.setOracle o).consumed = s.consumed := rfl
@[simp] theorem State.setOracle_output (o : List Bool) : (s.setOracle o).output = s.output := rfl
@[simp] theorem State.setOracle_oracle (o : List Bool) : (s.setOracle o).oracle = o := rfl
@[simp] theorem State.setOracle_attached (o : List Bool) : (s.setOracle o).attached = s.attached := rfl

/-! ### `setAttached` -/

@[simp] theorem State.setAttached_mem (b : Bool) : (s.setAttached b).mem = s.mem := rfl
@[simp] theorem State.setAttached_pc (b : Bool) : (s.setAttached b).pc = s.pc := rfl
@[simp] theorem State.setAttached_sp (b : Bool) : (s.setAttached b).sp = s.sp := rfl
@[simp] theorem State.setAttached_rs (b : Bool) : (s.setAttached b).rs = s.rs := rfl
@[simp] theorem State.setAttached_input (b : Bool) : (s.setAttached b).input = s.input := rfl
@[simp] theorem State.setAttached_inputTail (b : Bool) : (s.setAttached b).inputTail = s.inputTail := rfl
@[simp] theorem State.setAttached_consumed (b : Bool) : (s.setAttached b).consumed = s.consumed := rfl
@[simp] theorem State.setAttached_output (b : Bool) : (s.setAttached b).output = s.output := rfl
@[simp] theorem State.setAttached_oracle (b : Bool) : (s.setAttached b).oracle = s.oracle := rfl
@[simp] theorem State.setAttached_attached (b : Bool) : (s.setAttached b).attached = b := rfl

/-! ### Taking a fault writes the run state alone -/

@[simp] theorem takeFault_mem (e : RunFault) : (takeFault e s).mem = s.mem := rfl
@[simp] theorem takeFault_pc (e : RunFault) : (takeFault e s).pc = s.pc := rfl
@[simp] theorem takeFault_sp (e : RunFault) : (takeFault e s).sp = s.sp := rfl
@[simp] theorem takeFault_rs (e : RunFault) : (takeFault e s).rs = .faulted e := rfl
@[simp] theorem takeFault_input (e : RunFault) : (takeFault e s).input = s.input := rfl
@[simp] theorem takeFault_inputTail (e : RunFault) : (takeFault e s).inputTail = s.inputTail := rfl
@[simp] theorem takeFault_consumed (e : RunFault) : (takeFault e s).consumed = s.consumed := rfl
@[simp] theorem takeFault_output (e : RunFault) : (takeFault e s).output = s.output := rfl
@[simp] theorem takeFault_oracle (e : RunFault) : (takeFault e s).oracle = s.oracle := rfl
@[simp] theorem takeFault_attached (e : RunFault) : (takeFault e s).attached = s.attached := rfl

end Sys2Proof.Machine
end

