-- ==== Sys2Proof/Laws/Ops.lean ====
section
/-! SUPPORT. What each shared operation can do, said once: an equation for each case in which it goes on, raises or
completes. Proofs about instructions cite these and unfold no operation. -/

namespace Sys2Proof.Machine

/-! ### Sequences -/

@[simp] theorem Op.pure_apply {α : Type} (a : α) (s : State) : (pure a : Op α) s = .ok a s := rfl

theorem Op.bind_apply {α β : Type} (m : Op α) (f : α → Op β) (s : State) :
    (m >>= f) s = match m s with
      | .ok a t => f a t
      | .error e t => .error e t := by
  change EStateM.bind m f s = _
  unfold EStateM.bind
  cases m s <;> rfl

/-- A sequence goes on from a first operation that goes on. -/
theorem Op.bind_ok {α β : Type} {m : Op α} {s t : State} {a : α} (f : α → Op β) (h : m s = .ok a t) :
    (m >>= f) s = f a t := by
  rw [Op.bind_apply, h]

/-- A sequence raises what its first operation raises. -/
theorem Op.bind_error {α β : Type} {m : Op α} {s t : State} {e : Stop} (f : α → Op β) (h : m s = .error e t) :
    (m >>= f) s = .error e t := by
  rw [Op.bind_apply, h]

/-- Everything a sequence that goes on did. -/
theorem Op.bind_ok_iff {α β : Type} {m : Op α} {f : α → Op β} {s u : State} {b : β} :
    (m >>= f) s = .ok b u ↔ ∃ a t, m s = .ok a t ∧ f a t = .ok b u := by
  rw [Op.bind_apply]
  cases hm : m s with
  | ok a t => simp
  | error e t => simp

/-- Everything a sequence that raised did. -/
theorem Op.bind_error_iff {α β : Type} {m : Op α} {f : α → Op β} {s u : State} {e : Stop} :
    (m >>= f) s = .error e u ↔ m s = .error e u ∨ ∃ a t, m s = .ok a t ∧ f a t = .error e u := by
  rw [Op.bind_apply]
  cases hm : m s with
  | ok a t => simp
  | error e' t => simp

@[simp] theorem raise_apply {α : Type} (f : Int → RunFault) (s : State) : (raise f : Op α) s = .error (.fault (f s.pc)) s := rfl

theorem complete_ok {m : Op Unit} {s t : State} (h : m s = .ok () t) : complete m s = .next t := by
  simp only [complete, h]

theorem complete_fault {m : Op Unit} {s t : State} {f : RunFault} (h : m s = .error (.fault f) t) :
    complete m s = .next (takeFault f t) := by
  simp only [complete, h]

theorem complete_never {m : Op Unit} {s t : State} (h : m s = .error .never t) : complete m s = .fault .neverCompletes := by
  simp only [complete, h]

/-- Everything an instruction that answers a next state did: it completed, or its fault was taken. -/
theorem complete_next_iff {m : Op Unit} {s u : State} :
    complete m s = .next u ↔ m s = .ok () u ∨ ∃ f t, m s = .error (.fault f) t ∧ u = takeFault f t := by
  unfold complete
  cases hm : m s with
  | ok a t => cases a; simp
  | error e t =>
    cases e with
    | never => simp
    | fault f =>
      constructor
      · intro h
        cases h
        exact .inr ⟨f, t, rfl, rfl⟩
      · rintro (h | ⟨_, _, h, rfl⟩) <;> cases h
        rfl

/-- An instruction answers a next state unless it never completes. -/
theorem complete_next_or_never (m : Op Unit) (s : State) :
    (∃ u, complete m s = .next u) ∨ ((∃ t, m s = .error .never t) ∧ complete m s = .fault .neverCompletes) := by
  cases hm : m s with
  | ok a t => exact .inl ⟨t, by simp only [complete, hm]⟩
  | error e t =>
    cases e with
    | never => exact .inr ⟨⟨t, rfl⟩, complete_never hm⟩
    | fault f => exact .inl ⟨_, complete_fault hm⟩

/-! ### Registers -/

@[simp] theorem getSp_apply (s : State) : getSp s = .ok s.sp s := rfl
@[simp] theorem getPc_apply (s : State) : getPc s = .ok s.pc s := rfl
@[simp] theorem putSp_apply (e : Int) (s : State) : putSp e s = .ok () (s.setSp e) := rfl
@[simp] theorem jump_apply (e : Int) (s : State) : jump e s = .ok () (s.setPc e) := rfl
@[simp] theorem advance_apply (s : State) : advance s = .ok () (s.setPc (s.pc + 1)) := rfl
@[simp] theorem halt_apply (c : Nat) (s : State) : halt c s = .ok () (s.setRs (.halted c)) := rfl

/-! ### Operand forms -/

theorem inMemory_iff (i : Int) : inMemory i = true ↔ 0 ≤ i ∧ i ≤ 1023 := by
  unfold inMemory
  rw [decide_eq_true_eq, show ((Config.memWords : Nat) : Int) = 1024 from rfl]
  omega

theorem inMemory_eq_false (i : Int) : inMemory i = false ↔ i < 0 ∨ 1023 < i := by
  unfold inMemory
  rw [decide_eq_false_iff_not, show ((Config.memWords : Nat) : Int) = 1024 from rfl]
  omega

/-- On a nonnegative byte offset the conversion of R13 is the floor of a division by 4. -/
theorem widx_nonneg {x : Int} (h : 0 ≤ x) : widx x = x / 4 := by
  simp only [widx, tdiv, Config.offsetScale]
  exact Int.tdiv_eq_ediv_of_nonneg h

/-- On a nonpositive byte offset it rounds toward zero as well (R40). -/
theorem widx_nonpos {x : Int} (h : x ≤ 0) : widx x = -((-x) / 4) := by
  have h1 : Int.tdiv x 4 = -(Int.tdiv (-x) 4) := by rw [Int.neg_tdiv, Int.neg_neg]
  simp only [widx, tdiv, Config.offsetScale]
  rw [h1, Int.tdiv_eq_ediv_of_nonneg (by omega)]

theorem clamp_bounds {x lo hi : Int} (h : lo ≤ hi) : lo ≤ clamp x lo hi ∧ clamp x lo hi ≤ hi := by
  simp only [clamp]
  omega

/-! ### Memory accesses -/

theorem memRead_ok {i : Int} (h : inMemory i = true) (s : State) : memRead i s = .ok (s.mem.readWord i.toNat) s := by
  simp only [memRead, h, if_true]

theorem memRead_error {i : Int} (h : inMemory i = false) (s : State) :
    memRead i s = .error (.fault (.memoryRange s.pc i)) s := by
  simp [memRead, h]

/-- A read that goes on changes nothing and gives the word. -/
theorem memRead_ok_iff {i : Int} {s t : State} {w : Word} :
    memRead i s = .ok w t ↔ inMemory i = true ∧ w = s.mem.readWord i.toNat ∧ t = s := by
  cases h : inMemory i with
  | true => rw [memRead_ok h]; simp [eq_comm]
  | false => rw [memRead_error h]; simp

theorem memRead_error_iff {i : Int} {s t : State} {e : Stop} :
    memRead i s = .error e t ↔ inMemory i = false ∧ e = .fault (.memoryRange s.pc i) ∧ t = s := by
  cases h : inMemory i with
  | true => rw [memRead_ok h]; simp
  | false => rw [memRead_error h]; simp [eq_comm]

theorem memWrite_ok {i : Int} (h : inMemory i = true) (v : Word) (s : State) :
    memWrite i v s = .ok () (s.setMem (s.mem.writeWord i.toNat v)) := by
  simp only [memWrite, h, if_true]

theorem memWrite_error {i : Int} (h : inMemory i = false) (v : Word) (s : State) :
    memWrite i v s = .error (.fault (.memoryRange s.pc i)) s := by
  simp [memWrite, h]

theorem memWrite_ok_iff {i : Int} {v : Word} {s t : State} {u : Unit} :
    memWrite i v s = .ok u t ↔ inMemory i = true ∧ t = s.setMem (s.mem.writeWord i.toNat v) := by
  cases h : inMemory i with
  | true => rw [memWrite_ok h]; simp [eq_comm]
  | false => rw [memWrite_error h]; simp

theorem memWrite_error_iff {i : Int} {v : Word} {s t : State} {e : Stop} :
    memWrite i v s = .error e t ↔ inMemory i = false ∧ e = .fault (.memoryRange s.pc i) ∧ t = s := by
  cases h : inMemory i with
  | true => rw [memWrite_ok h]; simp
  | false => rw [memWrite_error h]; simp [eq_comm]

/-! ### The stack -/

/-- A push with room: `sp` goes down by one and the word lies at the new `sp`. -/
theorem pushWord_ok {s : State} (h1 : 1 ≤ s.sp) (h2 : s.sp ≤ 1024) (v : Word) :
    pushWord v s = .ok () ((s.setSp (s.sp - 1)).setMem (s.mem.writeWord (s.sp - 1).toNat v)) := by
  have hm : inMemory (s.sp - 1) = true := (inMemory_iff _).2 (by omega)
  simp only [pushWord, Op.bind_apply, getSp_apply, if_neg (show ¬ s.sp ≤ 0 by omega), putSp_apply]
  exact memWrite_ok hm v _

theorem pushWord_overflow {s : State} (h : s.sp ≤ 0) (v : Word) :
    pushWord v s = .error (.fault (.stackOverflow s.pc)) s := by
  simp only [pushWord, Op.bind_apply, getSp_apply, if_pos h, raise_apply]

/-- A push above the empty stack raises MemoryRange after the decrement (R86). -/
theorem pushWord_above {s : State} (h : 1025 ≤ s.sp) (v : Word) :
    pushWord v s = .error (.fault (.memoryRange s.pc (s.sp - 1))) (s.setSp (s.sp - 1)) := by
  have hm : inMemory (s.sp - 1) = false := (inMemory_eq_false _).2 (by omega)
  simp only [pushWord, Op.bind_apply, getSp_apply, if_neg (show ¬ s.sp ≤ 0 by omega), putSp_apply]
  exact memWrite_error hm v _

/-- Everything a push that goes on did. -/
theorem pushWord_ok_cases {s t : State} {v : Word} {u : Unit} (h : pushWord v s = .ok u t) :
    1 ≤ s.sp ∧ s.sp ≤ 1024 ∧ t = (s.setSp (s.sp - 1)).setMem (s.mem.writeWord (s.sp - 1).toNat v) := by
  by_cases h0 : s.sp ≤ 0
  · rw [pushWord_overflow h0] at h
    cases h
  · by_cases h1 : 1025 ≤ s.sp
    · rw [pushWord_above h1] at h
      cases h
    · rw [pushWord_ok (by omega) (by omega)] at h
      cases h
      exact ⟨by omega, by omega, rfl⟩

/-- Everything a push that raised did: Memory is as before, and only `sp` may have moved. -/
theorem pushWord_error_cases {s t : State} {v : Word} {e : Stop} (h : pushWord v s = .error e t) :
    (s.sp ≤ 0 ∧ e = .fault (.stackOverflow s.pc) ∧ t = s) ∨
      (1025 ≤ s.sp ∧ e = .fault (.memoryRange s.pc (s.sp - 1)) ∧ t = s.setSp (s.sp - 1)) := by
  by_cases h0 : s.sp ≤ 0
  · rw [pushWord_overflow h0] at h
    cases h
    exact .inl ⟨h0, rfl, rfl⟩
  · by_cases h1 : 1025 ≤ s.sp
    · rw [pushWord_above h1] at h
      cases h
      exact .inr ⟨h1, rfl, rfl⟩
    · rw [pushWord_ok (by omega) (by omega)] at h
      cases h

theorem popWord_ok {s : State} (h : inMemory s.sp = true) :
    popWord s = .ok (s.mem.readWord s.sp.toNat) (s.setSp (s.sp + 1)) := by
  simp only [popWord, Op.bind_apply, getSp_apply, memRead_ok h, putSp_apply, Op.pure_apply]

theorem popWord_error {s : State} (h : inMemory s.sp = false) :
    popWord s = .error (.fault (.memoryRange s.pc s.sp)) s := by
  simp only [popWord, Op.bind_apply, getSp_apply, memRead_error h]

theorem popWord_ok_iff {s t : State} {w : Word} :
    popWord s = .ok w t ↔ inMemory s.sp = true ∧ w = s.mem.readWord s.sp.toNat ∧ t = s.setSp (s.sp + 1) := by
  cases h : inMemory s.sp with
  | true => rw [popWord_ok h]; simp [eq_comm]
  | false => rw [popWord_error h]; simp

theorem popWord_error_iff {s t : State} {e : Stop} :
    popWord s = .error e t ↔ inMemory s.sp = false ∧ e = .fault (.memoryRange s.pc s.sp) ∧ t = s := by
  cases h : inMemory s.sp with
  | true => rw [popWord_ok h]; simp
  | false => rw [popWord_error h]; simp [eq_comm]

/-! ### The channels -/

theorem channel_ok {s : State} (h : s.oracle.headD false = false) :
    channel s = .ok () (s.setOracle s.oracle.tail) := by
  simp only [channel, h, Bool.false_eq_true, if_false]

theorem channel_error {s : State} (h : s.oracle.headD false = true) :
    channel s = .error (.fault (.ioError s.pc)) (s.setOracle s.oracle.tail) := by
  simp only [channel, h, if_true]

/-- Everything a channel operation that goes on did: the oracle's answer was used up. -/
theorem channel_ok_iff {s t : State} {u : Unit} :
    channel s = .ok u t ↔ s.oracle.headD false = false ∧ t = s.setOracle s.oracle.tail := by
  cases h : s.oracle.headD false with
  | true => rw [channel_error h]; simp
  | false => rw [channel_ok h]; simp [eq_comm]

theorem channel_error_iff {s t : State} {e : Stop} :
    channel s = .error e t ↔
      s.oracle.headD false = true ∧ e = .fault (.ioError s.pc) ∧ t = s.setOracle s.oracle.tail := by
  cases h : s.oracle.headD false with
  | true => rw [channel_error h]; simp [eq_comm]
  | false => rw [channel_ok h]; simp

/-! ### The input stream -/

@[simp] theorem StreamTail.block_ends : StreamTail.ends.block = [] := rfl
@[simp] theorem StreamTail.block_silent : StreamTail.silent.block = [] := rfl
@[simp] theorem StreamTail.block_repeats (b : Byte) (bs : List Byte) : (StreamTail.repeats b bs).block = b :: bs := rfl
@[simp] theorem StreamTail.after_ends : StreamTail.ends.after = .ends := rfl
@[simp] theorem StreamTail.after_silent : StreamTail.silent.after = .silent := rfl
@[simp] theorem StreamTail.after_repeats (b : Byte) (bs : List Byte) :
    (StreamTail.repeats b bs).after = .repeats b bs := rfl
@[simp] theorem StreamTail.after_lines (k : Nat) : (StreamTail.lines k).after = .lines (k + 1) := rfl

/-- A line of an endless stream has its terminator. -/
theorem StreamTail.endsLine_mem_block_lines (k : Nat) : ∃ b ∈ (StreamTail.lines k).block, endsLine b = true :=
  ⟨if Config.endlessNull k then 0x00#8 else newline, by simp [StreamTail.block], by
    cases Config.endlessNull k <;> simp [endsLine]⟩

/-- Only a stream that has ended or fallen silent delivers no block. -/
theorem StreamTail.block_eq_nil {l : StreamTail} (h : l.block = []) : l = .ends ∨ l = .silent := by
  cases l with
  | ends => exact .inl rfl
  | silent => exact .inr rfl
  | repeats b bs => cases h
  | lines k => simp [StreamTail.block] at h

theorem takeByte_byte {s : State} {b : Byte} {rest : List Byte} (hi : s.input = b :: rest) :
    takeByte s = .ok (some b) ((s.setInput rest).setConsumed (s.consumed + 1)) := by
  simp only [takeByte, hi]

theorem takeByte_block {s : State} {b : Byte} {rest : List Byte} (hi : s.input = [])
    (hb : s.inputTail.block = b :: rest) :
    takeByte s = .ok (some b) (((s.setInput rest).setInputTail s.inputTail.after).setConsumed (s.consumed + 1)) := by
  simp only [takeByte, hi, hb]

theorem takeByte_end {s : State} (hi : s.input = []) (hl : s.inputTail = .ends) : takeByte s = .ok none s := by
  simp [takeByte, hi, hl]

theorem takeByte_silent {s : State} (hi : s.input = []) (hl : s.inputTail = .silent) :
    takeByte s = .error .never s := by
  simp [takeByte, hi, hl]

/-- Everything taking a byte can do. -/
theorem takeByte_cases (s : State) :
    (∃ b rest, s.input = b :: rest ∧ takeByte s = .ok (some b) ((s.setInput rest).setConsumed (s.consumed + 1))) ∨
      (∃ b rest, s.input = [] ∧ s.inputTail.block = b :: rest ∧ takeByte s =
        .ok (some b) (((s.setInput rest).setInputTail s.inputTail.after).setConsumed (s.consumed + 1))) ∨
      (s.input = [] ∧ s.inputTail = .ends ∧ takeByte s = .ok none s) ∨
      (s.input = [] ∧ s.inputTail = .silent ∧ takeByte s = .error .never s) := by
  cases hi : s.input with
  | cons b rest => exact .inl ⟨b, rest, rfl, takeByte_byte hi⟩
  | nil =>
    cases hb : s.inputTail.block with
    | cons b rest => exact .inr (.inl ⟨b, rest, rfl, rfl, takeByte_block hi hb⟩)
    | nil =>
      rcases StreamTail.block_eq_nil hb with hl | hl
      · exact .inr (.inr (.inl ⟨rfl, hl, takeByte_end hi hl⟩))
      · exact .inr (.inr (.inr ⟨rfl, hl, takeByte_silent hi hl⟩))

/-- An InByte that does not fail takes a byte, with one answer of the oracle used up. -/
theorem inByte_ok {s : State} (h : s.oracle.headD false = false) :
    inByte s = takeByte (s.setOracle s.oracle.tail) := by
  simp only [inByte, Op.bind_apply, channel_ok h]

theorem inByte_error {s : State} (h : s.oracle.headD false = true) :
    inByte s = .error (.fault (.ioError s.pc)) (s.setOracle s.oracle.tail) := by
  simp only [inByte, Op.bind_apply, channel_error h]

/-- Everything an InByte that stopped did: it failed and consumed nothing, or the stream is silent. -/
theorem inByte_error_cases {s t : State} {e : Stop} (h : inByte s = .error e t) :
    t = s.setOracle s.oracle.tail ∧
      ((s.oracle.headD false = true ∧ e = .fault (.ioError s.pc)) ∨
        (s.oracle.headD false = false ∧ s.input = [] ∧ s.inputTail = .silent ∧ e = .never)) := by
  cases ho : s.oracle.headD false with
  | true =>
    rw [inByte_error ho] at h
    cases h
    exact ⟨rfl, .inl ⟨rfl, rfl⟩⟩
  | false =>
    rw [inByte_ok ho] at h
    rcases takeByte_cases (s.setOracle s.oracle.tail) with ⟨b, r, _, h2⟩ | ⟨b, r, _, _, h2⟩ | ⟨_, _, h2⟩ | ⟨h3, h4, h2⟩ <;>
      rw [h2] at h <;> cases h
    exact ⟨rfl, .inr ⟨rfl, h3, h4, rfl⟩⟩

/-! ### ReadLine: one turn of its loop -/

theorem readLineFrom_end {n : Nat} {buf : List Byte} {s t : State} (h : inByte s = .ok none t) :
    readLineFrom (n + 1) buf s = .ok buf t := by
  simp only [readLineFrom, Op.bind_apply, h, Op.pure_apply]

theorem readLineFrom_terminator {n : Nat} {buf : List Byte} {s t : State} {b : Byte} (h : inByte s = .ok (some b) t)
    (hb : endsLine b = true) : readLineFrom (n + 1) buf s = .ok buf t := by
  simp only [readLineFrom, Op.bind_apply, h, hb, if_true, Op.pure_apply]

theorem readLineFrom_byte {n : Nat} {buf : List Byte} {s t : State} {b : Byte} (h : inByte s = .ok (some b) t)
    (hb : endsLine b = false) : readLineFrom (n + 1) buf s = readLineFrom n (buf ++ [b]) t := by
  simp only [readLineFrom, Op.bind_apply, h, hb, Bool.false_eq_true, if_false]

theorem readLineFrom_error {n : Nat} {buf : List Byte} {s t : State} {e : Stop} (h : inByte s = .error e t) :
    readLineFrom (n + 1) buf s = .error e t := by
  simp only [readLineFrom, Op.bind_apply, h]

/-! ### Emitting -/

theorem emit_ok {s : State} (h : s.oracle.headD false = false) (b : Byte) :
    emit b s = .ok () ((s.setOracle s.oracle.tail).setOutput (s.output ++ [b])) := by
  simp only [emit, Op.bind_apply, channel_ok h, putByte, State.setOracle_output]

theorem emit_error {s : State} (h : s.oracle.headD false = true) (b : Byte) :
    emit b s = .error (.fault (.ioError s.pc)) (s.setOracle s.oracle.tail) := by
  simp only [emit, Op.bind_apply, channel_error h]

theorem emit_ok_iff {s t : State} {b : Byte} {u : Unit} :
    emit b s = .ok u t ↔
      s.oracle.headD false = false ∧ t = (s.setOracle s.oracle.tail).setOutput (s.output ++ [b]) := by
  cases h : s.oracle.headD false with
  | true => rw [emit_error h]; simp
  | false => rw [emit_ok h]; simp [eq_comm]

/-- A byte whose OutByte fails is not emitted. -/
theorem emit_error_iff {s t : State} {b : Byte} {e : Stop} :
    emit b s = .error e t ↔
      s.oracle.headD false = true ∧ e = .fault (.ioError s.pc) ∧ t = s.setOracle s.oracle.tail := by
  cases h : s.oracle.headD false with
  | true => rw [emit_error h]; simp [eq_comm]
  | false => rw [emit_ok h]; simp

/-- If no operation of the oracle fails, the next one does not. -/
theorem headD_of_noFailure {o : List Bool} (h : ∀ b ∈ o, b = false) : o.headD false = false := by
  cases o with
  | nil => rfl
  | cons b t => exact h b (by simp)

theorem tail_of_noFailure {o : List Bool} (h : ∀ b ∈ o, b = false) : ∀ b ∈ o.tail, b = false :=
  fun b hb => h b (List.mem_of_mem_tail hb)

/-- Emitting bytes without a failure appends them, in order, and uses one oracle answer each. -/
theorem emitAll_ok {s : State} (h : ∀ b ∈ s.oracle, b = false) (bs : List Byte) :
    emitAll bs s = .ok () ((s.setOracle (s.oracle.drop bs.length)).setOutput (s.output ++ bs)) := by
  induction bs generalizing s with
  | nil =>
    simp only [emitAll, Op.pure_apply, List.length_nil, List.drop_zero, List.append_nil]
    rfl
  | cons b bs ih =>
    simp only [emitAll, Op.bind_apply, emit_ok (headD_of_noFailure h)]
    rw [ih (s := (s.setOracle s.oracle.tail).setOutput (s.output ++ [b])) (tail_of_noFailure h)]
    simp only [State.setOutput_oracle, State.setOracle_oracle, State.setOutput_output, List.append_assoc,
      List.singleton_append, List.length_cons, ← List.drop_one, List.drop_drop, Nat.add_comm 1]
    rfl

/-! ### Fetch -/

theorem fetch_ok {s : State} (h : inMemory s.pc = true) : fetch s = .ok (s.mem.readWord s.pc.toNat) := by
  simp only [fetch, h, if_true]

theorem fetch_error {s : State} (h : inMemory s.pc = false) : fetch s = .error (.fetchRange s.pc) := by
  simp [fetch, h]

end Sys2Proof.Machine
end

