-- ==== Sys2Proof/Laws/PerInstr.lean ====
section
/-! SUPPORT. The family `EncodeInOwnRow` of LAWS.json: the canonical word of an instruction lies in the row of the opcode
table that bears its mnemonic (30_encoding.md R60, R65). One lemma per constructor of `Instr`. -/

namespace Sys2Proof.Laws

/-- The canonical word of a well-formed instruction lies in its own row of R60. -/
def EncodeInOwnRow.Statement (i : Instr) : Prop :=
  i.wellFormed = true → ∃ r ∈ opcodeTable, r.mnemonic = i.mnemonic ∧ r.holds (encode i) = true

/-- A row holds a word when the masked word and the pattern are the same number. -/
theorem holds_of_toNat {r : OpcodeRow} {w : Word} (h : (w &&& r.mask).toNat = r.pattern.toNat) : r.holds w = true := by
  simp only [OpcodeRow.holds, decide_eq_true_eq]
  exact BitVec.eq_of_toNat_eq h

theorem EncodeInOwnRow.exit (code : Nat) : EncodeInOwnRow.Statement (.exit code) := by
  intro h
  refine ⟨⟨"Exit", 0xFF000000#32, 0x00000000#32⟩, by decide, rfl, holds_of_toNat ?_⟩
  have hc : code < 256 := of_decide_eq_true h
  simp only [and_FF_toNat, encode, encodeNat]
  rw [bits_ofNat (by omega)]
  simp only [BitVec.toNat_ofNat]
  omega

theorem EncodeInOwnRow.swap (fromOff toOff : Int) : EncodeInOwnRow.Statement (.swap fromOff toOff) := by
  intro h
  refine ⟨⟨"Swap", 0xFF000000#32, 0x01000000#32⟩, by decide, rfl, holds_of_toNat ?_⟩
  have h := field_lt 12 fromOff
  have h' := field_lt 12 toOff
  simp only [and_FF_toNat, encode, encodeNat]
  rw [bits_ofNat (by omega)]
  simp only [BitVec.toNat_ofNat]
  omega

theorem EncodeInOwnRow.nop : EncodeInOwnRow.Statement .nop := by
  intro _
  exact ⟨⟨"Nop", 0xFF000000#32, 0x02000000#32⟩, by decide, rfl, by decide⟩

theorem EncodeInOwnRow.input : EncodeInOwnRow.Statement .input := by
  intro _
  exact ⟨⟨"Input", 0xFF000000#32, 0x04000000#32⟩, by decide, rfl, by decide⟩

theorem EncodeInOwnRow.stinput (max : Nat) : EncodeInOwnRow.Statement (.stinput max) := by
  intro h
  refine ⟨⟨"Stinput", 0xFF000000#32, 0x05000000#32⟩, by decide, rfl, holds_of_toNat ?_⟩
  simp only [Instr.wellFormed, fitsUnsigned, decide_eq_true_eq] at h
  simp only [and_FF_toNat, encode, encodeNat]
  rw [bits_ofNat (by omega)]
  simp only [BitVec.toNat_ofNat]
  omega

theorem EncodeInOwnRow.debug : EncodeInOwnRow.Statement .debug := by
  intro _
  exact ⟨⟨"Debug", 0xFF000000#32, 0x0F000000#32⟩, by decide, rfl, by decide⟩

theorem EncodeInOwnRow.pop (count : Nat) : EncodeInOwnRow.Statement (.pop count) := by
  intro h
  refine ⟨⟨"Pop", 0xF0000000#32, 0x10000000#32⟩, by decide, rfl, holds_of_toNat ?_⟩
  simp only [Instr.wellFormed, fitsUnsigned, decide_eq_true_eq] at h
  simp only [and_F0_toNat, encode, encodeNat]
  rw [bits_ofNat (by omega)]
  simp only [BitVec.toNat_ofNat]
  omega

theorem EncodeInOwnRow.add : EncodeInOwnRow.Statement .add := by
  intro _
  exact ⟨⟨"Add", 0xFF000000#32, 0x20000000#32⟩, by decide, rfl, by decide⟩

theorem EncodeInOwnRow.sub : EncodeInOwnRow.Statement .sub := by
  intro _
  exact ⟨⟨"Sub", 0xFF000000#32, 0x21000000#32⟩, by decide, rfl, by decide⟩

theorem EncodeInOwnRow.mul : EncodeInOwnRow.Statement .mul := by
  intro _
  exact ⟨⟨"Mul", 0xFF000000#32, 0x22000000#32⟩, by decide, rfl, by decide⟩

theorem EncodeInOwnRow.div : EncodeInOwnRow.Statement .div := by
  intro _
  exact ⟨⟨"Div", 0xFF000000#32, 0x23000000#32⟩, by decide, rfl, by decide⟩

theorem EncodeInOwnRow.rem : EncodeInOwnRow.Statement .rem := by
  intro _
  exact ⟨⟨"Rem", 0xFF000000#32, 0x24000000#32⟩, by decide, rfl, by decide⟩

theorem EncodeInOwnRow.and : EncodeInOwnRow.Statement .and := by
  intro _
  exact ⟨⟨"And", 0xFF000000#32, 0x25000000#32⟩, by decide, rfl, by decide⟩

theorem EncodeInOwnRow.or : EncodeInOwnRow.Statement .or := by
  intro _
  exact ⟨⟨"Or", 0xFF000000#32, 0x26000000#32⟩, by decide, rfl, by decide⟩

theorem EncodeInOwnRow.xor : EncodeInOwnRow.Statement .xor := by
  intro _
  exact ⟨⟨"Xor", 0xFF000000#32, 0x27000000#32⟩, by decide, rfl, by decide⟩

theorem EncodeInOwnRow.shl : EncodeInOwnRow.Statement .shl := by
  intro _
  exact ⟨⟨"Shl", 0xFF000000#32, 0x28000000#32⟩, by decide, rfl, by decide⟩

theorem EncodeInOwnRow.logicalShr : EncodeInOwnRow.Statement .logicalShr := by
  intro _
  exact ⟨⟨"LogicalShr", 0xFF000000#32, 0x29000000#32⟩, by decide, rfl, by decide⟩

theorem EncodeInOwnRow.arithmeticShr : EncodeInOwnRow.Statement .arithmeticShr := by
  intro _
  exact ⟨⟨"ArithmeticShr", 0xFF000000#32, 0x2B000000#32⟩, by decide, rfl, by decide⟩

theorem EncodeInOwnRow.negate : EncodeInOwnRow.Statement .negate := by
  intro _
  exact ⟨⟨"Negate", 0xFF000000#32, 0x30000000#32⟩, by decide, rfl, by decide⟩

theorem EncodeInOwnRow.not : EncodeInOwnRow.Statement .not := by
  intro _
  exact ⟨⟨"Not", 0xFF000000#32, 0x31000000#32⟩, by decide, rfl, by decide⟩

theorem EncodeInOwnRow.stprint (off : Nat) : EncodeInOwnRow.Statement (.stprint off) := by
  intro h
  refine ⟨⟨"Stprint", 0xF0000000#32, 0x40000000#32⟩, by decide, rfl, holds_of_toNat ?_⟩
  simp only [Instr.wellFormed, fitsUnsigned, decide_eq_true_eq] at h
  simp only [and_F0_toNat, encode, encodeNat]
  rw [bits_ofNat (by omega)]
  simp only [BitVec.toNat_ofNat]
  omega

theorem EncodeInOwnRow.call (off : Int) : EncodeInOwnRow.Statement (.call off) := by
  intro h
  refine ⟨⟨"Call", 0xF0000000#32, 0x50000000#32⟩, by decide, rfl, holds_of_toNat ?_⟩
  have h := field_lt 26 off
  simp only [and_F0_toNat, encode, encodeNat]
  rw [bits_ofNat (by omega)]
  simp only [BitVec.toNat_ofNat]
  omega

theorem EncodeInOwnRow.ret (extra : Nat) : EncodeInOwnRow.Statement (.ret extra) := by
  intro h
  refine ⟨⟨"Return", 0xF0000000#32, 0x60000000#32⟩, by decide, rfl, holds_of_toNat ?_⟩
  simp only [Instr.wellFormed, fitsUnsigned, decide_eq_true_eq] at h
  simp only [and_F0_toNat, encode, encodeNat]
  rw [bits_ofNat (by omega)]
  simp only [BitVec.toNat_ofNat]
  omega

theorem EncodeInOwnRow.goto (off : Int) : EncodeInOwnRow.Statement (.goto off) := by
  intro h
  refine ⟨⟨"Goto", 0xF0000000#32, 0x70000000#32⟩, by decide, rfl, holds_of_toNat ?_⟩
  have h := field_lt 24 off
  simp only [and_F0_toNat, encode, encodeNat]
  rw [bits_ofNat (by omega)]
  simp only [BitVec.toNat_ofNat]
  omega

theorem EncodeInOwnRow.binaryIfEq (off : Int) : EncodeInOwnRow.Statement (.binaryIfEq off) := by
  intro h
  refine ⟨⟨"BinaryIf.eq", 0xFE000000#32, 0x80000000#32⟩, by decide, rfl, holds_of_toNat ?_⟩
  have h := field_lt 23 off
  simp only [and_FE_toNat, encode, encodeNat]
  rw [bits_ofNat (by omega)]
  simp only [BitVec.toNat_ofNat]
  omega

theorem EncodeInOwnRow.binaryIfNe (off : Int) : EncodeInOwnRow.Statement (.binaryIfNe off) := by
  intro h
  refine ⟨⟨"BinaryIf.ne", 0xFE000000#32, 0x82000000#32⟩, by decide, rfl, holds_of_toNat ?_⟩
  have h := field_lt 23 off
  simp only [and_FE_toNat, encode, encodeNat]
  rw [bits_ofNat (by omega)]
  simp only [BitVec.toNat_ofNat]
  omega

theorem EncodeInOwnRow.binaryIfLt (off : Int) : EncodeInOwnRow.Statement (.binaryIfLt off) := by
  intro h
  refine ⟨⟨"BinaryIf.lt", 0xFE000000#32, 0x84000000#32⟩, by decide, rfl, holds_of_toNat ?_⟩
  have h := field_lt 23 off
  simp only [and_FE_toNat, encode, encodeNat]
  rw [bits_ofNat (by omega)]
  simp only [BitVec.toNat_ofNat]
  omega

theorem EncodeInOwnRow.binaryIfGt (off : Int) : EncodeInOwnRow.Statement (.binaryIfGt off) := by
  intro h
  refine ⟨⟨"BinaryIf.gt", 0xFE000000#32, 0x86000000#32⟩, by decide, rfl, holds_of_toNat ?_⟩
  have h := field_lt 23 off
  simp only [and_FE_toNat, encode, encodeNat]
  rw [bits_ofNat (by omega)]
  simp only [BitVec.toNat_ofNat]
  omega

theorem EncodeInOwnRow.binaryIfLe (off : Int) : EncodeInOwnRow.Statement (.binaryIfLe off) := by
  intro h
  refine ⟨⟨"BinaryIf.le", 0xFE000000#32, 0x88000000#32⟩, by decide, rfl, holds_of_toNat ?_⟩
  have h := field_lt 23 off
  simp only [and_FE_toNat, encode, encodeNat]
  rw [bits_ofNat (by omega)]
  simp only [BitVec.toNat_ofNat]
  omega

theorem EncodeInOwnRow.binaryIfGe (off : Int) : EncodeInOwnRow.Statement (.binaryIfGe off) := by
  intro h
  refine ⟨⟨"BinaryIf.ge", 0xFE000000#32, 0x8A000000#32⟩, by decide, rfl, holds_of_toNat ?_⟩
  have h := field_lt 23 off
  simp only [and_FE_toNat, encode, encodeNat]
  rw [bits_ofNat (by omega)]
  simp only [BitVec.toNat_ofNat]
  omega

theorem EncodeInOwnRow.unaryIfEqz (off : Int) : EncodeInOwnRow.Statement (.unaryIfEqz off) := by
  intro h
  refine ⟨⟨"UnaryIf.eqz", 0xF6000000#32, 0x90000000#32⟩, by decide, rfl, holds_of_toNat ?_⟩
  have h := field_lt 24 off
  simp only [and_F6_toNat, encode, encodeNat]
  rw [bits_ofNat (by omega), bits_ofNat (by omega)]
  simp only [BitVec.toNat_ofNat]
  omega

theorem EncodeInOwnRow.unaryIfNez (off : Int) : EncodeInOwnRow.Statement (.unaryIfNez off) := by
  intro h
  refine ⟨⟨"UnaryIf.nez", 0xF6000000#32, 0x92000000#32⟩, by decide, rfl, holds_of_toNat ?_⟩
  have h := field_lt 24 off
  simp only [and_F6_toNat, encode, encodeNat]
  rw [bits_ofNat (by omega), bits_ofNat (by omega)]
  simp only [BitVec.toNat_ofNat]
  omega

theorem EncodeInOwnRow.unaryIfLtz (off : Int) : EncodeInOwnRow.Statement (.unaryIfLtz off) := by
  intro h
  refine ⟨⟨"UnaryIf.ltz", 0xF6000000#32, 0x94000000#32⟩, by decide, rfl, holds_of_toNat ?_⟩
  have h := field_lt 24 off
  simp only [and_F6_toNat, encode, encodeNat]
  rw [bits_ofNat (by omega), bits_ofNat (by omega)]
  simp only [BitVec.toNat_ofNat]
  omega

theorem EncodeInOwnRow.unaryIfGez (off : Int) : EncodeInOwnRow.Statement (.unaryIfGez off) := by
  intro h
  refine ⟨⟨"UnaryIf.gez", 0xF6000000#32, 0x96000000#32⟩, by decide, rfl, holds_of_toNat ?_⟩
  have h := field_lt 24 off
  simp only [and_F6_toNat, encode, encodeNat]
  rw [bits_ofNat (by omega), bits_ofNat (by omega)]
  simp only [BitVec.toNat_ofNat]
  omega

theorem EncodeInOwnRow.dup (off : Nat) : EncodeInOwnRow.Statement (.dup off) := by
  intro h
  refine ⟨⟨"Dup", 0xF0000000#32, 0xC0000000#32⟩, by decide, rfl, holds_of_toNat ?_⟩
  simp only [Instr.wellFormed, fitsUnsigned, decide_eq_true_eq] at h
  simp only [and_F0_toNat, encode, encodeNat]
  rw [bits_ofNat (by omega)]
  simp only [BitVec.toNat_ofNat]
  omega

theorem EncodeInOwnRow.print (off : Int) : EncodeInOwnRow.Statement (.print off) := by
  intro h
  refine ⟨⟨"Print", 0xF0000000#32, 0xD0000000#32⟩, by decide, rfl, holds_of_toNat ?_⟩
  have h := field_lt 28 off
  simp only [and_F0_toNat, encode, encodeNat]
  rw [bits_ofNat (by omega)]
  simp only [BitVec.toNat_ofNat]
  omega

theorem EncodeInOwnRow.dump : EncodeInOwnRow.Statement .dump := by
  intro _
  exact ⟨⟨"Dump", 0xF0000000#32, 0xE0000000#32⟩, by decide, rfl, by decide⟩

theorem EncodeInOwnRow.push (imm : Int) : EncodeInOwnRow.Statement (.push imm) := by
  intro h
  refine ⟨⟨"Push", 0xF0000000#32, 0xF0000000#32⟩, by decide, rfl, holds_of_toNat ?_⟩
  have h := field_lt 28 imm
  simp only [and_F0_toNat, encode, encodeNat]
  rw [bits_ofNat (by omega)]
  simp only [BitVec.toNat_ofNat]
  omega

end Sys2Proof.Laws
end

