-- ==== Sys2Proof/Tests/Slice0.lean ====
section
/-! SUPPORT. The model's own tests. Expected values are the spec's: the encodings of 30_encoding.md R57 to R60 written out
word by word, the derived vectors V<m>-<n> and examples E<n> of 95_test_vectors.md, and the tables of the rules named. -/

-- One theorem after another: elaborated side by side, they would wait for each other in a thread each.
set_option Elab.async false

namespace Sys2Proof.Tests

open Sys2Proof.Machine

/-! ### Helpers -/

/-- A running machine with the given words in a Memory of zeros. -/
def running (p sp : Int) (words : List (Nat × Word)) : State :=
  { State.reset with pc := p, sp := sp, rs := .running, mem := words.foldr (fun e m => m.writeWord e.1 e.2) [] }

/-- The start state of a single-step vector: word `w` at `Mem[p]` (95_test_vectors.md, conventions). -/
def start (w : Word) (p sp : Int) (words : List (Nat × Word)) : State := running p sp ((p.toNat, w) :: words)

/-- The same with input bytes. -/
def startIn (w : Word) (p sp : Int) (input : List Byte) : State := { start w p sp [] with input := input }

/-- One observation of the state after a step that answers next. -/
def seen {α : Type} (s : State) (f : State → α) : Option α :=
  match step s with
  | .next t => some (f t)
  | .fault _ => none
  | .refused _ => none

/-- What a step of a control transfer shows. -/
def regs (t : State) : Int × Int := (t.pc, t.sp)

/-- What a step of an ALU row shows: `Mem[1023]`, `sp`, `pc`. -/
def top (t : State) : Word × Int × Int := (t.word 1023, t.sp, t.pc)

/-- The start state of an ALU row: `p = 4`, `sp = 1022`, left in 1023, right in 1022. -/
def alu (w l r : Word) : State := start w 4 1022 [(1023, l), (1022, r)]

/-! ### WellFormed refuses what cannot be encoded -/

theorem test_wellFormed_refuses_unsigned :
    Instr.wellFormed (.exit 256) = false ∧ Instr.wellFormed (.stinput 16777216) = false ∧
      Instr.wellFormed (.pop 268435456) = false ∧ Instr.wellFormed (.stprint 268435456) = false ∧
      Instr.wellFormed (.ret 67108864) = false ∧ Instr.wellFormed (.dup 268435456) = false := by decide +kernel

theorem test_wellFormed_refuses_signed :
    Instr.wellFormed (.swap 2048 0) = false ∧ Instr.wellFormed (.swap 0 (-2049)) = false ∧
      Instr.wellFormed (.call 33554432) = false ∧ Instr.wellFormed (.goto (-8388609)) = false ∧
      Instr.wellFormed (.print 134217728) = false ∧ Instr.wellFormed (.push (-134217729)) = false := by decide +kernel

theorem test_wellFormed_refuses_branch_offsets :
    Instr.wellFormed (.binaryIfEq 4194304) = false ∧ Instr.wellFormed (.binaryIfNe 4194304) = false ∧
      Instr.wellFormed (.binaryIfLt (-4194305)) = false ∧ Instr.wellFormed (.binaryIfGt 4194304) = false ∧
      Instr.wellFormed (.binaryIfLe 4194304) = false ∧ Instr.wellFormed (.binaryIfGe (-4194305)) = false ∧
      Instr.wellFormed (.unaryIfEqz 8388608) = false ∧ Instr.wellFormed (.unaryIfNez (-8388609)) = false ∧
      Instr.wellFormed (.unaryIfLtz 8388608) = false ∧ Instr.wellFormed (.unaryIfGez 8388608) = false := by decide +kernel

/-! ### Decode: every constructor, from the spec's encodings (V30) -/

theorem test_decode_misc :
    decode 0x00FFFF07#32 = .ok (.exit 7) ∧ decode 0x01FFC004#32 = .ok (.swap (-4) 4) ∧
      decode 0x02ABCDEF#32 = .ok .nop ∧ decode 0x04000000#32 = .ok .input ∧
      decode 0x0500000A#32 = .ok (.stinput 10) ∧ decode 0x0F123456#32 = .ok .debug := by decide +kernel

theorem test_decode_stack :
    decode 0x1FFFFFFF#32 = .ok (.pop 268435455) ∧ decode 0xC0000004#32 = .ok (.dup 4) ∧
      decode 0xF0000005#32 = .ok (.push 5) ∧ decode 0xF8000000#32 = .ok (.push (-134217728)) := by decide +kernel

theorem test_decode_binary :
    decode 0x20FFFFFF#32 = .ok .add ∧ decode 0x21000000#32 = .ok .sub ∧ decode 0x22000000#32 = .ok .mul ∧
      decode 0x23000000#32 = .ok .div ∧ decode 0x24000000#32 = .ok .rem ∧ decode 0x25000000#32 = .ok .and ∧
      decode 0x26000000#32 = .ok .or ∧ decode 0x27000000#32 = .ok .xor ∧ decode 0x28000000#32 = .ok .shl ∧
      decode 0x29000000#32 = .ok .logicalShr ∧ decode 0x2B000000#32 = .ok .arithmeticShr := by decide +kernel

theorem test_decode_unary : decode 0x30000000#32 = .ok .negate ∧ decode 0x31FFFFFF#32 = .ok .not := by decide +kernel

theorem test_decode_output :
    decode 0x4FFFFFFF#32 = .ok (.stprint 268435455) ∧ decode 0xDFFFFFFC#32 = .ok (.print (-4)) ∧
      decode 0xE1234567#32 = .ok .dump := by decide +kernel

theorem test_decode_transfer :
    decode 0x5C000003#32 = .ok (.call 3) ∧ decode 0x53FFFFFF#32 = .ok (.call (-1)) ∧
      decode 0x6FFFFFFF#32 = .ok (.ret 67108863) ∧ decode 0x73FFFFFC#32 = .ok (.goto (-1)) ∧
      decode 0x7C000007#32 = .ok (.goto 1) := by decide +kernel

theorem test_decode_binaryIf :
    decode 0x80000008#32 = .ok (.binaryIfEq 2) ∧ decode 0x82000008#32 = .ok (.binaryIfNe 2) ∧
      decode 0x8400000B#32 = .ok (.binaryIfLt 2) ∧ decode 0x87FFFFF4#32 = .ok (.binaryIfGt (-3)) ∧
      decode 0x88000014#32 = .ok (.binaryIfLe 5) ∧ decode 0x8BFFFFFC#32 = .ok (.binaryIfGe (-1)) := by decide +kernel

theorem test_decode_unaryIf :
    decode 0x98000002#32 = .ok (.unaryIfEqz 2) ∧ decode 0x92FFFFFD#32 = .ok (.unaryIfNez (-3)) ∧
      decode 0x94000003#32 = .ok (.unaryIfLtz 3) ∧ decode 0x9F000001#32 = .ok (.unaryIfGez 1) := by decide +kernel

theorem test_decode_illegal :
    decode 0x03000000#32 = .error .miscSub ∧ decode 0x0E000000#32 = .error .miscSub ∧
      decode 0x2A000000#32 = .error .binarySub ∧ decode 0x2C000000#32 = .error .binarySub ∧
      decode 0x32000000#32 = .error .unarySub ∧ decode 0x8E000000#32 = .error .comparison ∧
      decode 0xA0000000#32 = .error .unusedGroup ∧ decode 0xBFFFFFFF#32 = .error .unusedGroup := by decide +kernel

/-- The document's fixture in file bytes (E4, R37). -/
theorem test_decode_bytes :
    decodeBytes [0x05#8, 0x00#8, 0x00#8, 0xF0#8] = .ok (.push 5) ∧ decodeBytes [0x05#8] = .error .notAWord ∧
      decodeTableWord 32 0xF0000005 = some (.push 5) := by decide +kernel

/-- R65's formulas on the words of V30. -/
theorem test_encode :
    encode (.swap (-4) 4) = 0x01FFC004#32 ∧ encode (.goto (-1)) = 0x73FFFFFC#32 ∧
      encode (.binaryIfGt (-3)) = 0x87FFFFF4#32 ∧ encode (.unaryIfNez (-3)) = 0x92FFFFFD#32 ∧
      encode (.call (-1)) = 0x53FFFFFF#32 ∧ encode (.print (-4)) = 0xDFFFFFFC#32 ∧
      encode (.push (-1)) = 0xFFFFFFFF#32 := by decide +kernel

/-! ### Miscellaneous group (V41) -/

/-- V41-1. -/
theorem test_exit : seen (start 0x00000005 1 1024 []) (fun t => (t.rs, t.pc)) = some (.halted 5, 1) := by decide +kernel

/-- V41-4. -/
theorem test_swap : seen (start 0x01FFC004 7 1022 [(1021, 0xAA), (1022, 1), (1023, 0xBB)])
    (fun t => (t.word 1021, t.word 1023, t.pc)) = some (0xBB, 0xAA, 8) := by decide +kernel

/-- V41-6: byte offset 3 is word 0, byte offset -4 word -1. -/
theorem test_swap_rounds : seen (start 0x01003FFC 7 1023 [(1023, 9)]) (fun t => (t.word 1022, t.word 1023)) =
    some (9, 0) := by decide +kernel

/-- V41-7. -/
theorem test_nop : seen (start 0x02ABCDEF 7 1010 []) regs = some (8, 1010) := by decide +kernel

/-- V41-9. -/
theorem test_input_trims : seen (startIn 0x04000000 2 1024
      [0x20, 0x20, 0x2D, 0x31, 0x20, 0x0D, 0x0A, 0x72, 0x65, 0x73, 0x74])
    (fun t => (t.word 1023, t.sp, t.consumed, t.input)) =
    some (0xFFFFFFFF, 1023, 7, [0x72, 0x65, 0x73, 0x74]) := by decide +kernel

/-- V41-10: a null byte ends the line. -/
theorem test_input_null : seen (startIn 0x04000000 2 1024 [0x30, 0x78, 0x31, 0x46, 0x00, 0x7A, 0x7A])
    (fun t => (t.word 1023, t.consumed)) = some (0x1F, 5) := by decide +kernel

/-- R29, an endless stream: at each Input a line `12` comes off it, also when the bytes at hand are used up. -/
theorem test_input_endless :
    seen { start 0x04000000 2 1024 [] with inputTail := .repeats 0x31 [0x32, 0x0A] }
        (fun t => (t.word 1023, t.consumed, t.input, t.inputTail)) = some (12, 3, [], .repeats 0x31 [0x32, 0x0A]) ∧
      seen { start 0x04000000 2 1024 [] with input := [0x35], inputTail := .repeats 0x0A [0x31] }
        (fun t => (t.word 1023, t.consumed, t.input)) = some (5, 2, [0x31]) := by decide +kernel

/-- S13: a silent stream, and one without a terminator, leave Input without an end; a failing channel ends it (R12). -/
theorem test_input_never_completes :
    seen { start 0x04000000 2 1024 [] with input := [0x35], inputTail := .silent } (fun t => t.rs) = none ∧
      seen { start 0x04000000 2 1024 [] with inputTail := .repeats 0x35 [] } (fun t => t.rs) = none ∧
      seen { start 0x04000000 2 1024 [] with inputTail := .repeats 0x35 [], oracle := [false, false, true] }
        (fun t => (t.rs, t.consumed)) = some (.faulted (.ioError 2), 2) := by decide +kernel

/-- V41-16. -/
theorem test_stinput : seen (startIn 0x05000010 2 1024
      [0x20, 0x20, 0x68, 0x65, 0x6C, 0x6C, 0x6F, 0x20, 0x0D, 0x0A])
    (fun t => (t.word 1022, t.word 1023, t.sp, t.pc)) = some (0x016C6568, 0x00016F6C, 1022, 3) := by decide +kernel

/-- V41-21: the third push overflows. -/
theorem test_stinput_overflow : seen (startIn 0x05000009 5 2 [0x61, 0x62, 0x63, 0x64, 0x65, 0x66, 0x67, 0x0A])
    (fun t => (t.rs, t.consumed)) = some (.faulted (.stackOverflow 5), 8) := by decide +kernel

/-- V41-22. -/
theorem test_debug : seen (start 0x0F123456 3 1010 []) (fun t => (t.pc, t.sp, t.output)) = some (4, 1010, []) := by
  decide +kernel

/-- The texts of section 2.2 that are numbers. -/
theorem test_parse_some :
    parseInput [0x2D, 0x32, 0x31, 0x34, 0x37, 0x34, 0x38, 0x33, 0x36, 0x34, 0x38] = some 0x80000000 ∧
      parseInput [0x30, 0x62, 0x31, 0x30, 0x31] = some 5 ∧
      parseInput [0x30, 0x78, 0x66, 0x66, 0x46, 0x46, 0x66, 0x66, 0x66, 0x66] = some 0xFFFFFFFF ∧
      parseInput [0x30, 0x30, 0x37] = some 7 := by decide +kernel

/-- The texts of section 2.2 that are none: 2147483648, 0x, 12a, 0X10, +5, 0b2, the empty text. -/
theorem test_parse_none :
    parseInput [0x32, 0x31, 0x34, 0x37, 0x34, 0x38, 0x33, 0x36, 0x34, 0x38] = none ∧ parseInput [0x30, 0x78] = none ∧
      parseInput [0x31, 0x32, 0x61] = none ∧ parseInput [0x30, 0x58, 0x31, 0x30] = none ∧
      parseInput [0x2B, 0x35] = none ∧ parseInput [0x30, 0x62, 0x32] = none ∧ parseInput [] = none := by decide +kernel

/-! ### Stack group (V42) -/

/-- V42-3. -/
theorem test_pop_clamps : seen (start 0x1FFFFFFF 9 1000 []) regs = some (10, 1024) := by decide +kernel

/-- V42-4: 1025 comes back to 1024. -/
theorem test_pop_from_1025 : seen (start 0x10000000 9 1025 []) regs = some (10, 1024) := by decide +kernel

/-- V42-6. -/
theorem test_dup : seen (start 0xC0000004 9 1022 [(1022, 2), (1023, 5)]) (fun t => (t.word 1021, t.sp)) =
    some (5, 1021) := by decide +kernel

/-- V42-9. -/
theorem test_dup_full : seen (start 0xC0000000 9 0 [(0, 0x77)]) (fun t => t.rs) =
    some (.faulted (.stackOverflow 9)) := by decide +kernel

/-- V42-13. -/
theorem test_push_smallest : seen (start 0xF8000000 0 1000 []) (fun t => (t.word 999, t.sp)) =
    some (0xF8000000, 999) := by decide +kernel

/-- V42-17. -/
theorem test_push_above : seen (start 0xF0000009 5 1025 []) (fun t => t.rs) =
    some (.faulted (.memoryRange 5 1024)) := by decide +kernel

/-! ### ALU group (V43) -/

/-- V43-2. -/
theorem test_add : seen (alu 0x20000000 0x7FFFFFFF 1) top = some (0x80000000, 1023, 5) := by decide +kernel

/-- V43-6b: left minus right. -/
theorem test_sub : seen (alu 0x21000000 3 7) top = some (0xFFFFFFFC, 1023, 5) := by decide +kernel

/-- V43-10. -/
theorem test_mul : seen (alu 0x22000000 0x80000000 0xFFFFFFFF) top = some (0x80000000, 1023, 5) := by decide +kernel

/-- V43-12, V43-15. -/
theorem test_div : seen (alu 0x23000000 0xFFFFFFF9 2) top = some (0xFFFFFFFD, 1023, 5) ∧
    seen (alu 0x23000000 0x80000000 0xFFFFFFFF) top = some (0x80000000, 1023, 5) := by decide +kernel

/-- V43-16. -/
theorem test_div_zero : seen (alu 0x23000000 5 0) (fun t => t.rs) = some (.faulted (.divideByZero 4)) := by
  decide +kernel

/-- V43-19, V43-20. -/
theorem test_rem : seen (alu 0x24000000 0xFFFFFFF9 2) top = some (0xFFFFFFFF, 1023, 5) ∧
    seen (alu 0x24000000 7 0xFFFFFFFE) top = some (1, 1023, 5) := by decide +kernel

/-- V43-24, V43-25, V43-26. -/
theorem test_bitwise : seen (alu 0x25000000 0xFF0F 0x0FF0) top = some (0x0F00, 1023, 5) ∧
    seen (alu 0x26000000 0xFF0F 0x0FF0) top = some (0xFFFF, 1023, 5) ∧
    seen (alu 0x27000000 0xFF0F 0x0FF0) top = some (0xF0FF, 1023, 5) := by decide +kernel

/-- V43-30, V43-31. -/
theorem test_shl : seen (alu 0x28000000 0x80000001 1) top = some (2, 1023, 5) ∧
    seen (alu 0x28000000 1 0xFFFFFFFF) top = some (0x80000000, 1023, 5) := by decide +kernel

/-- V43-32, V43-34. -/
theorem test_logicalShr : seen (alu 0x29000000 0xFFFFFFF0 4) top = some (0x0FFFFFFF, 1023, 5) ∧
    seen (alu 0x29000000 0x80000000 0x20) top = some (0x80000000, 1023, 5) := by decide +kernel

/-- V43-36, V43-38. -/
theorem test_arithmeticShr : seen (alu 0x2B000000 0x80000000 0x1F) top = some (0xFFFFFFFF, 1023, 5) ∧
    seen (alu 0x2B000000 0xFFFFFFF9 1) top = some (0xFFFFFFFC, 1023, 5) := by decide +kernel

/-- V43-40, V43-41. -/
theorem test_negate : seen (start 0x30000000 4 1023 [(1023, 5)]) top = some (0xFFFFFFFB, 1023, 5) ∧
    seen (start 0x30000000 4 1023 [(1023, 0x80000000)]) top = some (0x80000000, 1023, 5) := by decide +kernel

/-- V43-43. -/
theorem test_not : seen (start 0x31000000 4 1023 [(1023, 0xFF00)]) top = some (0xFFFF00FF, 1023, 5) := by
  decide +kernel

/-- V43-45: one word only. -/
theorem test_add_one_word : seen (start 0x20000000 4 1023 [(1023, 5)]) (fun t => t.rs) =
    some (.faulted (.memoryRange 4 1024)) := by decide +kernel

/-! ### Control group (V44) -/

/-- V44-2. -/
theorem test_call : seen (start 0x53FFFFFE 10 1024 []) (fun t => (t.word 1023, t.sp, t.pc)) =
    some (0x0B, 1023, 8) := by decide +kernel

/-- V44-6: no wrap of a far target. -/
theorem test_call_far : seen (start 0x52000000 10 1024 []) regs = some (-33554422, 1023) := by decide +kernel

/-- V44-8, V44-9. -/
theorem test_return : seen (start 0x60000008 30 1021 [(1021, 9)]) regs = some (9, 1024) ∧
    seen (start 0x60000008 30 1022 [(1022, 9)]) regs = some (9, 1025) := by decide +kernel

/-- V44-12: the address is taken whole. -/
theorem test_return_far : seen (start 0x60000000 30 1023 [(1023, 0x00010005)]) regs = some (65541, 1024) := by
  decide +kernel

/-- V44-19. -/
theorem test_goto : seen (start 0x73FFFFFC 0 1024 []) regs = some (-1, 1024) := by decide +kernel

/-- V44-21, V44-22. -/
theorem test_binaryIf_eq : seen (start 0x80000008 2 1022 [(1023, 3), (1022, 3)]) regs = some (4, 1022) ∧
    seen (start 0x80000008 2 1022 [(1023, 4), (1022, 3)]) regs = some (3, 1022) := by decide +kernel

/-- V44-23, V44-24. -/
theorem test_binaryIf_ne : seen (start 0x82000008 2 1022 [(1023, 4), (1022, 3)]) regs = some (4, 1022) ∧
    seen (start 0x82000008 2 1022 [(1023, 3), (1022, 3)]) regs = some (3, 1022) := by decide +kernel

/-- V44-26, V44-27b. -/
theorem test_binaryIf_lt : seen (start 0x84000008 2 1022 [(1023, 0xFFFFFFFF), (1022, 0)]) regs = some (4, 1022) ∧
    seen (start 0x84000008 2 1022 [(1023, 3), (1022, 0)]) regs = some (3, 1022) := by decide +kernel

/-- V44-28, V44-29. -/
theorem test_binaryIf_gt : seen (start 0x87FFFFF4 10 1022 [(1023, 5), (1022, 3)]) regs = some (7, 1022) ∧
    seen (start 0x86000008 2 1022 [(1023, 0x80000000), (1022, 1)]) regs = some (3, 1022) := by decide +kernel

/-- V44-30, V44-31. -/
theorem test_binaryIf_le : seen (start 0x88000014 0 1022 [(1023, 3), (1022, 3)]) regs = some (5, 1022) ∧
    seen (start 0x88000014 0 1022 [(1023, 4), (1022, 3)]) regs = some (1, 1022) := by decide +kernel

/-- V44-32, V44-33. -/
theorem test_binaryIf_ge : seen (start 0x8A000014 0 1022 [(1023, 2), (1022, 3)]) regs = some (1, 1022) ∧
    seen (start 0x8A000014 0 1022 [(1023, 3), (1022, 3)]) regs = some (5, 1022) := by decide +kernel

/-- V44-37, V44-38. -/
theorem test_unaryIf_eqz : seen (start 0x90000002 4 1023 [(1023, 0)]) regs = some (6, 1023) ∧
    seen (start 0x90000002 4 1023 [(1023, 1)]) regs = some (5, 1023) := by decide +kernel

/-- V44-39, V44-40. -/
theorem test_unaryIf_nez : seen (start 0x92FFFFFD 4 1023 [(1023, 2)]) regs = some (1, 1023) ∧
    seen (start 0x92FFFFFD 4 1023 [(1023, 0)]) regs = some (5, 1023) := by decide +kernel

/-- V44-41, V44-42. -/
theorem test_unaryIf_ltz : seen (start 0x94000003 0 1023 [(1023, 0x80000000)]) regs = some (3, 1023) ∧
    seen (start 0x94000003 0 1023 [(1023, 0)]) regs = some (1, 1023) := by decide +kernel

/-- V44-43, V44-44. -/
theorem test_unaryIf_gez : seen (start 0x96000003 0 1023 [(1023, 0)]) regs = some (3, 1023) ∧
    seen (start 0x96000003 0 1023 [(1023, 0xFFFFFFFF)]) regs = some (1, 1023) := by decide +kernel

/-! ### Output group (V45, V60) -/

/-- V45-2 and V45-8b: bit 24 continues, byte 3 is never printed. -/
theorem test_stprint : seen (start 0x40000000 1 1022 [(1022, 0x016C6568), (1023, 0x00016F6C)]) (fun t => t.output) =
      some [0x68, 0x65, 0x6C, 0x6C, 0x6F] ∧
    seen (start 0x40000000 1 1022 [(1022, 0xFF424242), (1023, 0x43)]) (fun t => t.output) =
      some [0x42, 0x42, 0x42, 0x43, 0x00, 0x00] := by decide +kernel

/-- V45-4 and V60-8: the offset is never negative, and a flush that fails is IoError with nothing printed. -/
theorem test_stprint_bounds : seen (start 0x4FFFFFFC 1 1023 [(1023, 0x00016968)]) (fun t => (t.output, t.pc)) =
      some ([], 2) ∧
    seen { start 0x40000000 1 1023 [] with oracle := [true] } (fun t => t.rs) = some (.faulted (.ioError 1)) := by
  decide +kernel

/-- V45-18, V45-15, V45-16. -/
theorem test_print : seen (start 0xD0000000 1 1023 [(1023, 0x80000000)]) (fun t => t.output) =
      some [0x2D, 0x32, 0x31, 0x34, 0x37, 0x34, 0x38, 0x33, 0x36, 0x34, 0x38, 0x0A] ∧
    seen (start 0xDFFFFFFF 1 1023 [(1023, 8)]) (fun t => t.output) = some [0x31, 0x30, 0x0A] ∧
    seen (start 0xDFFFFFFC 1 1023 [(1022, 0x4D), (1023, 8)]) (fun t => t.output) = some [0x37, 0x37, 0x0A] := by
  decide +kernel

/-- V60-6 and V60-7: no byte for a failed OutByte; MemoryRange before any output. -/
theorem test_print_faults : seen { start 0xD0000000 1 1023 [] with oracle := [true] } (fun t => (t.rs, t.output)) =
      some (.faulted (.ioError 1), []) ∧
    seen { start 0xD0000000 1 1024 [] with oracle := [true] } (fun t => (t.rs, t.oracle)) =
      some (.faulted (.memoryRange 1 1024), [true]) := by decide +kernel

/-- V45-22. -/
theorem test_dump : seen (start 0xE1234567 1 1023 [(1023, 0xFFFFFFFF)]) (fun t => (t.output, t.pc)) =
    some ([0x30, 0x30, 0x30, 0x30, 0x3A, 0x20, 0x66, 0x66, 0x66, 0x66, 0x66, 0x66, 0x66, 0x66, 0x0A], 2) := by
  decide +kernel

/-- V60-9: an empty stack makes no channel operation. -/
theorem test_dump_empty : seen { start 0xE0000000 1 1024 [] with oracle := [true] }
    (fun t => (t.rs, t.output, t.oracle)) = some (.running, [], [true]) := by decide +kernel

/-! ### Fetch, load, start (V60, V20) -/

/-- V60-1, V60-2, V60-3. -/
theorem test_fetch_faults : seen (running 1024 1024 []) (fun t => t.rs) = some (.faulted (.fetchRange 1024)) ∧
    seen (running (-1) 1024 []) (fun t => t.rs) = some (.faulted (.fetchRange (-1))) ∧
    seen (start 0xA0000000 5 1024 []) (fun t => t.rs) = some (.faulted (.illegalInstruction 5 0xA0000000)) := by
  decide +kernel

/-- V20-1, V20-2, V20-5: two bad programs, and the empty one, which halts at once with code 0. -/
theorem test_load : (load [] State.reset).1 = .badProgram ∧ (load [0xDEADBEEE, 1] State.reset).1 = .badProgram ∧
    (boot [0xDEADBEEF] [] .ends []).bind (fun s => seen s (fun t => t.rs)) = some (.halted 0) := by decide +kernel

/-- R187: attached channels stay; the second attach is refused and changes nothing. -/
theorem test_attach_twice :
    attach [1] .ends [] (attach [0x35] .silent [true] (load [0xDEADBEEF] State.reset).2).2 =
      (.refused, { State.reset with
        rs := .loaded, input := [0x35], inputTail := .silent, oracle := [true], attached := true }) := by
  decide +kernel

/-- E4: the document's file, `Push 5` then `Exit 5`, and V20-6, the same with its last byte missing. -/
theorem test_load_file :
    ((loadFile [0xEF, 0xBE, 0xAD, 0xDE, 0x05, 0x00, 0x00, 0xF0, 0x05, 0x00, 0x00, 0x00] State.reset).2.word 0,
      (loadFile [0xEF, 0xBE, 0xAD, 0xDE, 0x05, 0x00, 0x00, 0xF0, 0x05, 0x00, 0x00, 0x00] State.reset).2.word 1) =
      (0xF0000005, 0x00000005) ∧
    (loadFile [0xEF, 0xBE, 0xAD, 0xDE, 0x05, 0x00, 0x00, 0xF0, 0x05, 0x00, 0x00] State.reset).1 = .badProgram := by
  decide +kernel

/-- `withFetchWord` makes the next step from reset run the word. -/
theorem test_withFetchWord : seen (State.reset.withFetchWord 32 0xF0000005) (fun t => (t.word 1023, t.sp, t.pc)) =
    some (5, 1023, 1) := by decide +kernel

/-! ### Witnesses: for every statement with hypotheses, a state and operands that meet them, clause by clause -/

/-- A running machine in which no channel fails, with one word on the stack. -/
def one : State := running 5 1023 [(1023, 7)]

/-- The same with two words. -/
def two : State := running 5 1022 [(1022, 7), (1023, 9)]

/-- An Input whose line never ends. -/
def waiting : State := { start 0x04000000 5 1024 [] with input := [0x31], inputTail := .repeats 0x32 [0x33] }

/-- The state a step answers, as data that can be compared. -/
def answer : Host.Outcome State Fault Refusal → Option State
  | .next t => some t
  | .fault _ => none
  | .refused _ => none

theorem next_of_answer {o : Host.Outcome State Fault Refusal} {t : State} (h : answer o = some t) : o = .next t := by
  cases o with
  | next u => exact congrArg _ (Option.some.inj h)
  | fault f => cases h
  | refused r => cases h

/-- An empty stack and the input line `12`. -/
def reading : State := { running 5 1024 [] with input := [0x31, 0x32, 0x0A, 0x33] }

theorem witness_DecodeOfEncodeIsIdentity :
    Instr.wellFormed (.swap (-2048) 2047) = true ∧ Instr.wellFormed (.exit 255) = true ∧
      Instr.wellFormed (.push (-134217728)) = true := by decide

theorem witness_DecodedInstructionsAreWellFormed : decode 0xF8000000#32 = .ok (.push (-134217728)) := by
  decide +kernel

theorem witness_ExactlyTheIgnoredBitsAreIgnored :
    decode 0x02ABCDEF#32 = .ok .nop ∧
      0x02000000#32 &&& (Instr.nop.opcodeMask ||| Instr.nop.operandMask) =
        0x02ABCDEF#32 &&& (Instr.nop.opcodeMask ||| Instr.nop.operandMask) := by decide +kernel

theorem witness_LoadCopiesTheProgram :
    State.reset.rs = .constructed ∧ State.reset.mem.wf = true ∧
      (Config.magic :: List.replicate 1024 5#32).head? = some 0xDEADBEEF#32 ∧
      (Config.magic :: List.replicate 1024 5#32).length ≤ 1025 ∧
      (Config.magic :: List.replicate 1024 5#32)[1023 + 1]? = some 5#32 ∧
      ¬ ((Config.magic :: List.replicate 1025 5#32).head? = some 0xDEADBEEF#32 ∧
        (Config.magic :: List.replicate 1025 5#32).length ≤ 1025) := by decide +kernel

theorem witness_HostOperationsNeedTheirRunState :
    one.rs ≠ .constructed ∧ one.rs ≠ .loaded ∧ { one with rs := .loaded }.rs = .loaded ∧
      { one with rs := .loaded }.attached = false ∧ { one with rs := .loaded, attached := true }.attached = true := by
  decide +kernel

theorem witness_FileBytesMakeLittleEndianWords :
    [1#8, 2, 3, 4].length % 4 = 0 ∧ fileWords [1#8, 2, 3, 4] = some [0x04030201#32] ∧
      [0x04030201#32][0]? = some 0x04030201#32 ∧ [1#8, 2, 3].length % 4 ≠ 0 ∧ [1#8].length % 4 ≠ 0 := by
  decide +kernel

theorem witness_StepRunsTheDecodedInstruction :
    (start 0x02000000 1023 1024 []).rs = .running ∧ 0 ≤ (start 0x02000000 1023 1024 []).pc ∧
      (start 0x02000000 1023 1024 []).pc ≤ 1023 ∧
      decode ((start 0x02000000 1023 1024 []).word (start 0x02000000 1023 1024 []).pc) = .ok .nop := by decide +kernel

theorem witness_FetchReadsMemoryOrFaults :
    0 ≤ (running 1023 0 []).pc ∧ (running 1023 0 []).pc ≤ 1023 ∧
      ((running 1024 0 []).pc < 0 ∨ 1023 < (running 1024 0 []).pc) ∧ (running 1024 0 []).rs = .running ∧
      ((running (-1) 0 []).pc < 0 ∨ 1023 < (running (-1) 0 []).pc) := by decide +kernel

theorem witness_IllegalWordFaultsBeforeAnyChange :
    (start 0xA0000000 0 1024 []).rs = .running ∧ 0 ≤ (start 0xA0000000 0 1024 []).pc ∧
      (start 0xA0000000 0 1024 []).pc ≤ 1023 ∧
      decode ((start 0xA0000000 0 1024 []).word (start 0xA0000000 0 1024 []).pc) = .error .unusedGroup := by
  decide +kernel

/-- The endless line of `waiting` never completes, nor does a silent stream whose failing InByte is never reached. -/
theorem waiting_lineNever : waiting.lineNever ∧
    { waiting with inputTail := .silent, oracle := [false, false, true] }.lineNever :=
  ⟨⟨by decide +kernel, fun k h => absurd h (by simp [waiting, start, running, State.reset])⟩, by decide +kernel,
    fun k h => match k, h with
      | 2, _ => ⟨1, by decide, by decide +kernel⟩⟩

theorem witness_EveryRunningStepAnswersNext :
    waiting.rs = .running ∧ waiting.waitsForEver ∧ one.rs = .running ∧ ¬ one.waitsForEver :=
  ⟨by decide +kernel, ⟨by decide +kernel, by decide +kernel, ⟨.input, by decide +kernel, rfl⟩, waiting_lineNever.1⟩,
    by decide +kernel, fun h => absurd h.2.2.2.1 (by decide +kernel)⟩

theorem witness_RunStateChangesOnlyByExitOrFault :
    step (start 0x000000FF 0 1024 []) = .next { start 0x000000FF 0 1024 [] with rs := .halted 255 } ∧
      step (running 1024 1024 []) = .next { running 1024 1024 [] with rs := .faulted (.fetchRange 1024) } ∧
      { one with rs := .halted 255 }.rs = .halted 255 ∧
      { one with rs := .faulted (.ioError 0) }.rs = .faulted (.ioError 0) ∧
      (State.reset.rs = .constructed ∨ State.reset.rs = .loaded) := by
  exact ⟨next_of_answer (by decide +kernel), next_of_answer (by decide +kernel), by decide +kernel,
    by decide +kernel, by decide +kernel⟩

theorem witness_PlainInstructionsAdvanceByOne :
    Instr.setsPc .nop = false ∧ one.rs = .running ∧ exec .nop one = .next { one with pc := 6 } ∧
      { one with pc := 6 }.rs = .running := by
  exact ⟨by decide +kernel, by decide +kernel, next_of_answer (by decide +kernel), by decide +kernel⟩

theorem witness_StepKeepsTheInvariant :
    (start 0x02000000 0 1025 []).Inv ∧
      step (start 0x02000000 0 1025 []) = .next { start 0x02000000 0 1025 [] with pc := 1 } := by
  refine ⟨⟨by decide +kernel, ?_, ?_⟩, next_of_answer (by decide +kernel)⟩
  · intro c h; exact absurd h (by simp [start, running])
  · intro _; unfold State.spInRange State.pcInRange; decide +kernel

theorem witness_BootedMachineSatisfiesTheInvariant :
    boot [0xDEADBEEF#32, 0xF0000005#32] [0x31] (.repeats 0x0A []) [true] =
      some { State.reset with
        mem := [(0, 5#8), (3, 0xF0#8)], rs := .running, input := [0x31], inputTail := .repeats 0x0A [],
        oracle := [true], attached := true } := by
  decide +kernel

theorem witness_EveryRunHasASafeOutcome :
    boot [0xDEADBEEF#32] [] .silent [] = some { State.reset with
      rs := .running, inputTail := .silent, attached := true } := by
  decide +kernel

theorem witness_CanonicalMemoryIsUnique :
    Memory.wf [(0, 1#8), (4095, 2#8)] = true ∧
      ∀ a, Memory.readByte [(0, 1#8), (4095, 2#8)] a = Memory.readByte [(0, 1#8), (4095, 2#8)] a :=
  ⟨by decide, fun _ => rfl⟩

theorem witness_InstructionsKeepWhatTheyDoNotWrite :
    exec (.goto (-3)) one = .next { one with pc := 2 } ∧ { one with pc := 2 }.unfaulted = true ∧
      Instr.keepsSp (.goto (-3)) = true ∧ Instr.keepsMemory (.goto (-3)) = true := by
  exact ⟨next_of_answer (by decide +kernel), by decide +kernel, by decide +kernel, by decide +kernel⟩

theorem witness_OutputOnlyGrowsByOutputInstructions :
    exec (.pop 4) one = .next { one with pc := 6, sp := 1024 } ∧ Instr.writesOutput (.pop 4) = false ∧
      exec (.print 0) one = .next { one with pc := 6, output := [0x37#8, 0x0A#8] } := by
  exact ⟨next_of_answer (by decide +kernel), by decide +kernel, next_of_answer (by decide +kernel)⟩

theorem witness_InputIsConsumedInOrderByReaders :
    exec .nop reading = .next { reading with pc := 6 } ∧ Instr.readsInput .nop = false ∧
      exec (.stinput 0) reading =
        .next { reading with pc := 6, sp := 1023, input := [0x33#8], consumed := 3 } := by
  exact ⟨next_of_answer (by decide +kernel), by decide +kernel, next_of_answer (by decide +kernel)⟩

theorem witness_InputIsInvisibleToOtherInstructions :
    Instr.readsInput (.pop 4) = false ∧ exec (.pop 4) one = .next { one with pc := 6, sp := 1024 } ∧
      { one with pc := 6, sp := 1024 }.unfaulted = true := by
  exact ⟨by decide +kernel, next_of_answer (by decide +kernel), by decide +kernel⟩

theorem witness_InstructionsRaiseOnlyTheirFaults :
    one.rs = .running ∧ one.spInRange ∧
      exec (.print 4) one = .next { one with rs := .faulted (.memoryRange 5 1024) } ∧
      { one with rs := .faulted (.memoryRange 5 1024) }.rs = .faulted (.memoryRange 5 1024) := by
  unfold State.spInRange
  exact ⟨by decide +kernel, by decide +kernel, next_of_answer (by decide +kernel), by decide +kernel⟩

theorem witness_PushPrimitiveChecksThenWrites :
    one.mem.wf = true ∧ (running 5 0 []).sp ≤ 0 ∧ 1 ≤ (running 5 1 []).sp ∧ (running 5 1 []).sp ≤ 1024 ∧
      1 ≤ (running 5 1024 []).sp ∧ (running 5 1024 []).sp ≤ 1024 ∧ (running 5 1025 []).sp = 1025 := by decide +kernel

theorem witness_ReadLineTakesOneLine :
    reading.lineEnds = true ∧ reading.noFailure ∧ reading.line[1]? = some 0x32#8 ∧
      waiting.lineEnds = false ∧ waiting.lineNever ∧ Instr.readsInput .input = true ∧
      { reading with oracle := [true] }.oracle = List.replicate 0 false ++ true :: [] ∧
      (∀ j, j < 2 → ∃ b, reading.incoming j = .byte b ∧ b ≠ 0x0A#8 ∧ b ≠ 0x00#8) ∧
      { reading with oracle := [false, false, true, false] }.oracle = List.replicate 2 false ++ true :: [false] := by
  have h : ∀ j, j < 2 → ∃ b, reading.incoming j = .byte b ∧ b ≠ 0x0A#8 ∧ b ≠ 0x00#8
    | 0, _ => ⟨0x31, by decide +kernel⟩
    | 1, _ => ⟨0x32, by decide +kernel⟩
  unfold State.noFailure
  exact ⟨by decide +kernel, by decide +kernel, by decide +kernel, by decide +kernel, waiting_lineNever.1, by decide +kernel,
    by decide +kernel, h, by decide +kernel⟩

theorem witness_SwapExchangesTwoWords :
    stackIndex two (-1) = 1022 ∧ stackIndex two (-3) = 1022 ∧ stackIndex two (-4) = 1021 ∧ stackIndex two 3 = 1022 ∧
      stackIndex two 0 = 1022 ∧ stackIndex two 4 = 1023 ∧ two.mem.wf = true ∧
    (0 : Int) ≤ stackIndex (running 5 0 []) 0 ∧
      stackIndex two 4 ≤ 1023 := by decide +kernel

theorem witness_OffsetsOutsideMemoryFault :
    1023 < stackIndex one 4 ∧ stackIndex (running 5 0 []) (-4) < 0 ∧ 0 ≤ stackIndex one 0 ∧
    stackIndex one 0 ≤ 1023 := by
  decide +kernel

theorem witness_InputPushesTheNumberOfTheLine :
    reading.mem.wf = true ∧ reading.hasRoom ∧ reading.noFailure ∧ reading.lineEnds = true ∧
      parseInput (trim reading.line) = some 12#32 := by
  unfold State.hasRoom State.noFailure; decide +kernel

theorem witness_LineReadersFaultAfterTakingTheLine :
    { reading with input := [0x2B] }.noFailure ∧ { reading with input := [0x2B] }.lineEnds = true ∧
      { reading with sp := 0 }.lineEnds = true ∧ parseInput (trim { reading with input := [0x2B] }.line) = none ∧
      { reading with sp := 0 }.noFailure ∧ parseInput (trim { reading with sp := 0 }.line) = some 12#32 ∧
      { reading with sp := 0 }.sp ≤ 0 ∧ lineString 2 { reading with sp := 0 }.line = [0x31#8, 0x32#8] ∧
      0 ≤ { reading with sp := 0 }.sp ∧ { reading with sp := 0 }.sp ≤ 1024 ∧
      { reading with sp := 0 }.sp < (((if [0x31#8, 0x32#8] = [] then 1 else (2 + 2) / 3) : Nat) : Int) := by
  unfold State.noFailure; decide +kernel

theorem witness_StinputPacksTheLine :
    lineString 2 reading.line = [0x31#8, 0x32#8] ∧ (1 : Nat) = (if [0x31#8, 0x32#8] = [] then 1 else (2 + 2) / 3) ∧
      reading.mem.wf = true ∧ reading.noFailure ∧ reading.lineEnds = true ∧ ((1 : Nat) : Int) ≤ reading.sp ∧ reading.sp ≤ 1024 ∧
      lineString 0 reading.line = [] := by
  unfold State.noFailure; decide +kernel

theorem witness_StinputThenStprintPrintsTheLine :
    lineString 2 reading.line = [0x31#8, 0x32#8] ∧ reading.mem.wf = true ∧ reading.noFailure ∧ reading.lineEnds = true ∧
      (((if [0x31#8, 0x32#8] = [] then 1 else (2 + 2) / 3) : Nat) : Int) ≤ reading.sp ∧ reading.sp ≤ 1024 := by
  unfold State.noFailure; decide +kernel

theorem witness_PopClampsTheStackPointer : 0x1FFFFFFF#32 &&& 0xF0000000#32 = 0x10000000#32 := by decide

theorem witness_DupPushesACopy :
    two.mem.wf = true ∧ 1 ≤ two.sp ∧ two.sp + ((4 / 4 : Nat) : Int) ≤ 1023 ∧ 1 ≤ (running 5 1 []).sp := by
  decide +kernel

theorem witness_DupFaultsInOrder :
    0 ≤ one.sp ∧ 1023 < one.sp + ((4 / 4 : Nat) : Int) ∧ 0 ≤ (running 5 0 []).sp ∧
      (running 5 0 []).sp + ((4092 / 4 : Nat) : Int) ≤ 1023 ∧ (running 5 0 []).sp = 0 := by decide +kernel

theorem witness_PushStoresItsImmediate :
    0xF8000000#32 &&& 0xF0000000#32 = 0xF0000000#32 ∧ one.mem.wf = true ∧ one.hasRoom ∧ (running 5 1 []).hasRoom ∧
      (running 5 0 []).sp ≤ 0 := by
  unfold State.hasRoom; decide +kernel

theorem witness_PushedWordIsFetchedNext :
    (start 0xF0000005 1022 1024 []).mem.wf = true ∧ (start 0xF0000005 1022 1024 []).rs = .running ∧
      0 ≤ (start 0xF0000005 1022 1024 []).pc ∧ (start 0xF0000005 1022 1024 []).pc ≤ 1022 ∧
      (start 0xF0000005 1022 1024 []).sp = (start 0xF0000005 1022 1024 []).pc + 2 ∧
      decode ((start 0xF0000005 1022 1024 []).word (start 0xF0000005 1022 1024 []).pc) = .ok (.push 5) := by
  decide +kernel

/-- For AddSubMulWrap, BitwiseOperationsWorkBitByBit and BinaryIfBranchesOnSignedComparison. -/
theorem witness_two_operands :
    two.word (two.sp + 1) = 9#32 ∧ two.word two.sp = 7#32 ∧ two.mem.wf = true ∧ two.hasTwo ∧
    (running 5 0 []).hasTwo := by
  unfold State.hasTwo; decide +kernel

theorem witness_DivAndRemRoundTowardZero : two.mem.wf = true ∧ two.hasTwo ∧ two.word two.sp ≠ 0#32 := by
  unfold State.hasTwo; decide +kernel

theorem witness_DivisionByZeroFaults : (running 5 1022 [(1023, 9)]).hasTwo ∧
    (running 5 1022 [(1023, 9)]).word (running 5 1022 [(1023, 9)]).sp = 0#32 := by
  unfold State.hasTwo; decide +kernel

theorem witness_ShiftsUseTheLowFiveBits : 7 = (two.word two.sp).toNat % 32 ∧ two.mem.wf = true ∧ two.hasTwo := by
  unfold State.hasTwo; decide +kernel

/-- For NegateAndNotReplaceTheTop, ReturnTakesTheTopWord and UnaryIfBranchesOnTheTopWord. -/
theorem witness_one_operand : one.mem.wf = true ∧ one.hasOne ∧ (running 5 0 []).hasOne ∧ one.word one.sp = 7#32 := by
  unfold State.hasOne; decide +kernel

theorem witness_MissingOperandsFault :
    (Instr.isBinary .add = true ∨ Instr.isBinaryIf .add = true) ∧
      (Instr.isBinary (.binaryIfGe 0) = true ∨ Instr.isBinaryIf (.binaryIfGe 0) = true) ∧
      1023 < (running 5 1024 []).sp ∧ (running 5 1023 []).sp = 1023 ∧ Instr.readsTopOnly (.ret 0) = true := by
  decide +kernel

theorem witness_CallPushesTheReturnAddress :
    0x53FFFFFF#32 &&& 0xF0000000#32 = 0x50000000#32 ∧ one.mem.wf = true ∧ one.hasRoom ∧ (running 5 0 []).sp ≤ 0 := by
  unfold State.hasRoom; decide +kernel

theorem witness_ReturnUndoesCall :
    one.mem.wf = true ∧ one.hasRoom ∧ 0 ≤ one.pc ∧ one.pc ≤ 1023 ∧
      ∃ t, exec (.call 3) one = .next t ∧ t.sp = t.sp ∧ t.word t.sp = t.word t.sp := by
  unfold State.hasRoom
  exact ⟨by decide +kernel, by decide +kernel, by decide +kernel, by decide +kernel,
    running 8 1022 [(1022, 6), (1023, 7)], next_of_answer (by decide +kernel), rfl, rfl⟩

theorem witness_GotoMovesOnlyPc :
    0x73FFFFFC#32 &&& 0xF0000000#32 = 0x70000000#32 ∧ one.rs = .running ∧
      ({ one with pc := one.pc + (-6) }.pc < 0 ∨ 1023 < { one with pc := one.pc + (-6) }.pc) ∧
      1023 < { one with pc := one.pc + 1019 }.pc := by decide +kernel

theorem witness_PushesAboveTheEmptyStackFault :
    { reading with sp := 1025 }.sp = 1025 ∧ { reading with sp := 1025 }.noFailure ∧
      { reading with sp := 1025 }.lineEnds = true ∧
      parseInput (trim { reading with sp := 1025 }.line) = some 12#32 := by
  unfold State.noFailure; decide +kernel

theorem witness_StprintEmitsThePackedString :
    stackIndex one 0 = one.sp + ((0 / 4 : Nat) : Int) ∧ 0 ≤ one.sp ∧ one.noFailure ∧
      packedText (one.wordsUp 1023 (1024 - (1023 : Int)).toNat) = [7#8, 0#8, 0#8] := by
  unfold State.noFailure; decide +kernel

theorem witness_PrintEmitsALine :
    BitVec.msb 7#32 = false ∧ BitVec.msb 0x80000000#32 = true ∧ one.sp + Int.tdiv (-1) 4 = 1023 ∧ 0 ≤ stackIndex one 0 ∧ stackIndex one 0 ≤ 1023 ∧ one.noFailure ∧
    formatPrint ((0 : Int) % 4).toNat (one.word 1023) ++ [0x0A#8] =
      [0x37#8, 0x0A#8] := by
  unfold State.noFailure; decide +kernel

theorem witness_DumpEmitsTheStack :
    1023 ≤ 1023 ∧ 1024 ≤ reading.sp ∧ one.hasOne ∧ one.noFailure ∧ (one.dumpText (1024 - one.sp).toNat).length = 15 := by
  unfold State.hasOne State.noFailure; decide +kernel

theorem witness_FailingChannelKeepsEmittedBytes :
    0 ≤ stackIndex one 0 ∧ stackIndex one 0 ≤ 1023 ∧
      formatPrint ((0 : Int) % 4).toNat (one.word (stackIndex one 0)) ++ [0x0A#8] = [0x37#8, 0x0A#8] ∧
      0 ≤ one.sp ∧ one.hasOne ∧
      { one with oracle := [true] }.oracle = List.replicate 0 false ++ true :: [] ∧
      { one with oracle := [false, false, true] }.oracle =
        List.replicate [0x37#8, 0x0A#8].length false ++ true :: [] := by
  unfold State.hasOne; decide +kernel

end Sys2Proof.Tests
end

section
/-! The statements about Load (20_memory.md section 7): which sequences are programs, what Load answers for each kind,
and what it leaves in Memory. -/

namespace Sys2Proof.Machine

/-! ### Memory behind a loaded program -/

/-- Cells outside a loaded range are left alone. -/
theorem Memory.readByte_writeWords_other (m : Memory) (ws : List Word) {i a : Nat}
    (ha : a < 4 * i ∨ 4 * (i + ws.length) ≤ a) : (m.writeWords i ws).readByte a = m.readByte a := by
  induction ws generalizing i with
  | nil => rfl
  | cons w ws ih =>
    simp only [List.length_cons] at ha
    calc ((m.writeWords (i + 1) ws).writeWord i w).readByte a
        = (m.writeWords (i + 1) ws).readByte a := Memory.readByte_writeWord_other _ _ (by omega)
      _ = m.readByte a := ih (by omega)

/-! ### Which sequences are programs, and what Load answers -/

theorem programWords_magic_cons {ws : List Word} (h : ws.length ≤ 1024) :
    programWords (Config.magic :: ws) = some ws :=
  if_pos ⟨rfl, h⟩

/-- R49: a wrong first word, no word at all, or too many words behind the first. -/
theorem programWords_eq_none {p : List Word} (h : ¬ (p.head? = some Config.magic ∧ p.length ≤ 1025)) :
    programWords p = none := by
  cases p with
  | nil => rfl
  | cons w ws =>
    refine if_neg fun ⟨hw, hlen⟩ => h ⟨congrArg some hw, ?_⟩
    exact Nat.succ_le_succ hlen

theorem load_of_program {p ws : List Word} {s : State} (hrs : s.rs = .constructed) (hp : programWords p = some ws) :
    load p s = (.ok, (s.setMem (s.mem.writeWords 0 ws)).setRs .loaded) := by
  simp only [load, if_pos hrs, hp]

theorem load_of_not_program {p : List Word} {s : State} (hrs : s.rs = .constructed) (hp : programWords p = none) :
    load p s = (.badProgram, s) := by
  simp only [load, if_pos hrs, hp]

/-- Settles O8: a program is the magic word in front of its words, which `writeWords` puts at `Mem[0..]`. -/
theorem loadCopiesTheProgram : Obligations.LoadCopiesTheProgram := by
  intro p s hrs hwf
  refine ⟨fun hmagic hlen => ?_, fun h => load_of_not_program hrs (programWords_eq_none h)⟩
  obtain ⟨ws, rfl⟩ : ∃ ws, p = Config.magic :: ws := List.head?_eq_some_iff.mp hmagic
  have hws : ws.length ≤ 1024 := Nat.le_of_succ_le_succ hlen
  refine ⟨_, load_of_program hrs (programWords_magic_cons hws), rfl, rfl, rfl, ⟨⟨rfl, rfl, rfl, rfl⟩, rfl, rfl⟩,
    fun k w hk => ?copied, fun a ha => ?behind⟩
  case copied =>
    obtain ⟨hlt, rfl⟩ := List.getElem?_eq_some_iff.mp (List.getElem?_cons_succ.symm.trans hk)
    have hword := Memory.readWord_writeWords_same hwf ws (i := 0) (by omega) hlt
    rwa [Nat.zero_add] at hword
  case behind =>
    simp only [List.length_cons] at ha
    exact Memory.readByte_writeWords_other s.mem ws (by omega)

end Sys2Proof.Machine
end

section
/-! The statement about the Fetch phase (40_execution_cycle.md R81), and what a step of the running engine does with its
answer. -/

namespace Sys2Proof.Machine

/-- R80: the run state Running is the one in which a step is a cycle. -/
theorem step_of_running {s : State} (hrs : s.rs = .running) : step s = cycle s := by
  simp only [step, hrs]

/-- A fault of the fetch ends the cycle before Decode. -/
theorem cycle_of_fetch_error {s : State} {f : RunFault} (hf : fetch s = .error f) :
    cycle s = .next (takeFault f s) := by
  simp only [cycle, hf]

/-- Settles O12: `inMemory pc` decides which of its two answers the fetch gives, and a cycle takes the fault as it is. -/
theorem fetchReadsMemoryOrFaults : Obligations.FetchReadsMemoryOrFaults := by
  intro s
  constructor
  case left =>
    intro hlo hhi
    exact fetch_ok ((inMemory_iff s.pc).2 ⟨hlo, hhi⟩)
  case right =>
    intro hout hrs
    have hfetch : fetch s = .error (.fetchRange s.pc) := fetch_error ((inMemory_eq_false s.pc).2 hout)
    calc step s = cycle s := step_of_running hrs
      _ = .next (takeFault (.fetchRange s.pc) s) := cycle_of_fetch_error hfetch

end Sys2Proof.Machine
end

section
/-! The statement about Pop (42_stack.md R105): the words of group 0x1, where Pop leaves `sp`, and its execution. -/

namespace Sys2Proof.Machine

/-! ### Fields of a word -/

/-- The masked form of the group test is the decoder's own field `W[31:28]`. -/
theorem bits_group_of_and_mask {w g : Word} (h : w &&& 0xF0000000#32 = g) : bits w 31 28 = g.toNat / 268435456 := by
  rw [← h, and_F0_toNat]
  exact (Nat.mul_div_cancel _ (by decide)).symm

/-- `W[n-1:0]` of R8 is the bit vector's own slice of the low `n` bits. -/
theorem bits_low_eq_extractLsb' (w : Word) {n : Nat} (hn : 0 < n) : bits w (n - 1) 0 = (w.extractLsb' 0 n).toNat := by
  rw [BitVec.extractLsb'_toNat, bits, Nat.sub_add_cancel hn, Nat.shiftRight_zero, pow_zero, Nat.div_one, Nat.sub_zero]

theorem decode_of_group_pop {w : Word} (h : bits w 31 28 = 1) : decode w = .ok (.pop (bits w 27 0)) := by
  simp only [decode, h]

/-! ### Executing Pop -/

theorem exec_pop (count : Nat) (s : State) : exec (.pop count) s = execPop count s := rfl

/-- On a byte count, which is never negative, R13's rounding is the division of naturals. -/
theorem widx_natCast (n : Nat) : widx n = ((n / 4 : Nat) : Int) := by
  rw [widx_nonneg (Int.natCast_nonneg n)]
  rfl

theorem popSp_eq (sp : Int) (count : Nat) : popSp sp count = max 0 (min (sp + ((count / 4 : Nat) : Int)) 1024) := by
  rw [popSp, widx_natCast]
  rfl

/-- Pop writes `sp` and then advances; neither operation can raise. -/
theorem execPop_eq (count : Nat) (s : State) :
    execPop count s = .next ((s.setSp (popSp s.sp count)).setPc (s.pc + 1)) := by
  refine complete_ok ?_
  rw [Op.bind_ok _ (putSp_apply _ s), advance_apply, State.setSp_pc]

/-- Settles O38: group 0x1 selects Pop with the word's low 28 bits, and Pop is the clamped write of `sp` before the
advance. -/
theorem popClampsTheStackPointer : Obligations.PopClampsTheStackPointer := by
  constructor
  case left =>
    intro w hw
    have hgroup : bits w 31 28 = 1 := bits_group_of_and_mask hw
    rw [decode_of_group_pop hgroup, bits_low_eq_extractLsb' w (n := 28) (by decide)]
  case right =>
    intro count s
    rw [exec_pop, execPop_eq, popSp_eq]
    rfl

end Sys2Proof.Machine
end

section
/-! The statements about the codec (30_encoding.md): which word is which instruction, said once by the fields of the word
(`Instr.readFrom`), and the decoder, the encoder, the masks and the opcode table read through it. -/

namespace Sys2Proof

/-! ### Fields and masks -/

theorem bits_and (w m : Word) (hi lo : Nat) : bits (w &&& m) hi lo = bits w hi lo &&& bits m hi lo := by
  simp only [bits, BitVec.toNat_and, ← Nat.shiftRight_eq_div_pow, Nat.shiftRight_and_distrib, Nat.and_mod_two_pow]

/-- A mask that covers a field keeps it. -/
theorem bits_and_of_covered (w : Word) {m : Word} {hi lo : Nat} (h : bits m hi lo = 2 ^ (hi + 1 - lo) - 1) :
    bits (w &&& m) hi lo = bits w hi lo := by
  rw [bits_and, h, Nat.and_two_pow_sub_one_eq_mod, Nat.mod_eq_of_lt (bits_lt w hi lo)]

/-- A mask that misses a field clears it. -/
theorem bits_and_of_missed (w : Word) {m : Word} {hi lo : Nat} (h : bits m hi lo = 0) :
    bits (w &&& m) hi lo = 0 := by
  rw [bits_and, h, Nat.and_zero]

theorem toNat_eq_bits (w : Word) : w.toNat = bits w 31 0 := by
  have := w.isLt
  rw [bits, pow_zero, Nat.div_one, Nat.mod_eq_of_lt this]

/-- A field cut in two, its upper part from bit `mid + 1` on. -/
theorem bits_cut (hi cut mid lo : Nat) {w : Word} (h : lo ≤ mid ∧ mid ≤ hi ∧ mid + 1 = cut) :
    bits w hi lo = bits w hi cut * 2 ^ (cut - lo) + bits w mid lo := by
  obtain ⟨hlo, hhi, rfl⟩ := h
  have hwidth : 2 ^ (hi + 1 - lo) = 2 ^ (mid + 1 - lo) * 2 ^ (hi + 1 - (mid + 1)) := by
    rw [← pow_add]
    congr 1
    omega
  have hplace : 2 ^ (mid + 1) = 2 ^ lo * 2 ^ (mid + 1 - lo) := by
    rw [← pow_add]
    congr 1
    omega
  rw [bits, bits, bits, hwidth, Nat.mod_mul, hplace, Nat.div_div_eq_div_mul, Nat.add_comm, Nat.mul_comm]

/-- The field of R65 undoes sign extension. -/
theorem field_sext {n v : Nat} (h : v < 2 ^ n) : field n (sext n v) = v := by
  have hv : (v : Int) < 2 ^ n := by exact_mod_cast h
  have hmod : sext n v % 2 ^ n = v := by
    unfold sext
    split
    · exact Int.emod_eq_of_lt (Int.natCast_nonneg v) hv
    · rw [Int.sub_emod_right, Int.emod_eq_of_lt (Int.natCast_nonneg v) hv]
  rw [field, hmod, Int.toNat_natCast]

/-- A field that holds an operand in range sign-extends to it. -/
theorem sext_bits_of_field {w : Word} {hi lo n : Nat} {x : Int} (hn : 0 < n) (hx : fitsSigned n x = true)
    (hw : bits w hi lo = field n x) : sext n (bits w hi lo) = x := by
  obtain ⟨hlo, hhi⟩ := of_decide_eq_true hx
  rw [hw, sext_field hn hlo hhi]

theorem fitsUnsigned_bits (w : Word) (hi lo : Nat) : fitsUnsigned (hi + 1 - lo) (bits w hi lo) = true :=
  decide_eq_true (bits_lt w hi lo)

theorem fitsSigned_sext_bits (w : Word) {hi lo : Nat} (h : lo ≤ hi) :
    fitsSigned (hi + 1 - lo) (sext (hi + 1 - lo) (bits w hi lo)) = true :=
  decide_eq_true (sext_range (by omega) (bits_lt w hi lo))

/-! ### The decoder, read by fields -/

/-- The fields of `w` select the instruction (R59) and hold its operands (R58). -/
def Instr.readFrom (w : Word) : Instr → Prop
  | .exit code => bits w 31 28 = 0 ∧ bits w 27 24 = 0 ∧ bits w 7 0 = code
  | .swap fromOff toOff =>
    bits w 31 28 = 0 ∧ bits w 27 24 = 1 ∧ sext 12 (bits w 23 12) = fromOff ∧ sext 12 (bits w 11 0) = toOff
  | .nop => bits w 31 28 = 0 ∧ bits w 27 24 = 2
  | .input => bits w 31 28 = 0 ∧ bits w 27 24 = 4
  | .stinput max => bits w 31 28 = 0 ∧ bits w 27 24 = 5 ∧ bits w 23 0 = max
  | .debug => bits w 31 28 = 0 ∧ bits w 27 24 = 15
  | .pop count => bits w 31 28 = 1 ∧ bits w 27 0 = count
  | .add => bits w 31 28 = 2 ∧ bits w 27 24 = 0
  | .sub => bits w 31 28 = 2 ∧ bits w 27 24 = 1
  | .mul => bits w 31 28 = 2 ∧ bits w 27 24 = 2
  | .div => bits w 31 28 = 2 ∧ bits w 27 24 = 3
  | .rem => bits w 31 28 = 2 ∧ bits w 27 24 = 4
  | .and => bits w 31 28 = 2 ∧ bits w 27 24 = 5
  | .or => bits w 31 28 = 2 ∧ bits w 27 24 = 6
  | .xor => bits w 31 28 = 2 ∧ bits w 27 24 = 7
  | .shl => bits w 31 28 = 2 ∧ bits w 27 24 = 8
  | .logicalShr => bits w 31 28 = 2 ∧ bits w 27 24 = 9
  | .arithmeticShr => bits w 31 28 = 2 ∧ bits w 27 24 = 11
  | .negate => bits w 31 28 = 3 ∧ bits w 27 24 = 0
  | .not => bits w 31 28 = 3 ∧ bits w 27 24 = 1
  | .stprint off => bits w 31 28 = 4 ∧ bits w 27 0 = off
  | .call off => bits w 31 28 = 5 ∧ sext 26 (bits w 25 0) = off
  | .ret extra => bits w 31 28 = 6 ∧ bits w 25 0 = extra
  | .goto off => bits w 31 28 = 7 ∧ sext 24 (bits w 25 2) = off
  | .binaryIfEq off => bits w 31 28 = 8 ∧ bits w 27 25 = 0 ∧ sext 23 (bits w 24 2) = off
  | .binaryIfNe off => bits w 31 28 = 8 ∧ bits w 27 25 = 1 ∧ sext 23 (bits w 24 2) = off
  | .binaryIfLt off => bits w 31 28 = 8 ∧ bits w 27 25 = 2 ∧ sext 23 (bits w 24 2) = off
  | .binaryIfGt off => bits w 31 28 = 8 ∧ bits w 27 25 = 3 ∧ sext 23 (bits w 24 2) = off
  | .binaryIfLe off => bits w 31 28 = 8 ∧ bits w 27 25 = 4 ∧ sext 23 (bits w 24 2) = off
  | .binaryIfGe off => bits w 31 28 = 8 ∧ bits w 27 25 = 5 ∧ sext 23 (bits w 24 2) = off
  | .unaryIfEqz off => bits w 31 28 = 9 ∧ bits w 26 25 = 0 ∧ sext 24 (bits w 23 0) = off
  | .unaryIfNez off => bits w 31 28 = 9 ∧ bits w 26 25 = 1 ∧ sext 24 (bits w 23 0) = off
  | .unaryIfLtz off => bits w 31 28 = 9 ∧ bits w 26 25 = 2 ∧ sext 24 (bits w 23 0) = off
  | .unaryIfGez off => bits w 31 28 = 9 ∧ bits w 26 25 = 3 ∧ sext 24 (bits w 23 0) = off
  | .dup off => bits w 31 28 = 12 ∧ bits w 27 0 = off
  | .print off => bits w 31 28 = 13 ∧ sext 28 (bits w 27 0) = off
  | .dump => bits w 31 28 = 14
  | .push imm => bits w 31 28 = 15 ∧ sext 28 (bits w 27 0) = imm

theorem readFrom_of_decodeMisc {w : Word} {i : Instr} (hg : bits w 31 28 = 0) (h : decodeMisc w = .ok i) :
    i.readFrom w := by
  unfold decodeMisc at h
  split at h <;> cases h <;> rename_i hsub <;> simp [Instr.readFrom, hg, hsub]

theorem readFrom_of_decodeBinary {w : Word} {i : Instr} (hg : bits w 31 28 = 2) (h : decodeBinary w = .ok i) :
    i.readFrom w := by
  unfold decodeBinary at h
  split at h <;> cases h <;> rename_i hsub <;> exact ⟨hg, hsub⟩

theorem readFrom_of_decodeUnary {w : Word} {i : Instr} (hg : bits w 31 28 = 3) (h : decodeUnary w = .ok i) :
    i.readFrom w := by
  unfold decodeUnary at h
  split at h <;> cases h <;> rename_i hsub <;> exact ⟨hg, hsub⟩

theorem readFrom_of_decodeBinaryIf {w : Word} {i : Instr} (hg : bits w 31 28 = 8) (h : decodeBinaryIf w = .ok i) :
    i.readFrom w := by
  unfold decodeBinaryIf at h
  split at h <;> cases h <;> rename_i hsub <;> exact ⟨hg, hsub, rfl⟩

theorem readFrom_decodeUnaryIf {w : Word} (hg : bits w 31 28 = 9) : (decodeUnaryIf w).readFrom w := by
  have hlt : bits w 26 25 < 4 := bits_lt w 26 25
  have hsub : bits w 26 25 = 0 ∨ bits w 26 25 = 1 ∨ bits w 26 25 = 2 ∨ bits w 26 25 = 3 := by omega
  rcases hsub with hsub | hsub | hsub | hsub <;> simp [decodeUnaryIf, Instr.readFrom, hg, hsub]

/-- Each group's decoder reads the fields of its instructions. -/
theorem readFrom_of_decode {w : Word} {i : Instr} (h : decode w = .ok i) : i.readFrom w := by
  unfold decode at h
  split at h <;> rename_i hg
  case h_1 => exact readFrom_of_decodeMisc hg h
  case h_3 => exact readFrom_of_decodeBinary hg h
  case h_4 => exact readFrom_of_decodeUnary hg h
  case h_9 => exact readFrom_of_decodeBinaryIf hg h
  case h_10 =>
    cases h
    exact readFrom_decodeUnaryIf hg
  all_goals cases h <;> simp [Instr.readFrom, hg]

/-- The selecting fields of an instruction lead the decoder to it. -/
theorem decode_of_readFrom {w : Word} {i : Instr} (h : i.readFrom w) : decode w = .ok i := by
  cases i with
  | exit | stinput =>
    obtain ⟨hg, hsub, hop⟩ := h
    simp [decode, decodeMisc, hg, hsub, hop]
  | swap =>
    obtain ⟨hg, hsub, hfrom, hto⟩ := h
    simp only [decode, decodeMisc, hg, hsub, hfrom, hto]
  | nop | input | debug => simp only [decode, decodeMisc, h.1, h.2]
  | add | sub | mul | div | rem | and | or | xor | shl | logicalShr | arithmeticShr =>
    simp only [decode, decodeBinary, h.1, h.2]
  | negate | not => simp only [decode, decodeUnary, h.1, h.2]
  | binaryIfEq | binaryIfNe | binaryIfLt | binaryIfGt | binaryIfLe | binaryIfGe =>
    obtain ⟨hg, hsub, hoff⟩ := h
    simp only [decode, decodeBinaryIf, hg, hsub, hoff]
  | unaryIfEqz | unaryIfNez | unaryIfLtz | unaryIfGez =>
    obtain ⟨hg, hsub, hoff⟩ := h
    simp only [decode, decodeUnaryIf, hg, hsub, hoff]
  | pop | stprint | call | ret | goto | dup | print | push => simp only [decode, h.1, h.2]
  | dump =>
    have hg : bits w 31 28 = 14 := h
    simp only [decode, hg]

theorem decode_eq_ok_iff {w : Word} {i : Instr} : decode w = .ok i ↔ i.readFrom w :=
  ⟨readFrom_of_decode, decode_of_readFrom⟩

/-! ### Round trip, operand ranges -/

/-- The canonical word of a well-formed instruction holds its selecting fields and its operands. -/
theorem readFrom_encode {i : Instr} (h : i.wellFormed = true) : i.readFrom (encode i) := by
  cases i with
  | dump => exact (by decide : bits (encode .dump) 31 28 = 14)
  | nop | input | debug => exact ⟨by decide, by decide⟩
  | add | sub | mul | div | rem | and | or | xor | shl | logicalShr | arithmeticShr => exact ⟨by decide, by decide⟩
  | negate | not => exact ⟨by decide, by decide⟩
  | exit code =>
    have hlt : code < 256 := of_decide_eq_true h
    simp (disch := omega) only [Instr.readFrom, encode, encodeNat, bits_ofNat]
    omega
  | stinput | pop | stprint | ret | dup =>
    have hlt := of_decide_eq_true h
    simp (disch := omega) only [Instr.readFrom, encode, encodeNat, bits_ofNat]
    omega
  | swap fromOff toOff =>
    obtain ⟨hfrom, hto⟩ := Bool.and_eq_true_iff.mp h
    have := field_lt 12 fromOff
    have := field_lt 12 toOff
    refine ⟨?_, ?_, sext_bits_of_field (by decide) hfrom ?_, sext_bits_of_field (by decide) hto ?_⟩ <;>
      simp (disch := omega) only [encode, encodeNat, bits_ofNat] <;> omega
  | call off | goto off | print off | push off =>
    have := field_lt 24 off
    have := field_lt 26 off
    have := field_lt 28 off
    refine ⟨?_, sext_bits_of_field (by decide) h ?_⟩ <;>
      simp (disch := omega) only [encode, encodeNat, bits_ofNat] <;> omega
  | binaryIfEq off | binaryIfNe off | binaryIfLt off | binaryIfGt off | binaryIfLe off | binaryIfGe off
  | unaryIfEqz off | unaryIfNez off | unaryIfLtz off | unaryIfGez off =>
    have := field_lt 23 off
    have := field_lt 24 off
    refine ⟨?_, ?_, sext_bits_of_field (by decide) h ?_⟩ <;>
      simp (disch := omega) only [encode, encodeNat, bits_ofNat] <;> omega

/-- Settles O1: the canonical word holds the fields by which the decoder selects the instruction and reads its
operands. -/
theorem decodeOfEncodeIsIdentity : Obligations.DecodeOfEncodeIsIdentity := by
  intro i h
  exact decode_of_readFrom (readFrom_encode h)

/-- Settles O2: every operand is a field of the word, sign-extended or not, and a field has the width R58 gives it. -/
theorem decodedInstructionsAreWellFormed : Obligations.DecodedInstructionsAreWellFormed := by
  intro w i h
  have hi : i.readFrom w := readFrom_of_decode h
  cases i with
  | nop | input | debug | dump => rfl
  | add | sub | mul | div | rem | and | or | xor | shl | logicalShr | arithmeticShr | negate | not => rfl
  | swap =>
    obtain ⟨_, _, rfl, rfl⟩ := hi
    exact Bool.and_eq_true_iff.mpr
      ⟨fitsSigned_sext_bits w (hi := 23) (lo := 12) (by decide), fitsSigned_sext_bits w (hi := 11) (lo := 0) (by decide)⟩
  | exit =>
    obtain ⟨_, _, rfl⟩ := hi
    exact fitsUnsigned_bits w 7 0
  | stinput =>
    obtain ⟨_, _, rfl⟩ := hi
    exact fitsUnsigned_bits w 23 0
  | pop | stprint | dup =>
    obtain ⟨_, rfl⟩ := hi
    exact fitsUnsigned_bits w 27 0
  | ret =>
    obtain ⟨_, rfl⟩ := hi
    exact fitsUnsigned_bits w 25 0
  | call =>
    obtain ⟨_, rfl⟩ := hi
    exact fitsSigned_sext_bits w (hi := 25) (lo := 0) (by decide)
  | goto =>
    obtain ⟨_, rfl⟩ := hi
    exact fitsSigned_sext_bits w (hi := 25) (lo := 2) (by decide)
  | print | push =>
    obtain ⟨_, rfl⟩ := hi
    exact fitsSigned_sext_bits w (hi := 27) (lo := 0) (by decide)
  | binaryIfEq | binaryIfNe | binaryIfLt | binaryIfGt | binaryIfLe | binaryIfGe =>
    obtain ⟨_, _, rfl⟩ := hi
    exact fitsSigned_sext_bits w (hi := 24) (lo := 2) (by decide)
  | unaryIfEqz | unaryIfNez | unaryIfLtz | unaryIfGez =>
    obtain ⟨_, _, rfl⟩ := hi
    exact fitsSigned_sext_bits w (hi := 23) (lo := 0) (by decide)

/-! ### Ignored bits -/

/-- The opcode and operand bits of an instruction. -/
def Instr.usedMask (i : Instr) : Word := i.opcodeMask ||| i.operandMask

/-- The used bits cover every field the decoder reads for the instruction. -/
theorem readFrom_and_usedMask (w : Word) (i : Instr) : i.readFrom (w &&& i.usedMask) ↔ i.readFrom w := by
  cases i <;> simp (disch := decide) only [Instr.readFrom, Instr.usedMask, Instr.opcodeMask, Instr.operandMask,
    bits_and_of_covered]

/-- A word that holds an instruction, cleared of its ignored bits, is the canonical word: cut into its fields, the two are
the same sum. -/
theorem encode_eq_of_readFrom {w : Word} {i : Instr} (h : i.readFrom w) : encode i = w &&& i.usedMask := by
  have hused : i.readFrom (w &&& i.usedMask) := (readFrom_and_usedMask w i).mpr h
  have ignored (hi lo : Nat) (hm : bits i.usedMask hi lo = 0) : bits (w &&& i.usedMask) hi lo = 0 :=
    bits_and_of_missed w hm
  generalize w &&& i.usedMask = c at hused ignored
  suffices hsum : encodeNat i = c.toNat by rw [encode, hsum, BitVec.ofNat_toNat, BitVec.setWidth_eq]
  rw [toNat_eq_bits, bits_cut 31 28 27 0 (by decide)]
  cases i <;> simp only [Instr.usedMask, Instr.opcodeMask, Instr.operandMask] at ignored
  case exit =>
    obtain ⟨hg, hsub, rfl⟩ := hused
    rw [bits_cut 27 24 23 0 (by decide), bits_cut 23 8 7 0 (by decide), hg, hsub,
      ignored 23 8 (by decide), encodeNat]
    omega
  case swap =>
    obtain ⟨hg, hsub, rfl, rfl⟩ := hused
    rw [bits_cut 27 24 23 0 (by decide), bits_cut 23 12 11 0 (by decide), hg, hsub, encodeNat,
      field_sext (bits_lt c 23 12), field_sext (bits_lt c 11 0)]
    omega
  case stinput =>
    obtain ⟨hg, hsub, rfl⟩ := hused
    rw [bits_cut 27 24 23 0 (by decide), hg, hsub, encodeNat]
    omega
  case nop | input | debug | add | sub | mul | div | rem | and | or | xor | shl | logicalShr | arithmeticShr |
      negate | not =>
    obtain ⟨hg, hsub⟩ := hused
    rw [bits_cut 27 24 23 0 (by decide), hg, hsub, ignored 23 0 (by decide)]
    rfl
  case pop | stprint | dup =>
    obtain ⟨hg, rfl⟩ := hused
    rw [hg, encodeNat]
    omega
  case ret =>
    obtain ⟨hg, rfl⟩ := hused
    rw [bits_cut 27 26 25 0 (by decide), hg, ignored 27 26 (by decide), encodeNat]
    omega
  case call =>
    obtain ⟨hg, rfl⟩ := hused
    rw [bits_cut 27 26 25 0 (by decide), hg, ignored 27 26 (by decide), encodeNat, field_sext (bits_lt c 25 0)]
    omega
  case goto =>
    obtain ⟨hg, rfl⟩ := hused
    rw [bits_cut 27 26 25 0 (by decide), bits_cut 25 2 1 0 (by decide), hg,
      ignored 27 26 (by decide), ignored 1 0 (by decide), encodeNat, field_sext (bits_lt c 25 2)]
    omega
  case binaryIfEq | binaryIfNe | binaryIfLt | binaryIfGt | binaryIfLe | binaryIfGe =>
    obtain ⟨hg, hsub, rfl⟩ := hused
    rw [bits_cut 27 25 24 0 (by decide), bits_cut 24 2 1 0 (by decide), hg, hsub,
      ignored 1 0 (by decide), encodeNat, field_sext (bits_lt c 24 2)]
    omega
  case unaryIfEqz | unaryIfNez | unaryIfLtz | unaryIfGez =>
    obtain ⟨hg, hsub, rfl⟩ := hused
    rw [bits_cut 27 27 26 0 (by decide), bits_cut 26 25 24 0 (by decide),
      bits_cut 24 24 23 0 (by decide), hg, hsub, ignored 27 27 (by decide), ignored 24 24 (by decide),
      encodeNat, field_sext (bits_lt c 23 0)]
    omega
  case print | push =>
    obtain ⟨hg, rfl⟩ := hused
    rw [hg, encodeNat, field_sext (bits_lt c 27 0)]
    omega
  case dump =>
    have hg : bits c 31 28 = 14 := hused
    rw [hg, ignored 27 0 (by decide)]
    rfl

/-- Settles O5: the fields that select an instruction and hold its operands lie in its used bits, and the canonical word
holds them and nothing else. -/
theorem exactlyTheIgnoredBitsAreIgnored : Obligations.ExactlyTheIgnoredBitsAreIgnored := by
  intro w i h
  have hi : i.readFrom w := readFrom_of_decode h
  refine ⟨encode_eq_of_readFrom hi, fun w' hw' => decode_of_readFrom ?_⟩
  have hmask : w' &&& i.usedMask = w &&& i.usedMask := hw'
  rw [← readFrom_and_usedMask, hmask, readFrom_and_usedMask]
  exact hi

end Sys2Proof
end

section
/-! The statements about the opcode table and the illegal words (30_encoding.md R60, R62). -/

namespace Sys2Proof

/-! ### The illegal words -/

theorem decodeMisc_eq_error_iff {w : Word} {e : DecodeError} :
    decodeMisc w = .error e ↔
      e = .miscSub ∧ bits w 27 24 ∈ [0x3, 0x6, 0x7, 0x8, 0x9, 0xA, 0xB, 0xC, 0xD, 0xE] := by
  have hlt : bits w 27 24 < 16 := bits_lt w 27 24
  generalize hn : bits w 27 24 = n at hlt
  interval_cases n <;> simp [decodeMisc, hn, eq_comm]

theorem decodeBinary_eq_error_iff {w : Word} {e : DecodeError} :
    decodeBinary w = .error e ↔ e = .binarySub ∧ bits w 27 24 ∈ [0xA, 0xC, 0xD, 0xE, 0xF] := by
  have hlt : bits w 27 24 < 16 := bits_lt w 27 24
  generalize hn : bits w 27 24 = n at hlt
  interval_cases n <;> simp [decodeBinary, hn, eq_comm]

theorem decodeUnary_eq_error_iff {w : Word} {e : DecodeError} :
    decodeUnary w = .error e ↔ e = .unarySub ∧ 0x2 ≤ bits w 27 24 := by
  have hlt : bits w 27 24 < 16 := bits_lt w 27 24
  generalize hn : bits w 27 24 = n at hlt
  interval_cases n <;> simp [decodeUnary, hn, eq_comm]

theorem decodeBinaryIf_eq_error_iff {w : Word} {e : DecodeError} :
    decodeBinaryIf w = .error e ↔ e = .comparison ∧ (bits w 27 25 = 6 ∨ bits w 27 25 = 7) := by
  have hlt : bits w 27 25 < 8 := bits_lt w 27 25
  generalize hn : bits w 27 25 = n at hlt
  interval_cases n <;> simp [decodeBinaryIf, hn, eq_comm]

/-- R62: a word is rejected by its group's decoder, or because its group is unused. -/
theorem decode_eq_error_iff {w : Word} {e : DecodeError} :
    decode w = .error e ↔
      (e = .unusedGroup ∧ (bits w 31 28 = 0xA ∨ bits w 31 28 = 0xB)) ∨
      (bits w 31 28 = 0x0 ∧ decodeMisc w = .error e) ∨
      (bits w 31 28 = 0x2 ∧ decodeBinary w = .error e) ∨
      (bits w 31 28 = 0x3 ∧ decodeUnary w = .error e) ∨
      (bits w 31 28 = 0x8 ∧ decodeBinaryIf w = .error e) := by
  have hlt : bits w 31 28 < 16 := bits_lt w 31 28
  generalize hn : bits w 31 28 = n at hlt
  interval_cases n <;> simp [decode, hn, eq_comm]

/-- Settles O4: the group says which decoder rejects a word, and each rejects by one name only. -/
theorem illegalWordsAreRejectedByName : Obligations.IllegalWordsAreRejectedByName := by
  intro w
  simp [decode_eq_error_iff, decodeMisc_eq_error_iff, decodeBinary_eq_error_iff, decodeUnary_eq_error_iff,
    decodeBinaryIf_eq_error_iff]

/-! ### The opcode table -/

/-- The word of a top byte, every other bit 0. -/
def topWord (b : Nat) : Word := BitVec.ofNat 32 (b * 16777216)

theorem topWord_bits (w : Word) : topWord (bits w 31 24) = w &&& 0xFF000000#32 := by
  have hlt : bits w 31 24 < 256 := bits_lt w 31 24
  apply BitVec.eq_of_toNat_eq
  rw [and_FF_toNat, topWord, BitVec.toNat_ofNat]
  omega

/-- The mask of every row lies in the top byte, so a row sees nothing else of a word. -/
theorem holds_and_topMask {r : OpcodeRow} (h : r ∈ opcodeTable) (w : Word) : r.holds (w &&& 0xFF000000#32) = r.holds w := by
  have hmask : ∀ r ∈ opcodeTable, 0xFF000000#32 &&& r.mask = r.mask := by decide
  rw [OpcodeRow.holds, OpcodeRow.holds, BitVec.and_assoc, hmask r h]

/-- The mnemonic of a decoded word, as a list. -/
def decodedNames : Except DecodeError Instr → List String
  | .ok i => [i.mnemonic]
  | .error _ => []

section
variable {w w' : Word}

theorem decodedNames_decodeMisc_congr (h : bits w' 27 24 = bits w 27 24) :
    decodedNames (decodeMisc w') = decodedNames (decodeMisc w) := by
  unfold decodeMisc
  rw [h]
  split <;> simp only [decodedNames, Instr.mnemonic]

theorem decodeBinary_congr (h : bits w' 27 24 = bits w 27 24) : decodeBinary w' = decodeBinary w := by
  simp only [decodeBinary, h]

theorem decodeUnary_congr (h : bits w' 27 24 = bits w 27 24) : decodeUnary w' = decodeUnary w := by
  simp only [decodeUnary, h]

theorem decodedNames_decodeBinaryIf_congr (h : bits w' 27 25 = bits w 27 25) :
    decodedNames (decodeBinaryIf w') = decodedNames (decodeBinaryIf w) := by
  unfold decodeBinaryIf
  rw [h]
  split <;> simp only [decodedNames, Instr.mnemonic]

theorem mnemonic_decodeUnaryIf_congr (h : bits w' 26 25 = bits w 26 25) :
    (decodeUnaryIf w').mnemonic = (decodeUnaryIf w).mnemonic := by
  unfold decodeUnaryIf
  rw [h]
  split <;> simp only [Instr.mnemonic]

end

/-- Which instruction a word is, its operands aside, is decided by its top byte. -/
theorem decodedNames_decode_and_topMask (w : Word) :
    decodedNames (decode (w &&& 0xFF000000#32)) = decodedNames (decode w) := by
  have h24 : bits (w &&& 0xFF000000#32) 27 24 = bits w 27 24 := bits_and_of_covered w (by decide)
  unfold decode
  rw [bits_and_of_covered (hi := 31) (lo := 28) w (by decide)]
  split
  case h_1 => exact decodedNames_decodeMisc_congr h24
  case h_3 => rw [decodeBinary_congr h24]
  case h_4 => rw [decodeUnary_congr h24]
  case h_9 => exact decodedNames_decodeBinaryIf_congr (bits_and_of_covered w (by decide))
  case h_10 =>
    have h26 : bits (w &&& 0xFF000000#32) 26 25 = bits w 26 25 := bits_and_of_covered w (by decide)
    simp only [decodedNames, mnemonic_decodeUnaryIf_congr h26]
  all_goals simp only [decodedNames, Instr.mnemonic]

/-- For each top byte: the rows that hold its word are the row of what it decodes to. -/
theorem opcodeTable_filter_topWord : ∀ b < 256,
    (opcodeTable.filter (fun r => r.holds (topWord b))).map (fun r => r.mnemonic) = decodedNames (decode (topWord b)) := by
  decide +kernel

/-- Settles O3: the rows and the decoder's choice both depend on the top byte alone, and for each of its 256 values the
table is evaluated. -/
theorem decodeAgreesWithOpcodeTable : Obligations.DecodeAgreesWithOpcodeTable := by
  refine ⟨rfl, fun w => ?_⟩
  have htop := opcodeTable_filter_topWord _ (bits_lt w 31 24)
  rw [topWord_bits, List.filter_congr fun r hr => holds_and_topMask hr w, decodedNames_decode_and_topMask] at htop
  exact htop

/-- Settles O6: each word evaluated. -/
theorem sampleWordsDecode : Obligations.SampleWordsDecode := by
  unfold Obligations.SampleWordsDecode
  decide +kernel

end Sys2Proof
end

section
/-! What an instruction can do, said once (`exec_cases`): it ends the run by Exit, or it changes the state inside its frame
and then sets `pc`, or it changes the state inside its frame and its fault is taken. -/

namespace Sys2Proof.Machine

/-! ### Consuming input -/

theorem consumes_zero {s t : State} (hi : t.input = s.input) (hl : t.inputTail = s.inputTail)
    (hc : t.consumed = s.consumed) : Consumes s t 0 := by
  refine ⟨hc, fun n => ?_, fun _ => ⟨hi, hl⟩⟩
  rw [State.incoming, State.incoming, hi, hl, Nat.add_zero]

theorem Consumes.trans {s t u : State} {j k : Nat} (h : Consumes s t j) (h' : Consumes t u k) : Consumes s u (j + k) := by
  obtain ⟨hc, hn, hd⟩ := h
  obtain ⟨hc', hn', hd'⟩ := h'
  refine ⟨by omega, fun n => ?_, fun hle => ?_⟩
  · rw [hn', hn, Nat.add_assoc, Nat.add_comm k j]
  · obtain ⟨hi, hl⟩ := hd (by omega)
    obtain ⟨hi', hl'⟩ := hd' (by rw [hi, List.length_drop]; omega)
    exact ⟨by rw [hi', hi, List.drop_drop], hl'.trans hl⟩

/-- Taking the byte at hand. -/
theorem consumes_byte {s : State} {b : Byte} {rest : List Byte} (hi : s.input = b :: rest) :
    Consumes s ((s.setInput rest).setConsumed (s.consumed + 1)) 1 := by
  refine ⟨rfl, fun n => ?_, fun _ => ⟨?_, rfl⟩⟩
  · simp only [State.incoming, hi]
    rfl
  · simp [hi]

/-- Taking the first byte of the next block. -/
theorem consumes_block {s : State} {b : Byte} {rest : List Byte} (hi : s.input = [])
    (hb : s.inputTail.block = b :: rest) :
    Consumes s (((s.setInput rest).setInputTail s.inputTail.after).setConsumed (s.consumed + 1)) 1 := by
  refine ⟨rfl, fun n => ?_, fun hle => ?_⟩
  · simp only [State.incoming, hi]
    simp [Machine.incoming, hb]
  · simp [hi] at hle

/-! ### The frame of an instruction -/

/-- What an instruction may do to the state before it sets `pc` or faults: the fields it does not write are kept, Memory
stays canonical, `sp` in its range, output only grows and input is consumed in order. -/
structure Frame (i : Instr) (s t : State) : Prop where
  pc : t.pc = s.pc
  rs : t.rs = s.rs
  attached : t.attached = s.attached
  sp : i.keepsSp = true → t.sp = s.sp
  mem : i.keepsMemory = true → t.mem = s.mem
  spNonneg : 0 ≤ s.sp → 0 ≤ t.sp
  spInRange : s.spInRange → t.spInRange
  memWf : s.mem.wf = true → t.mem.wf = true
  output : ∃ bs, t.output = s.output ++ bs ∧ (i.writesOutput = false → bs = [])
  input : ∃ k, Consumes s t k ∧ (i.readsInput = false → k = 0)

theorem Frame.refl (i : Instr) (s : State) : Frame i s s where
  pc := rfl
  rs := rfl
  attached := rfl
  sp _ := rfl
  mem _ := rfl
  spNonneg h := h
  spInRange h := h
  memWf h := h
  output := ⟨[], by simp, fun _ => rfl⟩
  input := ⟨0, consumes_zero rfl rfl rfl, fun _ => rfl⟩

theorem Frame.trans {i : Instr} {s t u : State} (h : Frame i s t) (h' : Frame i t u) : Frame i s u where
  pc := h'.pc.trans h.pc
  rs := h'.rs.trans h.rs
  attached := h'.attached.trans h.attached
  sp hk := (h'.sp hk).trans (h.sp hk)
  mem hk := (h'.mem hk).trans (h.mem hk)
  spNonneg hs := h'.spNonneg (h.spNonneg hs)
  spInRange hs := h'.spInRange (h.spInRange hs)
  memWf hw := h'.memWf (h.memWf hw)
  output := by
    obtain ⟨bs, hbs, hb⟩ := h.output
    obtain ⟨cs, hcs, hc⟩ := h'.output
    exact ⟨bs ++ cs, by rw [hcs, hbs, List.append_assoc], fun hw => by rw [hb hw, hc hw, List.append_nil]⟩
  input := by
    obtain ⟨j, hj, hj0⟩ := h.input
    obtain ⟨k, hk, hk0⟩ := h'.input
    exact ⟨j + k, hj.trans hk, fun hr => by rw [hj0 hr, hk0 hr]⟩

theorem frame_setOracle (i : Instr) (s : State) (o : List Bool) : Frame i s (s.setOracle o) :=
  { Frame.refl i s with input := ⟨0, consumes_zero rfl rfl rfl, fun _ => rfl⟩ }

theorem frame_setSp {i : Instr} {s : State} {e : Int} (hk : i.keepsSp = false) (he : 0 ≤ e)
    (he' : s.spInRange → e ≤ 1025) : Frame i s (s.setSp e) :=
  { Frame.refl i s with
    sp := fun h => absurd h (by simp [hk])
    spNonneg := fun _ => he
    spInRange := fun h => ⟨he, he' h⟩
    input := ⟨0, consumes_zero rfl rfl rfl, fun _ => rfl⟩ }

theorem frame_setMem {i : Instr} {s : State} {m : Memory} (hk : i.keepsMemory = false)
    (hm : s.mem.wf = true → m.wf = true) : Frame i s (s.setMem m) :=
  { Frame.refl i s with
    mem := fun h => absurd h (by simp [hk])
    memWf := hm
    input := ⟨0, consumes_zero rfl rfl rfl, fun _ => rfl⟩ }

theorem frame_setOutput {i : Instr} (hw : i.writesOutput = true) (s : State) (bs : List Byte) :
    Frame i s (s.setOutput (s.output ++ bs)) :=
  { Frame.refl i s with
    output := ⟨bs, rfl, fun h => absurd h (by simp [hw])⟩
    input := ⟨0, consumes_zero rfl rfl rfl, fun _ => rfl⟩ }

theorem toNat_lt_of_inMemory {i : Int} (h : inMemory i = true) : i.toNat < 1024 := by
  have := (inMemory_iff i).1 h
  omega

theorem frame_writeWord {i : Instr} {s : State} {idx : Int} (hk : i.keepsMemory = false) (hi : inMemory idx = true)
    (v : Word) : Frame i s (s.setMem (s.mem.writeWord idx.toNat v)) :=
  frame_setMem hk fun hm => Memory.writeWord_wf hm (toNat_lt_of_inMemory hi) v

/-! ### Operations inside the frame -/

/-- Only a reader may never complete; a fault records the index of the instruction, and is of a kind its rule lists (a
negative `sp`, which no run reaches, aside: log 29). -/
def StopsBy (i : Instr) (s : State) : Stop → Prop
  | .never => i.readsInput = true
  | .fault f => f.pc = s.pc ∧ (0 ≤ s.sp → f.kind ∈ i.mayRaise)

/-- The result of an operation started in `s` lies in the frame of instruction `i`. -/
def Framed {α : Type} (i : Instr) (s : State) : EStateM.Result Stop State α → Prop
  | .ok _ t => Frame i s t
  | .error e t => Frame i s t ∧ StopsBy i s e

theorem StopsBy.of_frame {i : Instr} {s t : State} {e : Stop} (h : StopsBy i t e) (hf : Frame i s t) : StopsBy i s e := by
  cases e with
  | never => exact h
  | fault f =>
    obtain ⟨hpc, hkind⟩ := h
    exact ⟨hpc.trans hf.pc, fun hsp => hkind (hf.spNonneg hsp)⟩

theorem Framed.of_frame {α : Type} {i : Instr} {s t : State} {r : EStateM.Result Stop State α} (h : Framed i t r)
    (hf : Frame i s t) : Framed i s r := by
  cases r with
  | ok a u => exact hf.trans h
  | error e u => exact ⟨hf.trans h.1, h.2.of_frame hf⟩

/-- A sequence lies in the frame when each of its operations does. -/
theorem Framed.bind {α β : Type} {i : Instr} {s : State} {m : Op α} {f : α → Op β} (hm : Framed i s (m s))
    (hf : ∀ a t, m s = .ok a t → Frame i s t → Framed i t (f a t)) : Framed i s ((m >>= f) s) := by
  rw [Op.bind_apply]
  cases h : m s with
  | ok a t =>
    have ht : Frame i s t := by rwa [h] at hm
    exact (hf a t h ht).of_frame ht
  | error e t => rwa [h] at hm

section
variable {i : Instr} {s : State}

theorem framed_getSp : Framed i s (getSp s) := Frame.refl i s

theorem framed_getPc : Framed i s (getPc s) := Frame.refl i s

theorem framed_memRead {idx : Int} (hr : 0 ≤ s.sp → inMemory idx = false → .memoryRange ∈ i.mayRaise) :
    Framed i s (memRead idx s) := by
  cases h : inMemory idx with
  | true =>
    rw [memRead_ok h]
    exact Frame.refl i s
  | false =>
    rw [memRead_error h]
    exact ⟨Frame.refl i s, rfl, fun hsp => hr hsp h⟩

theorem framed_memWrite (hk : i.keepsMemory = false) (hr : .memoryRange ∈ i.mayRaise) (idx : Int) (v : Word) :
    Framed i s (memWrite idx v s) := by
  cases h : inMemory idx with
  | true =>
    rw [memWrite_ok h]
    exact frame_writeWord hk h v
  | false =>
    rw [memWrite_error h]
    exact ⟨Frame.refl i s, rfl, fun _ => hr⟩

theorem framed_popWord (hk : i.keepsSp = false) (hr : .memoryRange ∈ i.mayRaise) : Framed i s (popWord s) := by
  cases h : inMemory s.sp with
  | true =>
    rw [popWord_ok h]
    have := (inMemory_iff s.sp).1 h
    exact frame_setSp hk (by omega) fun _ => by omega
  | false =>
    rw [popWord_error h]
    exact ⟨Frame.refl i s, rfl, fun _ => hr⟩

/-- A push overflows only at `sp <= 0`. -/
theorem framed_pushWord (hsp : i.keepsSp = false) (hmem : i.keepsMemory = false) (hr : .memoryRange ∈ i.mayRaise)
    (ho : s.sp ≤ 0 → .stackOverflow ∈ i.mayRaise) (v : Word) : Framed i s (pushWord v s) := by
  cases h : pushWord v s with
  | ok _ t =>
    obtain ⟨hlo, hhi, rfl⟩ := pushWord_ok_cases h
    exact (frame_setSp hsp (by omega) fun _ => by omega).trans
      (frame_writeWord (s := s.setSp (s.sp - 1)) hmem ((inMemory_iff _).2 (by omega)) v)
  | error e t =>
    obtain ⟨hlo, rfl, rfl⟩ | ⟨hhi, rfl, rfl⟩ := pushWord_error_cases h
    · exact ⟨Frame.refl i t, rfl, fun _ => ho hlo⟩
    · exact ⟨frame_setSp hsp (by omega) fun ⟨_, hs⟩ => by omega, rfl, fun _ => hr⟩

/-- Behind a pop the stack has room. -/
theorem sp_pos_of_popWord {t : State} {w : Word} (h : popWord s = .ok w t) : 1 ≤ t.sp := by
  obtain ⟨hin, -, rfl⟩ := popWord_ok_iff.1 h
  have := (inMemory_iff s.sp).1 hin
  simp only [State.setSp_sp]
  omega

theorem framed_pushWords (hsp : i.keepsSp = false) (hmem : i.keepsMemory = false) (hr : .memoryRange ∈ i.mayRaise)
    (ho : .stackOverflow ∈ i.mayRaise) (ws : List Word) : Framed i s (pushWords ws s) := by
  induction ws generalizing s with
  | nil => exact Frame.refl i s
  | cons w ws ih => exact (framed_pushWord hsp hmem hr (fun _ => ho) w).bind fun _ _ _ _ => ih

/-! ### The channels -/

theorem framed_channel (hr : .ioError ∈ i.mayRaise) : Framed i s (channel s) := by
  cases h : s.oracle.headD false with
  | false =>
    rw [channel_ok h]
    exact frame_setOracle i s _
  | true =>
    rw [channel_error h]
    exact ⟨frame_setOracle i s _, rfl, fun _ => hr⟩

theorem framed_emit (hw : i.writesOutput = true) (hr : .ioError ∈ i.mayRaise) (b : Byte) : Framed i s (emit b s) :=
  (framed_channel hr).bind fun _ t _ _ => frame_setOutput hw t [b]

theorem framed_emitAll (hw : i.writesOutput = true) (hr : .ioError ∈ i.mayRaise) (bs : List Byte) :
    Framed i s (emitAll bs s) := by
  induction bs generalizing s with
  | nil => exact Frame.refl i s
  | cons b bs ih => exact (framed_emit hw hr b).bind fun _ _ _ _ => ih

theorem framed_takeByte (hi : i.readsInput = true) : Framed i s (takeByte s) := by
  have hconsumed {t : State} (h : Consumes s t 1) : ∃ k, Consumes s t k ∧ (i.readsInput = false → k = 0) :=
    ⟨1, h, fun h => absurd h (by simp [hi])⟩
  obtain ⟨b, rest, hin, h⟩ | ⟨b, rest, hin, hb, h⟩ | ⟨_, _, h⟩ | ⟨_, _, h⟩ := takeByte_cases s <;> rw [h]
  · exact { Frame.refl i s with input := hconsumed (consumes_byte hin) }
  · exact { Frame.refl i s with input := hconsumed (consumes_block hin hb) }
  · exact Frame.refl i s
  · exact ⟨Frame.refl i s, hi⟩

theorem framed_inByte (hi : i.readsInput = true) (hr : .ioError ∈ i.mayRaise) : Framed i s (inByte s) :=
  (framed_channel hr).bind fun _ _ _ _ => framed_takeByte hi

theorem framed_readLineFrom (hi : i.readsInput = true) (hr : .ioError ∈ i.mayRaise) (n : Nat) (buf : List Byte) :
    Framed i s (readLineFrom n buf s) := by
  induction n generalizing s buf with
  | zero => exact ⟨Frame.refl i s, hi⟩
  | succ n ih =>
    refine (framed_inByte hi hr).bind fun r t _ _ => ?_
    cases r with
    | none => exact Frame.refl i t
    | some b =>
      simp only
      split
      · exact Frame.refl i t
      · exact ih _

theorem framed_readLine (hi : i.readsInput = true) (hr : .ioError ∈ i.mayRaise) : Framed i s (readLine s) :=
  framed_readLineFrom hi hr _ _

/-- The walk reads words of Memory only. -/
theorem framed_stprintWalk (hw : i.writesOutput = true) (hk : i.keepsSp = true) (hr : .ioError ∈ i.mayRaise) {n : Nat}
    {idx : Int} (hidx : 0 ≤ s.sp → 0 ≤ idx ∧ (n = 0 ∨ idx + n ≤ 1024)) : Framed i s (stprintWalk n idx s) := by
  induction n generalizing s idx with
  | zero => exact Frame.refl i s
  | succ n ih =>
    have hin (hsp : 0 ≤ s.sp) : inMemory idx = true := (inMemory_iff idx).2 (by have := hidx hsp; omega)
    refine (framed_memRead fun hsp hout => by simp [hin hsp] at hout).bind fun w t _ ht => ?_
    split
    · exact Frame.refl i t
    · refine (framed_emitAll hw hr _).bind fun _ u _ hu => ?_
      split
      · have hsame : u.sp = s.sp := (hu.sp hk).trans (ht.sp hk)
        exact ih fun hsp => by have := hidx (hsame ▸ hsp); omega
      · exact Frame.refl i u

/-- The lines of Dump read words of Memory only. -/
theorem framed_dumpLines (hw : i.writesOutput = true) (hk : i.keepsSp = true) (hr : .ioError ∈ i.mayRaise) {sp : Int}
    {n rel : Nat} (hidx : 0 ≤ s.sp → 0 ≤ sp ∧ sp + rel + n ≤ 1024) : Framed i s (dumpLines sp n rel s) := by
  induction n generalizing s rel with
  | zero => exact Frame.refl i s
  | succ n ih =>
    have hin (hsp : 0 ≤ s.sp) : inMemory (sp + rel) = true := (inMemory_iff _).2 (by have := hidx hsp; omega)
    refine (framed_memRead fun hsp hout => by simp [hin hsp] at hout).bind fun v t _ ht =>
      (framed_emitAll hw hr _).bind fun _ u _ hu => (framed_emit hw hr _).bind fun _ x _ hx => ih fun hsp => ?_
    have hsame : x.sp = s.sp := (hx.sp hk).trans ((hu.sp hk).trans (ht.sp hk))
    have := hidx (hsame ▸ hsp)
    push_cast
    omega

end

/-! ### Whole instructions -/

/-- Where an instruction at index `p` that completes leaves `pc` (R83, R131 to R133, R145, R146). -/
def GoesTo (i : Instr) (p q : Int) : Prop :=
  match i with
  | .exit _ => False
  | .call off | .goto off => q = p + off
  | .ret _ => 0 ≤ q ∧ q ≤ 4294967295
  | .binaryIfEq off | .binaryIfNe off | .binaryIfLt off | .binaryIfGt off | .binaryIfLe off | .binaryIfGe off
  | .unaryIfEqz off | .unaryIfNez off | .unaryIfLtz off | .unaryIfGez off => q = p + off ∨ q = p + 1
  | _ => q = p + 1

/-- The result of a whole instruction other than Exit: it completes by setting `pc`, or it stops, inside its frame. -/
def Ends (i : Instr) (s : State) : EStateM.Result Stop State Unit → Prop
  | .ok _ t => GoesTo i s.pc t.pc ∧ ∃ u, Frame i s u ∧ t = u.setPc t.pc
  | .error e t => Frame i s t ∧ StopsBy i s e

theorem Framed.bind_ends {α : Type} {i : Instr} {s : State} {m : Op α} {f : α → Op Unit} (hm : Framed i s (m s))
    (hf : ∀ a t, m s = .ok a t → Frame i s t → Ends i t (f a t)) : Ends i s ((m >>= f) s) := by
  rw [Op.bind_apply]
  cases h : m s with
  | ok a t =>
    have ht : Frame i s t := by rwa [h] at hm
    have hend := hf a t h ht
    change Ends i s (f a t)
    cases hr : f a t with
    | ok _ v =>
      rw [hr] at hend
      obtain ⟨hgo, u, hu, hv⟩ := hend
      exact ⟨ht.pc ▸ hgo, u, ht.trans hu, hv⟩
    | error e v =>
      rw [hr] at hend
      exact ⟨ht.trans hend.1, hend.2.of_frame ht⟩
  | error e t => rwa [h] at hm

section
variable {i : Instr} {s : State}

theorem ends_jump {q : Int} (h : GoesTo i s.pc q) : Ends i s (jump q s) := ⟨h, s, Frame.refl i s, rfl⟩

theorem goesTo_of_plain (h : i.setsPc = false) (p : Int) : GoesTo i p (p + 1) := by
  cases i <;> simp_all [Instr.setsPc, GoesTo]

theorem ends_advance (h : i.setsPc = false) : Ends i s (advance s) := ends_jump (goesTo_of_plain h s.pc)

theorem ends_raise {f : Int → RunFault} (hpc : ∀ p, (f p).pc = p) (hr : ∀ p, (f p).kind ∈ i.mayRaise) :
    Ends i s ((raise f : Op Unit) s) :=
  ⟨Frame.refl i s, hpc s.pc, fun _ => hr s.pc⟩

theorem ends_binOp {f : Word → Word → Option Word} (hsp : i.keepsSp = false) (hmem : i.keepsMemory = false)
    (hgo : i.setsPc = false) (hr : .memoryRange ∈ i.mayRaise) (hf : ∀ a b, f a b = none → .divideByZero ∈ i.mayRaise) :
    Ends i s (binOp f s) := by
  refine (framed_popWord hsp hr).bind_ends fun r t _ _ => (framed_popWord hsp hr).bind_ends fun l u hu _ => ?_
  cases hv : f l r with
  | none => exact ends_raise (fun _ => rfl) fun _ => hf l r hv
  | some v =>
    have := sp_pos_of_popWord hu
    exact (framed_pushWord hsp hmem hr (fun _ => by omega) v).bind_ends fun _ _ _ _ => ends_advance hgo

theorem ends_unOp (hsp : i.keepsSp = false) (hmem : i.keepsMemory = false) (hgo : i.setsPc = false)
    (hr : .memoryRange ∈ i.mayRaise) (f : Word → Word) : Ends i s (unOp f s) := by
  refine (framed_popWord hsp hr).bind_ends fun a t ht _ => ?_
  have := sp_pos_of_popWord ht
  exact (framed_pushWord hsp hmem hr (fun _ => by omega) (f a)).bind_ends fun _ _ _ _ => ends_advance hgo

theorem ends_branch {off : Int} (hgo : ∀ p q, q = p + off ∨ q = p + 1 → GoesTo i p q) (taken : Bool) :
    Ends i s ((if taken = true then jump (target s.pc off) else advance : Op Unit) s) := by
  cases taken with
  | true => exact ends_jump (hgo _ _ (.inl rfl))
  | false => exact ends_jump (hgo _ _ (.inr rfl))

theorem ends_binaryIf {off : Int} (hgo : ∀ p q, q = p + off ∨ q = p + 1 → GoesTo i p q)
    (hr : .memoryRange ∈ i.mayRaise) (rel : Int → Int → Bool) : Ends i s (binaryIf rel off s) := by
  refine framed_getSp.bind_ends fun sp t _ _ => (framed_memRead fun _ _ => hr).bind_ends fun r u _ _ =>
    (framed_memRead fun _ _ => hr).bind_ends fun l v _ _ => framed_getPc.bind_ends fun p w hp _ => ?_
  cases hp
  exact ends_branch hgo _

theorem ends_unaryIf {off : Int} (hgo : ∀ p q, q = p + off ∨ q = p + 1 → GoesTo i p q)
    (hr : .memoryRange ∈ i.mayRaise) (test : Int → Bool) : Ends i s (unaryIf test off s) := by
  refine framed_getSp.bind_ends fun sp t _ _ => (framed_memRead fun _ _ => hr).bind_ends fun r u _ _ =>
    framed_getPc.bind_ends fun p w hp _ => ?_
  cases hp
  exact ends_branch hgo _

end

theorem ends_input (s : State) : ∃ m, exec .input s = complete m s ∧ Ends .input s (m s) := by
  refine ⟨_, rfl, (framed_readLine rfl (.head _)).bind_ends fun line t _ _ => ?_⟩
  cases parseInput (trim line) with
  | none => exact ends_raise (fun _ => rfl) fun _ => .tail _ (.head _)
  | some v =>
    exact (framed_pushWord rfl rfl (by decide) (fun _ => by decide) v).bind_ends fun _ _ _ _ => ends_advance rfl

theorem popSp_bounds (sp : Int) (count : Nat) : 0 ≤ popSp sp count ∧ popSp sp count ≤ 1024 :=
  clamp_bounds (by decide)

theorem returnSp_bounds {sp : Int} (h : inMemory sp = true) (extra : Nat) :
    0 ≤ returnSp sp extra ∧ returnSp sp extra ≤ 1025 := by
  have hsp := (inMemory_iff sp).1 h
  have := clamp_bounds (x := widx extra) (show 0 ≤ Config.spReset - sp by simp only [Config.spReset]; omega)
  simp only [returnSp, Config.spReset] at *
  omega

theorem ends_ret (extra : Nat) (s : State) :
    ∃ m, exec (.ret extra) s = complete m s ∧ Ends (.ret extra) s (m s) := by
  refine ⟨_, rfl, (framed_memRead fun _ _ => .head _).bind_ends fun ra t hra _ => ?_⟩
  obtain ⟨hin, _, rfl⟩ := memRead_ok_iff.1 hra
  obtain ⟨hlo, hhi⟩ := returnSp_bounds hin extra
  have hra := ra.isLt
  refine ⟨⟨Int.natCast_nonneg _, ?_⟩, _, frame_setSp rfl hlo fun _ => hhi, rfl⟩
  simp only [State.setPc_pc]
  omega

theorem stackIndex_natCast (s : State) (off : Nat) : stackIndex s off = s.sp + ((off / 4 : Nat) : Int) := by
  rw [stackIndex, widx_natCast]

theorem wordsFrom_eq (i : Int) : wordsFrom i = (1024 - i).toNat := rfl

theorem ends_stprint (off : Nat) (s : State) :
    ∃ m, exec (.stprint off) s = complete m s ∧ Ends (.stprint off) s (m s) := by
  refine ⟨_, rfl, (framed_stprintWalk rfl rfl (.head _) ?_).bind_ends fun _ _ _ _ =>
    (framed_channel (.head _)).bind_ends fun _ _ _ _ => ends_advance rfl⟩
  rw [wordsFrom_eq, stackIndex_natCast]
  omega

theorem ends_dump (s : State) : ∃ m, exec .dump s = complete m s ∧ Ends .dump s (m s) := by
  refine ⟨_, rfl, ?_⟩
  split
  case isTrue hlt =>
    refine (framed_dumpLines rfl rfl (.head _) fun hsp => ⟨hsp, ?_⟩).bind_ends fun _ _ _ _ =>
      (framed_channel (.head _)).bind_ends fun _ _ _ _ => ends_advance rfl
    simp only [Config.memWords] at hlt
    rw [wordsFrom_eq]
    omega
  case isFalse => exact ends_advance rfl

/-- Every instruction but Exit is a sequence of operations inside its frame. -/
theorem exec_ends {i : Instr} (s : State) (hi : ∀ c, i ≠ .exit c) : ∃ m, exec i s = complete m s ∧ Ends i s (m s) := by
  cases i with
  | exit c => exact absurd rfl (hi c)
  | nop | debug => exact ⟨_, rfl, ends_advance rfl⟩
  | swap =>
    exact ⟨_, rfl, (framed_memRead fun _ _ => .head _).bind_ends fun _ _ _ _ =>
      (framed_memRead fun _ _ => .head _).bind_ends fun _ _ _ _ => (framed_memWrite rfl (.head _) _ _).bind_ends fun _ _ _ _ =>
      (framed_memWrite rfl (.head _) _ _).bind_ends fun _ _ _ _ => ends_advance rfl⟩
  | input => exact ends_input s
  | stinput =>
    exact ⟨_, rfl, (framed_readLine rfl (.head _)).bind_ends fun _ _ _ _ =>
      (framed_pushWords rfl rfl (.tail _ (.tail _ (.head _))) (.tail _ (.head _)) _).bind_ends fun _ _ _ _ =>
      ends_advance rfl⟩
  | pop count =>
    obtain ⟨hlo, hhi⟩ := popSp_bounds s.sp count
    exact ⟨_, rfl, Framed.bind_ends (m := putSp _) (frame_setSp rfl hlo fun _ => by omega) fun _ _ _ _ => ends_advance rfl⟩
  | div | rem => exact ⟨_, rfl, ends_binOp rfl rfl rfl (.head _) fun _ _ _ => .tail _ (.head _)⟩
  | add | sub | mul | and | or | xor | shl | logicalShr | arithmeticShr =>
    exact ⟨_, rfl, ends_binOp rfl rfl rfl (.head _) fun _ _ h => by cases h⟩
  | negate | not => exact ⟨_, rfl, ends_unOp rfl rfl rfl (.head _) _⟩
  | stprint off => exact ends_stprint off s
  | call off =>
    exact ⟨_, rfl, (framed_pushWord rfl rfl (.tail _ (.head _)) (fun _ => .head _) _).bind_ends fun _ t _ ht =>
      ends_jump (congrArg (fun p => p + off) ht.pc.symm)⟩
  | ret extra => exact ends_ret extra s
  | goto => exact ⟨_, rfl, ends_jump rfl⟩
  | binaryIfEq | binaryIfNe | binaryIfLt | binaryIfGt | binaryIfLe | binaryIfGe =>
    refine ⟨_, rfl, ends_binaryIf ?_ (.head _) _⟩
    exact fun _ _ h => h
  | unaryIfEqz | unaryIfNez | unaryIfLtz | unaryIfGez =>
    refine ⟨_, rfl, ends_unaryIf ?_ (.head _) _⟩
    exact fun _ _ h => h
  | dup =>
    exact ⟨_, rfl, (framed_memRead fun _ _ => .tail _ (.head _)).bind_ends fun _ _ _ _ =>
      (framed_pushWord rfl rfl (.tail _ (.head _)) (fun _ => .head _) _).bind_ends fun _ _ _ _ => ends_advance rfl⟩
  | print =>
    exact ⟨_, rfl, (framed_memRead fun _ _ => .head _).bind_ends fun _ _ _ _ =>
      (framed_emitAll rfl (.tail _ (.head _)) _).bind_ends fun _ _ _ _ =>
      (framed_emit rfl (.tail _ (.head _)) _).bind_ends fun _ _ _ _ =>
      (framed_channel (.tail _ (.head _))).bind_ends fun _ _ _ _ => ends_advance rfl⟩
  | dump => exact ends_dump s
  | push =>
    exact ⟨_, rfl, (framed_pushWord rfl rfl (.tail _ (.head _)) (fun _ => .head _) _).bind_ends fun _ _ _ _ =>
      ends_advance rfl⟩

theorem exec_exit (code : Nat) (s : State) : exec (.exit code) s = .next (s.setRs (.halted code)) := rfl

/-- Everything an instruction that answers a next state did. -/
theorem exec_cases {i : Instr} {s t : State} (h : exec i s = .next t) :
    (∃ c, i = .exit c ∧ t = s.setRs (.halted c)) ∨
      (GoesTo i s.pc t.pc ∧ ∃ u, Frame i s u ∧ t = u.setPc t.pc) ∨
      ∃ u f, Frame i s u ∧ f.pc = s.pc ∧ (0 ≤ s.sp → f.kind ∈ i.mayRaise) ∧ t = takeFault f u := by
  by_cases hi : ∃ c, i = .exit c
  · obtain ⟨c, rfl⟩ := hi
    cases h
    exact .inl ⟨c, rfl, rfl⟩
  · obtain ⟨m, hm, hends⟩ := exec_ends s fun c hc => hi ⟨c, hc⟩
    obtain hok | ⟨f, u, herr, rfl⟩ := complete_next_iff.1 (hm ▸ h)
    · rw [hok] at hends
      exact .inr (.inl hends)
    · rw [herr] at hends
      obtain ⟨hframe, hpc, hkind⟩ := hends
      exact .inr (.inr ⟨u, f, hframe, hpc, hkind, rfl⟩)

/-- An instruction that answers no next state is a reader, and it never completes. -/
theorem exec_next_or_never (i : Instr) (s : State) :
    (∃ t, exec i s = .next t) ∨ (i.readsInput = true ∧ exec i s = .fault .neverCompletes) := by
  by_cases hi : ∃ c, i = .exit c
  · obtain ⟨c, rfl⟩ := hi
    exact .inl ⟨_, rfl⟩
  · obtain ⟨m, hm, hends⟩ := exec_ends s fun c hc => hi ⟨c, hc⟩
    obtain hnext | ⟨⟨t, herr⟩, hnever⟩ := complete_next_or_never m s
    · exact .inl (hm ▸ hnext)
    · rw [herr] at hends
      obtain ⟨_, hreads⟩ := hends
      exact .inr ⟨hreads, hm ▸ hnever⟩

end Sys2Proof.Machine
end

section
/-! The statements about the cycle, the invariant and runs (10_state.md, 40_execution_cycle.md R80 to R84): each read off
what an instruction can do (`exec_cases`). -/

namespace Sys2Proof.Machine

/-! ### A step is a fetch, a decoding and an instruction -/

theorem fetch_word {s : State} (hlo : 0 ≤ s.pc) (hhi : s.pc ≤ 1023) : fetch s = .ok (s.word s.pc) :=
  fetch_ok ((inMemory_iff s.pc).2 ⟨hlo, hhi⟩)

theorem step_of_decode_ok {s : State} {i : Instr} (hrs : s.rs = .running) (hlo : 0 ≤ s.pc) (hhi : s.pc ≤ 1023)
    (hdec : decode (s.word s.pc) = .ok i) : step s = exec i s := by
  rw [step_of_running hrs]
  simp only [cycle, fetch_word hlo hhi, hdec]

theorem step_of_decode_error {s : State} {e : DecodeError} (hrs : s.rs = .running) (hlo : 0 ≤ s.pc) (hhi : s.pc ≤ 1023)
    (hdec : decode (s.word s.pc) = .error e) :
    step s = .next (takeFault (.illegalInstruction s.pc (s.word s.pc)) s) := by
  rw [step_of_running hrs]
  simp only [cycle, fetch_word hlo hhi, hdec]

theorem step_of_fetch_outside {s : State} (hrs : s.rs = .running) (hout : s.pc < 0 ∨ 1023 < s.pc) :
    step s = .next (takeFault (.fetchRange s.pc) s) := by
  rw [step_of_running hrs, cycle_of_fetch_error (fetch_error ((inMemory_eq_false s.pc).2 hout))]

/-- Everything a step of the running engine is: the decoded instruction, or a fault taken before any change. -/
theorem step_running_cases {s : State} (hrs : s.rs = .running) :
    (∃ i, 0 ≤ s.pc ∧ s.pc ≤ 1023 ∧ decode (s.word s.pc) = .ok i ∧ step s = exec i s) ∨
      ∃ f, step s = .next (takeFault f s) ∧ ¬ ∃ i, 0 ≤ s.pc ∧ s.pc ≤ 1023 ∧ decode (s.word s.pc) = .ok i := by
  by_cases hpc : 0 ≤ s.pc ∧ s.pc ≤ 1023
  · obtain ⟨hlo, hhi⟩ := hpc
    cases hdec : decode (s.word s.pc) with
    | ok i => exact .inl ⟨i, hlo, hhi, rfl, step_of_decode_ok hrs hlo hhi hdec⟩
    | error e => exact .inr ⟨_, step_of_decode_error hrs hlo hhi hdec, by simp⟩
  · exact .inr ⟨_, step_of_fetch_outside hrs (by omega), fun ⟨_, hlo, hhi, _⟩ => hpc ⟨hlo, hhi⟩⟩

/-- Only the running engine steps. -/
theorem running_of_step_next {s t : State} (h : step s = .next t) : s.rs = .running := by
  cases hrs : s.rs with
  | running => rfl
  | _ => simp [step, hrs] at h

/-- Settles O11: the fetch gives the word at `pc`, and the cycle hands it, decoded, to `exec`. -/
theorem stepRunsTheDecodedInstruction : Obligations.StepRunsTheDecodedInstruction :=
  fun _ _ hrs hlo hhi hdec => step_of_decode_ok hrs hlo hhi hdec

/-- Settles O13: the decoder's rejection is taken on the state as fetched. -/
theorem illegalWordFaultsBeforeAnyChange : Obligations.IllegalWordFaultsBeforeAnyChange :=
  fun _ _ hrs hlo hhi hdec => step_of_decode_error hrs hlo hhi hdec

/-- Settles O15: of what a decoded instruction can do (`exec_cases`), Exit alone halts, with the byte it was decoded with,
and outside Running no cycle is begun. -/
theorem runStateChangesOnlyByExitOrFault : Obligations.RunStateChangesOnlyByExitOrFault := by
  refine ⟨fun s t h => ?_, fun s => ⟨fun c hc => ?_, fun f hf => ?_, fun h => ?_⟩⟩
  · have hrs := running_of_step_next h
    refine ⟨hrs, ?_⟩
    obtain ⟨i, hlo, hhi, hdec, hstep⟩ | ⟨f, hstep, _⟩ := step_running_cases hrs
    · obtain ⟨c, rfl, rfl⟩ | ⟨_, u, hu, ht⟩ | ⟨u, f, _, _, _, rfl⟩ := exec_cases (hstep ▸ h)
      · have hc : c < 256 := of_decide_eq_true (decodedInstructionsAreWellFormed _ _ hdec)
        exact .inr (.inl ⟨c, rfl, by omega, hlo, hhi, hdec⟩)
      · exact .inl (by rw [ht, State.setPc_rs, hu.rs, hrs])
      · exact .inr (.inr ⟨f, rfl⟩)
    · cases hstep.symm.trans h
      exact .inr (.inr ⟨f, rfl⟩)
  · simp only [step, hc]
  · simp only [step, hf]
  · rcases h with h | h <;> simp only [step, h]

/-- Settles O16: an instruction that still runs afterwards completed, and one that does not set `pc` goes to the next
index. -/
theorem plainInstructionsAdvanceByOne : Obligations.PlainInstructionsAdvanceByOne := by
  intro i s t hplain hrs h ht
  obtain ⟨c, rfl, rfl⟩ | ⟨hgo, _⟩ | ⟨u, f, _, _, _, rfl⟩ := exec_cases h
  · cases ht
  · cases i <;> simp_all [Instr.setsPc, GoesTo]
  · cases ht

/-! ### The invariant -/

/-- The operand ranges of R58 bound where a control transfer goes. -/
theorem goesTo_range {i : Instr} {p q : Int} (hi : i.wellFormed = true) (h : GoesTo i p q) (hlo : 0 ≤ p) (hhi : p ≤ 1023) :
    -33554432 ≤ q ∧ q ≤ 4294967295 := by
  cases i with
  | exit => cases h
  | ret =>
    obtain ⟨hq, hq'⟩ := h
    omega
  | call off | goto off =>
    have hoff := of_decide_eq_true hi
    simp only [GoesTo] at h
    omega
  | binaryIfEq off | binaryIfNe off | binaryIfLt off | binaryIfGt off | binaryIfLe off | binaryIfGe off
  | unaryIfEqz off | unaryIfNez off | unaryIfLtz off | unaryIfGez off =>
    have hoff := of_decide_eq_true hi
    simp only [GoesTo] at h
    omega
  | _ =>
    simp only [GoesTo] at h
    omega

theorem haltInRange_of_not_halted {s : State} (h : ∀ c, s.rs ≠ .halted c) : s.haltInRange := fun c hc => absurd hc (h c)

/-- In a state whose run has faulted the invariant speaks of Memory alone. -/
theorem inv_takeFault {s : State} (hm : s.mem.wf = true) (f : RunFault) : (takeFault f s).Inv :=
  ⟨hm, haltInRange_of_not_halted (by simp), by simp [State.unfaulted]⟩

/-- A decoded instruction keeps the invariant. -/
theorem exec_keeps_inv {i : Instr} {s t : State} (hs : s.Inv) (hrs : s.rs = .running) (hlo : 0 ≤ s.pc) (hhi : s.pc ≤ 1023)
    (hi : i.wellFormed = true) (h : exec i s = .next t) : t.Inv := by
  obtain ⟨hmem, _, hranges⟩ := hs
  obtain ⟨hsp, hpc⟩ := hranges (by simp only [State.unfaulted, hrs])
  obtain ⟨c, rfl, rfl⟩ | ⟨hgo, u, hu, ht⟩ | ⟨u, f, hu, _, _, rfl⟩ := exec_cases h
  case inl =>
    have hc : c < 256 := of_decide_eq_true hi
    refine ⟨hmem, fun c' hc' => ?_, fun _ => ⟨hsp, hpc⟩⟩
    cases hc'
    omega
  case inr.inl =>
    have hrs' : t.rs = .running := by rw [ht, State.setPc_rs, hu.rs, hrs]
    refine ⟨?_, haltInRange_of_not_halted (by simp [hrs']), fun _ => ⟨?_, goesTo_range hi hgo hlo hhi⟩⟩
    · rw [ht]
      exact hu.memWf hmem
    · rw [ht]
      exact hu.spInRange hsp
  case inr.inr => exact inv_takeFault (hu.memWf hmem) f

/-- Settles O17: a fetch or decode fault changes the run state alone, and a decoded instruction is well-formed, so its
frame and its target keep the ranges. -/
theorem stepKeepsTheInvariant : Obligations.StepKeepsTheInvariant := by
  intro s t hs h
  have hrs := running_of_step_next h
  obtain ⟨i, hlo, hhi, hdec, hstep⟩ | ⟨f, hstep, _⟩ := step_running_cases hrs
  · exact exec_keeps_inv hs hrs hlo hhi (decodedInstructionsAreWellFormed _ _ hdec) (hstep ▸ h)
  · cases hstep.symm.trans h
    exact inv_takeFault hs.1 f

/-- The registers and run states of a machine that has not run satisfy the invariant. -/
theorem inv_of_start_values {s : State} (hm : s.mem.wf = true) (hpc : s.pc = 0) (hsp : s.sp = 1024)
    (hrs : ∀ c, s.rs ≠ .halted c) : s.Inv := by
  refine ⟨hm, haltInRange_of_not_halted hrs, fun _ => ⟨?_, ?_⟩⟩
  · rw [State.spInRange, hsp]
    decide
  · rw [State.pcInRange, hpc]
    decide

/-- Settles O18: Memory is the empty list, `pc` 0, `sp` 1024, and nothing has run. -/
theorem resetSatisfiesTheInvariant : Obligations.ResetSatisfiesTheInvariant :=
  inv_of_start_values rfl rfl rfl (by simp [State.reset])

/-- Settles O7: construction lists no byte, and unlisted bytes are zero. -/
theorem resetLeavesAnEmptyMachine : Obligations.ResetLeavesAnEmptyMachine :=
  ⟨rfl, rfl, rfl, rfl, rfl, fun _ _ => rfl⟩

/-! ### Load, attach, start -/

/-- Settles O9: each operation's guard, met or not. -/
theorem hostOperationsNeedTheirRunState : Obligations.HostOperationsNeedTheirRunState := by
  intro p input tail oracle s
  refine ⟨fun h => if_neg h, fun h => if_neg ?_, fun hrs hatt => if_pos ⟨hrs, hatt⟩, fun h => if_neg h, fun h => if_pos h⟩
  rintro ⟨hrs, hatt⟩
  rcases h with h | h
  · exact h hrs
  · rw [hatt] at h
    cases h

theorem length_le_of_programWords {p ws : List Word} (h : programWords p = some ws) : ws.length ≤ 1024 := by
  cases p with
  | nil => cases h
  | cons w rest =>
    rw [programWords] at h
    split at h
    · rename_i hp
      cases h
      exact hp.2
    · cases h

/-- Every booted machine is the reset one with a program in Memory, the channels attached, and Running. -/
theorem boot_cases {p : List Word} {input : List Byte} {tail : StreamTail} {oracle : List Bool} {s : State}
    (h : boot p input tail oracle = some s) :
    ∃ ws : List Word, ws.length ≤ 1024 ∧ s = { State.reset with
      mem := Memory.writeWords [] 0 ws, rs := .running, input := input, inputTail := tail, oracle := oracle,
      attached := true } := by
  cases hp : programWords p with
  | none =>
    rw [boot, load_of_not_program rfl hp] at h
    cases h
  | some ws =>
    rw [boot, load_of_program rfl hp] at h
    cases h
    exact ⟨ws, length_le_of_programWords hp, rfl⟩

/-- Settles O19: booting writes Memory word by word and leaves `pc` and `sp` at their reset values. -/
theorem bootedMachineSatisfiesTheInvariant : Obligations.BootedMachineSatisfiesTheInvariant := by
  intro p input tail oracle s h
  obtain ⟨ws, hlen, rfl⟩ := boot_cases h
  have hmem : (Memory.writeWords [] 0 ws).wf = true := Memory.writeWords_wf rfl ws (by omega)
  exact ⟨inv_of_start_values hmem rfl rfl (by simp), rfl, rfl, rfl, rfl⟩

/-! ### Runs -/

/-- Start has been given: the engine runs, or its run has ended (R84). -/
def Started (s : State) : Prop := s.rs ≠ .constructed ∧ s.rs ≠ .loaded

theorem started_of_step {s t : State} (h : step s = .next t) : Started t := by
  obtain ⟨_, ht | ⟨c, ht, _⟩ | ⟨f, ht⟩⟩ := runStateChangesOnlyByExitOrFault.1 s t h <;> simp [Started, ht]

/-- A started engine in its invariant is not refused, and if it has halted, then with a byte. -/
theorem safeOutcome_step {s : State} (hs : s.Inv) (hstart : Started s) : SafeOutcome (step s) := by
  obtain ⟨hhalted, hfaulted, -⟩ := runStateChangesOnlyByExitOrFault.2 s
  cases hrs : s.rs with
  | constructed => exact absurd hrs hstart.1
  | loaded => exact absurd hrs hstart.2
  | halted c =>
    rw [hhalted c hrs]
    exact hs.2.1 c hrs
  | faulted f =>
    rw [hfaulted f hrs]
    trivial
  | running =>
    obtain ⟨i, _, _, _, hstep⟩ | ⟨f, hstep, _⟩ := step_running_cases hrs
    · obtain ⟨t, ht⟩ | ⟨_, hnever⟩ := exec_next_or_never i s
      · rw [hstep, ht]
        trivial
      · rw [hstep, hnever]
        trivial
    · rw [hstep]
      trivial

theorem run_succ_of_next {s t : State} (h : step s = .next t) (n : Nat) :
    Host.Core.run Sys2Proof.core (n + 1) s = Host.Core.run Sys2Proof.core n t := by
  simp only [Host.Core.run, show Sys2Proof.core.step s = .next t from h]

/-- A run ends with the first step that answers no next state. -/
theorem run_succ_of_stop {s : State} (h : ∀ t, step s ≠ .next t) (n : Nat) :
    Host.Core.run Sys2Proof.core (n + 1) s = step s := by
  cases hstep : step s with
  | next t => exact absurd hstep (h t)
  | fault r =>
    simp only [Host.Core.run, show Sys2Proof.core.step s = .fault r from hstep]
    rfl
  | refused r =>
    simp only [Host.Core.run, show Sys2Proof.core.step s = .refused r from hstep]
    rfl

/-- Every run from a started state in its invariant is safe: by induction on the number of steps. -/
theorem safeOutcome_run {s : State} (hs : s.Inv) (hstart : Started s) (n : Nat) :
    SafeOutcome (Host.Core.run Sys2Proof.core n s) := by
  induction n generalizing s with
  | zero => trivial
  | succ n ih =>
    by_cases h : ∃ t, step s = .next t
    · obtain ⟨t, ht⟩ := h
      rw [run_succ_of_next ht]
      exact ih (stepKeepsTheInvariant s t hs ht) (started_of_step ht)
    · rw [run_succ_of_stop fun t ht => h ⟨t, ht⟩]
      exact safeOutcome_step hs hstart

/-- Settles O20: a booted machine is started and in its invariant. -/
theorem everyRunHasASafeOutcome : Obligations.EveryRunHasASafeOutcome := by
  intro p input tail oracle s n h
  obtain ⟨hinv, hrs, -⟩ := bootedMachineSatisfiesTheInvariant p input tail oracle s h
  exact safeOutcome_run hinv (by simp [Started, hrs]) n

/-! ### What instructions may touch -/

/-- What `exec_cases` leaves of any instruction, Exit, faults and `pc` aside: the other fields lie in the frame. -/
theorem exec_frame {i : Instr} {s t : State} (h : exec i s = .next t) :
    ∃ u, Frame i s u ∧ t.mem = u.mem ∧ t.sp = u.sp ∧ t.attached = u.attached ∧ t.output = u.output ∧
      t.input = u.input ∧ t.inputTail = u.inputTail ∧ t.consumed = u.consumed := by
  obtain ⟨c, rfl, rfl⟩ | ⟨_, u, hu, ht⟩ | ⟨u, f, hu, _, _, rfl⟩ := exec_cases h
  · exact ⟨s, Frame.refl _ s, rfl, rfl, rfl, rfl, rfl, rfl, rfl⟩
  · rw [ht]
    exact ⟨u, hu, rfl, rfl, rfl, rfl, rfl, rfl, rfl⟩
  · exact ⟨u, hu, rfl, rfl, rfl, rfl, rfl, rfl, rfl⟩

/-- Settles O22: the frame keeps the fields an instruction does not write. -/
theorem instructionsKeepWhatTheyDoNotWrite : Obligations.InstructionsKeepWhatTheyDoNotWrite := by
  intro i s t h
  obtain ⟨u, hu, hmem, hsp, hatt, -⟩ := exec_frame h
  exact ⟨hatt.trans hu.attached, fun _ => ⟨fun hk => hsp.trans (hu.sp hk), fun hk a => by rw [hmem, hu.mem hk]⟩⟩

/-- Settles O23: the frame lets output grow, and of instructions that write none, not at all. -/
theorem outputOnlyGrowsByOutputInstructions : Obligations.OutputOnlyGrowsByOutputInstructions := by
  intro i s t h
  obtain ⟨u, hu, -, -, -, hout, -⟩ := exec_frame h
  obtain ⟨bs, hbs, hnone⟩ := hu.output
  exact ⟨⟨bs, hout.trans hbs⟩, fun hw => by rw [hout, hbs, hnone hw, List.append_nil]⟩

/-- Settles O24: the frame counts the bytes taken off the stream, none for an instruction that is no reader. -/
theorem inputIsConsumedInOrderByReaders : Obligations.InputIsConsumedInOrderByReaders := by
  intro i s t h
  obtain ⟨u, hu, -, -, -, -, hin, htail, hcons⟩ := exec_frame h
  obtain ⟨k, hk, hk0⟩ := hu.input
  exact ⟨k, hk.trans (consumes_zero hin htail hcons), hk0⟩

/-- Settles O26: a fault taken is of a kind the instruction's rule lists and records its index, the frame keeping `pc`; what
completes is not faulted. -/
theorem instructionsRaiseOnlyTheirFaults : Obligations.InstructionsRaiseOnlyTheirFaults := by
  intro i s t f hrs ⟨hsp, _⟩ h hf
  obtain ⟨c, rfl, rfl⟩ | ⟨_, u, hu, ht⟩ | ⟨u, f', _, hpc, hkind, rfl⟩ := exec_cases h
  · cases hf
  · rw [ht, State.setPc_rs, hu.rs, hrs] at hf
    cases hf
  · cases hf
    exact ⟨hkind hsp, hpc⟩

/-! ### Canonical Memory, file words -/

theorem readByte_cons_self (k : Nat) (c : Byte) (m : Memory) : Memory.readByte ((k, c) :: m) k = c := if_pos rfl

/-- In a canonical Memory the first listed address is the least that reads as something. -/
theorem Memory.head_le_of_readByte_eq {k k' : Nat} {c c' : Byte} {m m' : Memory} {lo : Nat}
    (h : Memory.wfFrom lo ((k, c) :: m) = true) (h' : Memory.wfFrom lo ((k', c') :: m') = true)
    (heq : ∀ a, Memory.readByte ((k, c) :: m) a = Memory.readByte ((k', c') :: m') a) : k' ≤ k := by
  by_contra hlt
  simp only [Memory.wfFrom, Bool.and_eq_true, decide_eq_true_eq] at h h'
  have hread := heq k
  rw [readByte_cons_self, Memory.readByte_below (lo := k') (by simp [Memory.wfFrom, h']) (by omega)] at hread
  exact h.1.2 hread

/-- Two canonical lists of cells that read alike list the same cells: by induction, the first addresses being equal. -/
theorem Memory.eq_of_readByte_eq {m m' : Memory} {lo : Nat} (h : m.wfFrom lo = true) (h' : m'.wfFrom lo = true)
    (heq : ∀ a, m.readByte a = m'.readByte a) : m = m' := by
  induction m generalizing m' lo with
  | nil =>
    cases m' with
    | nil => rfl
    | cons e t =>
      obtain ⟨k, c⟩ := e
      simp only [Memory.wfFrom, Bool.and_eq_true, decide_eq_true_eq] at h'
      exact absurd ((heq k).trans (readByte_cons_self k c t)).symm h'.1.2
  | cons e t ih =>
    obtain ⟨k, c⟩ := e
    cases m' with
    | nil =>
      simp only [Memory.wfFrom, Bool.and_eq_true, decide_eq_true_eq] at h
      exact absurd ((readByte_cons_self k c t).symm.trans (heq k)) h.1.2
    | cons e' t' =>
      obtain ⟨k', c'⟩ := e'
      obtain rfl : k = k' := Nat.le_antisymm
        (Memory.head_le_of_readByte_eq h' h fun a => (heq a).symm) (Memory.head_le_of_readByte_eq h h' heq)
      obtain rfl : c = c' := by rw [← readByte_cons_self k c t, heq k, readByte_cons_self]
      simp only [Memory.wfFrom, Bool.and_eq_true, decide_eq_true_eq] at h h'
      refine congrArg _ (ih h.2 h'.2 fun a => ?_)
      by_cases ha : k = a
      · rw [Memory.readByte_below h.2 (by omega), Memory.readByte_below h'.2 (by omega)]
      · have := heq a
        rwa [Memory.readByte, Memory.readByte, if_neg ha, if_neg ha] at this

/-- Settles O21: the form from address 0 on. -/
theorem canonicalMemoryIsUnique : Obligations.CanonicalMemoryIsUnique :=
  fun _ _ h h' heq => Memory.eq_of_readByte_eq h h' heq

/-- A file of whole chunks is a list of words, each made of its chunk's bytes. -/
theorem fileWords_of_whole {bs : List Byte} (h : bs.length % 4 = 0) :
    ∃ ws, fileWords bs = some ws ∧ 4 * ws.length = bs.length ∧
      ∀ (k j : Nat) (w : Word), ws[k]? = some w → j < 4 → bs[4 * k + j]? = some (byteOf w j) := by
  fun_induction fileWords bs with
  | case1 => exact ⟨[], rfl, rfl, fun k j w hk => by simp at hk⟩
  | case2 b0 b1 b2 b3 rest ws hws ih =>
    obtain ⟨ws', hws', hlen, hbytes⟩ := ih (by simp only [List.length_cons] at h; omega)
    cases hws.symm.trans hws'
    refine ⟨_, rfl, by simp only [List.length_cons]; omega, fun k j w hk hj => ?_⟩
    cases k with
    | zero =>
      cases hk
      obtain rfl | rfl | rfl | rfl : j = 0 ∨ j = 1 ∨ j = 2 ∨ j = 3 := by omega
      all_goals simp
    | succ k =>
      rw [show 4 * (k + 1) + j = 4 * k + j + 4 by omega]
      exact hbytes k j w hk hj
  | case3 b0 b1 b2 b3 rest hnone ih =>
    obtain ⟨ws', hws', -⟩ := ih (by simp only [List.length_cons] at h; omega)
    rw [hnone] at hws'
    cases hws'
  | case4 bs hnil hcons =>
    match bs, h with
    | [], _ => exact absurd rfl hnil
    | b0 :: b1 :: b2 :: b3 :: rest, _ => exact absurd rfl (hcons b0 b1 b2 b3 rest)

theorem fileWords_of_partial {bs : List Byte} (h : bs.length % 4 ≠ 0) : fileWords bs = none := by
  fun_induction fileWords bs with
  | case1 => exact absurd rfl h
  | case2 b0 b1 b2 b3 rest ws hws ih =>
    rw [ih (by simp only [List.length_cons] at h; omega)] at hws
    cases hws
  | case3 => rfl
  | case4 => rfl

/-- Settles O10: by induction on the chunks of the file. -/
theorem fileBytesMakeLittleEndianWords : Obligations.FileBytesMakeLittleEndianWords :=
  fun _ => ⟨fileWords_of_whole, fun h s => by rw [loadFile, fileWords_of_partial h]⟩

end Sys2Proof.Machine
end

section
/-! The statement about noninterference (10_state.md R29): no operation but those of the readers sees the input stream. -/

namespace Sys2Proof.Machine

/-! ### Operations that do not see the input stream -/

/-- The state with another input stream and another position in it. -/
def State.withStream (s : State) (bs : List Byte) (tail : StreamTail) (n : Nat) : State :=
  { s with input := bs, inputTail := tail, consumed := n }

/-- A result with its state mapped. -/
def mapResult {α : Type} (g : State → State) : EStateM.Result Stop State α → EStateM.Result Stop State α
  | .ok a t => .ok a (g t)
  | .error e t => .error e (g t)

/-- The operation does the same to a state and to its image under `g`. -/
def Commutes {α : Type} (g : State → State) (m : Op α) : Prop := ∀ s, m (g s) = mapResult g (m s)

theorem Commutes.bind {α β : Type} {g : State → State} {m : Op α} {f : α → Op β} (hm : Commutes g m)
    (hf : ∀ a, Commutes g (f a)) : Commutes g (m >>= f) := by
  intro s
  rw [Op.bind_apply, Op.bind_apply, hm s]
  cases m s with
  | ok a t => exact hf a t
  | error e t => rfl

/-- An instruction whose operations commute with `g` completes in the mapped state. -/
theorem complete_next_of_commutes {g : State → State} {m : Op Unit} {s t : State} (hm : Commutes g m)
    (hg : ∀ f u, takeFault f (g u) = g (takeFault f u)) (h : complete m s = .next t) : complete m (g s) = .next (g t) := by
  obtain hok | ⟨f, u, herr, rfl⟩ := complete_next_iff.1 h
  · exact complete_ok (by rw [hm s, hok]; rfl)
  · rw [← hg]
    exact complete_fault (by rw [hm s, herr]; rfl)

section
variable (bs : List Byte) (tail : StreamTail) (n : Nat)

/-- The operation does the same whatever the input stream holds. -/
abbrev Blind {α : Type} (m : Op α) : Prop := Commutes (fun s => s.withStream bs tail n) m

variable {bs tail n}

theorem blind_memRead (i : Int) : Blind bs tail n (memRead i) := by
  intro s
  cases h : inMemory i with
  | true => rw [memRead_ok h, memRead_ok h]; rfl
  | false => rw [memRead_error h, memRead_error h]; rfl

theorem blind_memWrite (i : Int) (v : Word) : Blind bs tail n (memWrite i v) := by
  intro s
  cases h : inMemory i with
  | true => rw [memWrite_ok h, memWrite_ok h]; rfl
  | false => rw [memWrite_error h, memWrite_error h]; rfl

theorem blind_getSp : Blind bs tail n getSp := fun _ => rfl

theorem blind_getPc : Blind bs tail n getPc := fun _ => rfl

theorem blind_putSp (e : Int) : Blind bs tail n (putSp e) := fun _ => rfl

theorem blind_jump (p : Int) : Blind bs tail n (jump p) := fun _ => rfl

theorem blind_advance : Blind bs tail n advance := fun _ => rfl

theorem blind_halt (code : Nat) : Blind bs tail n (halt code) := fun _ => rfl

theorem blind_pushWord (v : Word) : Blind bs tail n (pushWord v) := by
  refine blind_getSp.bind fun sp => ?_
  split
  · exact fun _ => rfl
  · exact (blind_putSp _).bind fun _ => blind_memWrite _ v

theorem blind_popWord : Blind bs tail n popWord :=
  blind_getSp.bind fun _ => (blind_memRead _).bind fun _ => (blind_putSp _).bind fun _ _ => rfl

theorem blind_channel : Blind bs tail n channel := by
  intro s
  cases h : s.oracle.headD false with
  | false => rw [channel_ok h, channel_ok (s := s.withStream bs tail n) h]; rfl
  | true => rw [channel_error h, channel_error (s := s.withStream bs tail n) h]; rfl

theorem blind_emit (b : Byte) : Blind bs tail n (emit b) := blind_channel.bind fun _ _ => rfl

theorem blind_emitAll (text : List Byte) : Blind bs tail n (emitAll text) := by
  induction text with
  | nil => exact fun _ => rfl
  | cons b text ih => exact (blind_emit b).bind fun _ => ih

theorem blind_stprintWalk (k : Nat) (i : Int) : Blind bs tail n (stprintWalk k i) := by
  induction k generalizing i with
  | zero => exact fun _ => rfl
  | succ k ih =>
    refine (blind_memRead i).bind fun w => ?_
    split
    · exact fun _ => rfl
    · refine (blind_emitAll _).bind fun _ => ?_
      split
      · exact ih _
      · exact fun _ => rfl

theorem blind_dumpLines (sp : Int) (k rel : Nat) : Blind bs tail n (dumpLines sp k rel) := by
  induction k generalizing rel with
  | zero => exact fun _ => rfl
  | succ k ih =>
    exact (blind_memRead _).bind fun _ => (blind_emitAll _).bind fun _ => (blind_emit _).bind fun _ => ih _

theorem blind_binOp (f : Word → Word → Option Word) : Blind bs tail n (binOp f) := by
  refine blind_popWord.bind fun r => blind_popWord.bind fun l => ?_
  cases f l r with
  | none => exact fun _ => rfl
  | some v => exact (blind_pushWord v).bind fun _ => blind_advance

theorem blind_unOp (f : Word → Word) : Blind bs tail n (unOp f) :=
  blind_popWord.bind fun _ => (blind_pushWord _).bind fun _ => blind_advance

theorem blind_branch (taken : Bool) (p : Int) : Blind bs tail n (if taken = true then jump p else advance) := by
  cases taken with
  | true => exact blind_jump p
  | false => exact blind_advance

theorem blind_binaryIf (rel : Int → Int → Bool) (off : Int) : Blind bs tail n (binaryIf rel off) :=
  blind_getSp.bind fun _ => (blind_memRead _).bind fun _ => (blind_memRead _).bind fun _ =>
    blind_getPc.bind fun _ => blind_branch _ _

theorem blind_unaryIf (test : Int → Bool) (off : Int) : Blind bs tail n (unaryIf test off) :=
  blind_getSp.bind fun _ => (blind_memRead _).bind fun _ => blind_getPc.bind fun _ => blind_branch _ _

variable (bs tail n)

/-- An instruction that is no reader is the same sequence of operations for every input stream, none of which sees it. -/
theorem exec_blind {i : Instr} (s : State) (hi : i.readsInput = false) :
    ∃ m, exec i s = complete m s ∧ exec i (s.withStream bs tail n) = complete m (s.withStream bs tail n) ∧
      Blind bs tail n m := by
  cases i with
  | input | stinput => cases hi
  | exit => exact ⟨_, rfl, rfl, blind_halt _⟩
  | nop | debug => exact ⟨_, rfl, rfl, blind_advance⟩
  | goto => exact ⟨_, rfl, rfl, blind_jump _⟩
  | swap =>
    exact ⟨_, rfl, rfl, (blind_memRead _).bind fun _ => (blind_memRead _).bind fun _ => (blind_memWrite _ _).bind fun _ =>
      (blind_memWrite _ _).bind fun _ => blind_advance⟩
  | pop => exact ⟨_, rfl, rfl, (blind_putSp _).bind fun _ => blind_advance⟩
  | add | sub | mul | div | rem | and | or | xor | shl | logicalShr | arithmeticShr =>
    exact ⟨_, rfl, rfl, blind_binOp _⟩
  | negate | not => exact ⟨_, rfl, rfl, blind_unOp _⟩
  | stprint =>
    exact ⟨_, rfl, rfl, (blind_stprintWalk _ _).bind fun _ => blind_channel.bind fun _ => blind_advance⟩
  | call => exact ⟨_, rfl, rfl, (blind_pushWord _).bind fun _ => blind_jump _⟩
  | ret =>
    exact ⟨_, rfl, rfl, (blind_memRead _).bind fun _ => (blind_putSp _).bind fun _ => blind_jump _⟩
  | binaryIfEq | binaryIfNe | binaryIfLt | binaryIfGt | binaryIfLe | binaryIfGe =>
    exact ⟨_, rfl, rfl, blind_binaryIf _ _⟩
  | unaryIfEqz | unaryIfNez | unaryIfLtz | unaryIfGez => exact ⟨_, rfl, rfl, blind_unaryIf _ _⟩
  | dup => exact ⟨_, rfl, rfl, (blind_memRead _).bind fun _ => (blind_pushWord _).bind fun _ => blind_advance⟩
  | print =>
    exact ⟨_, rfl, rfl, (blind_memRead _).bind fun _ => (blind_emitAll _).bind fun _ => (blind_emit _).bind fun _ =>
      blind_channel.bind fun _ => blind_advance⟩
  | dump =>
    refine ⟨_, rfl, rfl, ?_⟩
    split
    · exact (blind_dumpLines _ _ _).bind fun _ => blind_channel.bind fun _ => blind_advance
    · exact blind_advance
  | push => exact ⟨_, rfl, rfl, (blind_pushWord _).bind fun _ => blind_advance⟩

end

/-- Settles O25: with the other input stream the instruction answers the same state with that stream. -/
theorem inputIsInvisibleToOtherInstructions : Obligations.InputIsInvisibleToOtherInstructions := by
  intro i s t bs tail n hi h
  obtain ⟨m, hm, hm', hblind⟩ := exec_blind bs tail n s hi
  have hnext := complete_next_of_commutes hblind (fun _ _ => rfl) (hm ▸ h)
  exact ⟨t.withStream bs tail n, hm'.trans hnext, rfl, rfl, fun _ => rfl⟩

end Sys2Proof.Machine
end

section
/-! What a store leaves in Memory and how a fault is taken, in the terms of the statements (`StoresWord`, `SameMemory`,
`FaultsWith`); with it the statements about the stack and the miscellaneous group (40_execution_cycle.md R86,
41_miscellaneous.md, 42_stack.md). -/

namespace Sys2Proof.Machine

/-! ### Words and stores -/

theorem memRead_word {i : Int} (hlo : 0 ≤ i) (hhi : i ≤ 1023) (s : State) : memRead i s = .ok (s.word i) s :=
  memRead_ok ((inMemory_iff i).2 ⟨hlo, hhi⟩) s

theorem memRead_outside {i : Int} (h : i < 0 ∨ 1023 < i) (s : State) :
    memRead i s = .error (.fault (.memoryRange s.pc i)) s :=
  memRead_error ((inMemory_eq_false i).2 h) s

theorem memWrite_word {i : Int} (hlo : 0 ≤ i) (hhi : i ≤ 1023) (v : Word) (s : State) :
    memWrite i v s = .ok () (s.setMem (s.mem.writeWord i.toNat v)) :=
  memWrite_ok ((inMemory_iff i).2 ⟨hlo, hhi⟩) v s

theorem popWord_word {s : State} (hlo : 0 ≤ s.sp) (hhi : s.sp ≤ 1023) :
    popWord s = .ok (s.word s.sp) (s.setSp (s.sp + 1)) :=
  popWord_ok ((inMemory_iff s.sp).2 ⟨hlo, hhi⟩)

theorem popWord_outside {s : State} (h : 1023 < s.sp) : popWord s = .error (.fault (.memoryRange s.pc s.sp)) s :=
  popWord_error ((inMemory_eq_false s.sp).2 (.inr h))

/-- A byte outside word `i` is not touched by a write of the word. -/
theorem readByte_writeWord_outside (m : Memory) {i : Int} (hi : 0 ≤ i) (v : Word) {a : Nat} (ha : ¬ inWord i a) :
    (m.writeWord i.toNat v).readByte a = m.readByte a := by
  refine Memory.readByte_writeWord_other m v ?_
  simp only [inWord] at ha
  omega

/-- A write of word `i` stores it, in the terms of the statements. -/
theorem storesWord_of_writeWord {s t : State} {i : Int} {v : Word} (hwf : s.mem.wf = true) (hlo : 0 ≤ i) (hhi : i ≤ 1023)
    (ht : t.mem = s.mem.writeWord i.toNat v) : StoresWord s t i v := by
  refine ⟨?_, fun a ha => ?_⟩
  · rw [State.word, ht]
    exact Memory.readWord_writeWord_same hwf (by omega) v
  · rw [ht]
    exact readByte_writeWord_outside _ hlo v ha

theorem sameMemory_of_mem_eq {s t : State} (h : t.mem = s.mem) : SameMemory s t := fun _ => by rw [h]

/-! ### Faults in the terms of the statements -/

section
variable {i : Instr} {s t : State} {m : Op Unit} {f : RunFault}

theorem faultsWith_of_error (hexec : exec i s = complete m s) (herr : m s = .error (.fault f) t)
    (hch : SameChannels s t) : FaultsWith i s f :=
  ⟨_, hexec.trans (complete_fault herr), rfl, hch⟩

theorem faultsUnwritten_of_error (hexec : exec i s = complete m s) (herr : m s = .error (.fault f) t)
    (hmem : t.mem = s.mem) (hch : SameChannels s t) : FaultsUnwritten i s f :=
  ⟨_, hexec.trans (complete_fault herr), rfl, sameMemory_of_mem_eq hmem, hch⟩

end

theorem sameChannels_refl (s : State) : SameChannels s s := ⟨⟨rfl, rfl, rfl, rfl⟩, rfl, rfl⟩

/-! ### The Push primitive -/

/-- The state after a push with room. -/
def State.pushed (s : State) (v : Word) : State := (s.setSp (s.sp - 1)).setMem (s.mem.writeWord (s.sp - 1).toNat v)

section
variable {s : State}

theorem pushWord_pushed (h : s.hasRoom) (v : Word) : pushWord v s = .ok () (s.pushed v) := pushWord_ok h.1 h.2 v

@[simp] theorem pushed_sp (v : Word) : (s.pushed v).sp = s.sp - 1 := rfl
@[simp] theorem pushed_pc (v : Word) : (s.pushed v).pc = s.pc := rfl
@[simp] theorem pushed_rs (v : Word) : (s.pushed v).rs = s.rs := rfl

theorem storesWord_pushed (hwf : s.mem.wf = true) (h : s.hasRoom) (v : Word) : StoresWord s (s.pushed v) (s.sp - 1) v := by
  obtain ⟨hlo, hhi⟩ := h
  exact storesWord_of_writeWord hwf (by omega) (by omega) rfl

/-- An instruction that pushes a word with room and then sets `pc`. -/
theorem pushResult_of_pushWord {i : Instr} {v : Word} {p : Int} {rest : Op Unit} (hwf : s.mem.wf = true) (h : s.hasRoom)
    (hexec : exec i s = complete (do pushWord v; rest) s) (hrest : rest (s.pushed v) = .ok () ((s.pushed v).setPc p)) :
    PushResult i s v p := by
  refine ⟨(s.pushed v).setPc p, hexec.trans (complete_ok ?_), storesWord_pushed hwf h v, rfl, rfl, rfl, sameChannels_refl s⟩
  rw [Op.bind_ok _ (pushWord_pushed h v), hrest]

end

/-- Settles O27: the three cases of the primitive. -/
theorem pushPrimitiveChecksThenWrites : Obligations.PushPrimitiveChecksThenWrites := by
  intro v s hwf
  refine ⟨fun hsp => pushWord_overflow hsp _, fun hlo hhi => ?room, fun hsp => ?above⟩
  case room =>
    have hroom : s.hasRoom := ⟨hlo, hhi⟩
    exact ⟨_, pushWord_pushed hroom _, storesWord_pushed hwf hroom _, rfl, rfl, rfl, sameChannels_refl s⟩
  case above =>
    have habove : pushWord (u32 v) s = _ := pushWord_above (by omega) _
    rw [hsp] at habove
    exact ⟨_, habove, sameMemory_of_mem_eq rfl⟩

/-! ### Push, Dup -/

theorem sext_toNat {n : Nat} (hn : 0 < n) (x : BitVec n) : sext n x.toNat = x.toInt := by
  obtain ⟨k, rfl⟩ : ∃ k, n = k + 1 := ⟨n - 1, by omega⟩
  rw [sext, BitVec.toInt_eq_toNat_cond, Nat.add_sub_cancel, pow_succ]
  push_cast
  have hiff : x.toNat < 2 ^ k ↔ 2 * x.toNat < 2 ^ k * 2 := by omega
  simp only [hiff, pow_succ]

/-- A field of R8 is a slice of the bit vector. -/
theorem bits_eq_extractLsb' (w : Word) (hi lo : Nat) : bits w hi lo = (w.extractLsb' lo (hi + 1 - lo)).toNat := by
  rw [bits, BitVec.extractLsb'_toNat, Nat.shiftRight_eq_div_pow]

theorem sext_bits_eq_toInt (w : Word) {hi lo : Nat} (h : lo ≤ hi) :
    sext (hi + 1 - lo) (bits w hi lo) = (w.extractLsb' lo (hi + 1 - lo)).toInt := by
  rw [bits_eq_extractLsb', sext_toNat (by omega)]

/-- Settles O41: the 28-bit field is the signed slice, the push with room stores it, and the overflow writes nothing. -/
theorem pushStoresItsImmediate : Obligations.PushStoresItsImmediate := by
  refine ⟨fun w hw => ?decoded, fun imm s hwf => ⟨fun hroom => ?room, fun hsp => ?full⟩⟩
  case decoded =>
    have himm : sext 28 (bits w 27 0) = (w.extractLsb' 0 28).toInt := sext_bits_eq_toInt w (hi := 27) (by decide)
    obtain ⟨hlo, hhi⟩ := sext_range (by decide) (bits_lt w 27 0)
    rw [himm] at hlo hhi
    exact ⟨_, decode_of_readFrom ⟨bits_group_of_and_mask hw, himm⟩, hlo, Int.le_of_lt_add_one hhi, rfl⟩
  case room => exact pushResult_of_pushWord hwf hroom rfl rfl
  case full =>
    exact faultsUnwritten_of_error rfl (Op.bind_error _ (pushWord_overflow hsp _)) rfl (sameChannels_refl s)

/-- Settles O39: the read comes first and changes nothing, so the push finds the old `sp`. -/
theorem dupPushesACopy : Obligations.DupPushesACopy := by
  intro off s hwf hsp hidx
  have hread : memRead (stackIndex s off) s = .ok (s.word (s.sp + ((off / 4 : Nat) : Int))) s := by
    rw [stackIndex_natCast]
    exact memRead_word (by omega) hidx s
  refine pushResult_of_pushWord (rest := advance) hwf ⟨hsp, by omega⟩ ?_ rfl
  change complete _ s = _
  unfold complete
  rw [Op.bind_ok _ hread]

/-- Settles O40: the read faults first; a read that goes on leaves the full stack to the push. -/
theorem dupFaultsInOrder : Obligations.DupFaultsInOrder := by
  rintro off s i hi hsp
  have hidx : stackIndex s off = i := (stackIndex_natCast s off).trans hi.symm
  refine ⟨fun hout => ?_, fun hin hfull => ?_⟩
  · refine faultsWith_of_error rfl (Op.bind_error _ ?_) (sameChannels_refl s)
    rw [hidx]
    exact memRead_outside (.inr hout) s
  · have hread : memRead (stackIndex s off) s = .ok (s.word i) s := by
      rw [hidx]
      exact memRead_word (by omega) hin s
    refine faultsUnwritten_of_error (t := s) rfl ?_ rfl (sameChannels_refl s)
    rw [Op.bind_ok _ hread]
    exact Op.bind_error _ (pushWord_overflow (by omega) _)

/-! ### Exit, Nop, Debug -/

/-- Settles O30: the one operation of Exit. -/
theorem exitHaltsWithItsCode : Obligations.ExitHaltsWithItsCode := fun code s => exec_exit code s

/-- Settles O33: the one operation of both is the Advance phase. -/
theorem nopAndDebugOnlyAdvance : Obligations.NopAndDebugOnlyAdvance :=
  fun s => ⟨complete_ok (advance_apply s), complete_ok (advance_apply s)⟩

/-! ### Swap, and Print outside Memory -/

/-- Two words exchanged, in the order in which Swap writes them. -/
def swapWords (m : Memory) (a b : Nat) : Memory := (m.writeWord a (m.readWord b)).writeWord b (m.readWord a)

theorem readWord_swapWords {m : Memory} (hwf : m.wf = true) {a b : Nat} (ha : a < 1024) (hb : b < 1024) :
    (swapWords m a b).readWord a = m.readWord b ∧ (swapWords m a b).readWord b = m.readWord a := by
  have hwf' := Memory.writeWord_wf hwf ha (m.readWord b)
  refine ⟨?_, Memory.readWord_writeWord_same hwf' hb _⟩
  by_cases hab : a = b
  · subst hab
    exact Memory.readWord_writeWord_same hwf' ha _
  · rw [swapWords, Memory.readWord_writeWord_other _ _ hab, Memory.readWord_writeWord_same hwf ha]

/-- Swap with both indices in Memory. -/
theorem exec_swap_of_inside {fromOff toOff : Int} {s : State} {a b : Int} (ha : a = stackIndex s fromOff)
    (hb : b = stackIndex s toOff) (halo : 0 ≤ a) (hahi : a ≤ 1023) (hblo : 0 ≤ b) (hbhi : b ≤ 1023) :
    exec (.swap fromOff toOff) s = .next ((s.setMem (swapWords s.mem a.toNat b.toNat)).setPc (s.pc + 1)) := by
  refine complete_ok ?_
  rw [← ha, ← hb, Op.bind_ok _ (memRead_word halo hahi s), Op.bind_ok _ (memRead_word hblo hbhi s),
    Op.bind_ok _ (memWrite_word halo hahi _ s), Op.bind_ok _ (memWrite_word hblo hbhi _ _)]
  rfl

/-- Settles O31: both reads come before either write, so each word lands at the other's index, also where they are
one. -/
theorem swapExchangesTwoWords : Obligations.SwapExchangesTwoWords := by
  refine ⟨fun _ _ => rfl, fun fromOff toOff s a b ha hb hwf halo hahi hblo hbhi => ?_⟩
  obtain ⟨hwa, hwb⟩ := readWord_swapWords hwf (a := a.toNat) (b := b.toNat) (by omega) (by omega)
  refine ⟨_, exec_swap_of_inside ha hb halo hahi hblo hbhi, hwa, hwb, fun c hca hcb => ?_, rfl, rfl, rfl,
    sameChannels_refl s⟩
  change (swapWords s.mem a.toNat b.toNat).readByte c = _
  rw [swapWords, readByte_writeWord_outside _ hblo _ hcb, readByte_writeWord_outside _ halo _ hca]

/-- Settles O32: the reads come first, that of `from` before that of `to`. -/
theorem offsetsOutsideMemoryFault : Obligations.OffsetsOutsideMemoryFault := by
  refine ⟨fun fromOff toOff s a b ha hb => ⟨fun hout => ?_, fun hlo hhi hout => ?_⟩, fun off s i hi hout => ?_⟩
  · refine faultsUnwritten_of_error rfl (Op.bind_error _ ?_) rfl (sameChannels_refl s)
    rw [← ha]
    exact memRead_outside hout s
  · refine faultsUnwritten_of_error (t := s) rfl ?_ rfl (sameChannels_refl s)
    rw [← ha, ← hb, Op.bind_ok _ (memRead_word hlo hhi s), Op.bind_error _ (memRead_outside hout s)]
  · refine faultsWith_of_error rfl (Op.bind_error _ ?_) (sameChannels_refl s)
    rw [← hi]
    exact memRead_outside hout s

end Sys2Proof.Machine
end

section
/-! The statements about the ALU instructions (43_arithmetic.md): what each computes, and what `binOp` and `unOp` do with
it. -/

namespace Sys2Proof.Machine

/-! ### What each instruction computes -/

section
variable (l r : Word)

theorem u32_s32 : u32 (s32 l) = l := BitVec.ofInt_toInt

theorem u32_add (x y : Int) : u32 (x + y) = u32 x + u32 y := BitVec.ofInt_add x y

theorem u32_neg (x : Int) : u32 (-x) = -u32 x := BitVec.ofInt_neg

theorem u32_mul (x y : Int) : u32 (x * y) = u32 x * u32 y := BitVec.ofInt_mul x y

theorem aluAdd_eq : aluAdd l r = some (l + r) := by rw [aluAdd, u32_add, u32_s32, u32_s32]

theorem aluSub_eq : aluSub l r = some (l - r) := by
  rw [aluSub, Int.sub_eq_add_neg, u32_add, u32_neg, u32_s32, u32_s32, BitVec.sub_eq_add_neg]

theorem aluMul_eq : aluMul l r = some (l * r) := by rw [aluMul, u32_mul, u32_s32, u32_s32]

theorem s32_eq_zero_iff : s32 r = 0 ↔ r = 0#32 := by
  rw [← BitVec.toInt_inj, BitVec.toInt_zero, s32]

/-- The exact quotient, reduced to a word, wraps as the bit vectors' division does. -/
theorem aluDiv_eq {r : Word} (hr : r ≠ 0#32) : aluDiv l r = some (l.sdiv r) := by
  rw [aluDiv, if_neg (mt (s32_eq_zero_iff r).mp hr)]
  refine congrArg some (BitVec.eq_of_toInt_eq ?_)
  rw [u32, BitVec.toInt_ofInt, BitVec.toInt_sdiv, tdiv, s32, s32]

theorem aluRem_eq {r : Word} (hr : r ≠ 0#32) : aluRem l r = some (l.srem r) := by
  have htrem : trem (s32 l) (s32 r) = s32 (l.srem r) := by
    rw [trem, tdiv, ← Int.tmod_def]
    exact (BitVec.toInt_srem l r).symm
  rw [aluRem, if_neg (mt (s32_eq_zero_iff r).mp hr), htrem, u32_s32]

theorem aluDiv_zero : aluDiv l 0#32 = none := if_pos rfl

theorem aluRem_zero : aluRem l 0#32 = none := if_pos rfl

theorem aluShl_eq : aluShl l r = some (l <<< (r.toNat % 32)) := by
  have hpow : u32 (2 ^ shiftAmount shiftModulus r) = BitVec.twoPow 32 (r.toNat % 32) := by
    apply BitVec.eq_of_toNat_eq
    rw [BitVec.toNat_twoPow, ← BitVec.toNat_ofNat, ← BitVec.ofInt_natCast]
    push_cast
    rfl
  rw [aluShl, u32_mul, u32_s32, hpow, BitVec.shiftLeft_eq_mul_twoPow]

theorem aluLogicalShr_eq : aluLogicalShr l r = some (l >>> (r.toNat % 32)) := by
  have hdiv : (l.toNat : Int) / 2 ^ shiftAmount shiftModulus r = ((l >>> (r.toNat % 32)).toNat : Nat) := by
    rw [BitVec.toNat_ushiftRight, Nat.shiftRight_eq_div_pow]
    push_cast
    rfl
  rw [aluLogicalShr, hdiv, u32, BitVec.ofInt_natCast, BitVec.ofNat_toNat, BitVec.setWidth_eq]

theorem aluArithmeticShr_eq : aluArithmeticShr l r = some (l.sshiftRight (r.toNat % 32)) := by
  have hdiv : s32 l / 2 ^ shiftAmount shiftModulus r = s32 (l.sshiftRight (r.toNat % 32)) := by
    rw [s32, s32, BitVec.toInt_sshiftRight, Int.shiftRight_eq_div_pow]
    push_cast
    rfl
  rw [aluArithmeticShr, hdiv, u32_s32]

theorem aluNegate_eq : aluNegate l = -l := by rw [aluNegate, u32_neg, u32_s32]

theorem aluNot_eq : aluNot l = l ^^^ 0xFFFFFFFF#32 := BitVec.xor_allOnes.symm

end

/-! ### The two shapes of an ALU instruction -/

section
variable {i : Instr} {s : State}

/-- The state with both operands popped. -/
def State.poppedTwo (s : State) : State := (s.setSp (s.sp + 1)).setSp (s.sp + 2)

theorem popWord_twice (h : s.hasTwo) :
    popWord s = .ok (s.word s.sp) (s.setSp (s.sp + 1)) ∧
      popWord (s.setSp (s.sp + 1)) = .ok (s.word (s.sp + 1)) s.poppedTwo := by
  obtain ⟨hlo, hhi⟩ := h
  have hl := popWord_word (s := s.setSp (s.sp + 1)) (by simp only [State.setSp_sp]; omega)
    (by simp only [State.setSp_sp]; omega)
  rw [State.setSp_sp, Int.add_assoc] at hl
  exact ⟨popWord_word hlo (by omega), hl⟩

theorem binOp_of_some {f : Word → Word → Option Word} {v : Word} (h : s.hasTwo)
    (hv : f (s.word (s.sp + 1)) (s.word s.sp) = some v) : binOp f s = (do pushWord v; advance : Op Unit) s.poppedTwo := by
  obtain ⟨hr, hl⟩ := popWord_twice h
  rw [binOp, Op.bind_ok _ hr, Op.bind_ok _ hl]
  simp only [hv]

theorem binOp_of_none {f : Word → Word → Option Word} (h : s.hasTwo)
    (hv : f (s.word (s.sp + 1)) (s.word s.sp) = none) :
    binOp f s = .error (.fault (.divideByZero s.pc)) s.poppedTwo := by
  obtain ⟨hr, hl⟩ := popWord_twice h
  rw [binOp, Op.bind_ok _ hr, Op.bind_ok _ hl]
  simp only [hv]
  exact raise_apply _ _

/-- A computed word replaces the two operands. -/
theorem binaryResult_of_binOp {f : Word → Word → Option Word} {v : Word} (hexec : exec i s = complete (binOp f) s)
    (hwf : s.mem.wf = true) (h : s.hasTwo) (hv : f (s.word (s.sp + 1)) (s.word s.sp) = some v) : BinaryResult i s v := by
  have hsp : s.poppedTwo.sp - 1 = s.sp + 1 := by simp only [State.poppedTwo, State.setSp_sp]; omega
  have hroom : s.poppedTwo.hasRoom := by
    obtain ⟨hlo, hhi⟩ := h
    simp only [State.hasRoom, State.poppedTwo, State.setSp_sp]
    omega
  have hend : binOp f s = .ok () ((s.poppedTwo.pushed v).setPc (s.pc + 1)) :=
    (binOp_of_some h hv).trans (Op.bind_ok _ (pushWord_pushed hroom v))
  exact ⟨_, hexec.trans (complete_ok hend), hsp ▸ storesWord_pushed (s := s.poppedTwo) hwf hroom v, hsp, rfl, rfl,
    sameChannels_refl s⟩

/-- No value: DivideByZero, with both operands popped and nothing pushed. -/
theorem faultsUnwritten_of_binOp {f : Word → Word → Option Word} (hexec : exec i s = complete (binOp f) s)
    (h : s.hasTwo) (hv : f (s.word (s.sp + 1)) (s.word s.sp) = none) :
    FaultsUnwritten i s (.divideByZero s.pc) :=
  faultsUnwritten_of_error hexec (binOp_of_none h hv) rfl (sameChannels_refl s)

/-- The state with the operand popped. -/
def State.poppedOne (s : State) : State := s.setSp (s.sp + 1)

/-- A computed word replaces the operand. -/
theorem unaryResult_of_unOp {f : Word → Word} (hexec : exec i s = complete (unOp f) s) (hwf : s.mem.wf = true)
    (h : s.hasOne) : UnaryResult i s (f (s.word s.sp)) := by
  obtain ⟨hlo, hhi⟩ := h
  have hsp : s.poppedOne.sp - 1 = s.sp := by simp only [State.poppedOne, State.setSp_sp]; omega
  have hroom : s.poppedOne.hasRoom := by
    simp only [State.hasRoom, State.poppedOne, State.setSp_sp]
    omega
  have hpop : popWord s = .ok (s.word s.sp) s.poppedOne := popWord_word hlo hhi
  have hend : unOp f s = .ok () ((s.poppedOne.pushed (f (s.word s.sp))).setPc (s.pc + 1)) := by
    rw [unOp, Op.bind_ok _ hpop]
    exact Op.bind_ok _ (pushWord_pushed hroom _)
  exact ⟨_, hexec.trans (complete_ok hend), hsp ▸ storesWord_pushed (s := s.poppedOne) hwf hroom _, hsp, rfl, rfl,
    sameChannels_refl s⟩

end

/-! ### The statements -/

/-- Settles O44: the exact sum, difference and product, reduced to a word, are the bit vectors' own. -/
theorem addSubMulWrap : Obligations.AddSubMulWrap := by
  rintro s l r rfl rfl hwf h
  exact ⟨binaryResult_of_binOp rfl hwf h (aluAdd_eq _ _), binaryResult_of_binOp rfl hwf h (aluSub_eq _ _),
    binaryResult_of_binOp rfl hwf h (aluMul_eq _ _)⟩

/-- Settles O45: a nonzero right operand gives a value, the truncated quotient or its remainder. -/
theorem divAndRemRoundTowardZero : Obligations.DivAndRemRoundTowardZero := by
  rintro s l r rfl rfl hwf h hr
  exact ⟨binaryResult_of_binOp rfl hwf h (aluDiv_eq _ hr), binaryResult_of_binOp rfl hwf h (aluRem_eq _ hr)⟩

/-- Settles O46: a zero right operand gives no value. -/
theorem divisionByZeroFaults : Obligations.DivisionByZeroFaults := by
  intro s h hr
  exact ⟨faultsUnwritten_of_binOp rfl h (hr ▸ aluDiv_zero _), faultsUnwritten_of_binOp rfl h (hr ▸ aluRem_zero _)⟩

/-- Settles O47: the results are the bit vectors' operations, read bit by bit. -/
theorem bitwiseOperationsWorkBitByBit : Obligations.BitwiseOperationsWorkBitByBit := by
  rintro s l r rfl rfl hwf h
  exact ⟨_, _, _, binaryResult_of_binOp rfl hwf h rfl, binaryResult_of_binOp rfl hwf h rfl,
    binaryResult_of_binOp rfl hwf h rfl, fun k _ => ⟨BitVec.getLsbD_and, BitVec.getLsbD_or, BitVec.getLsbD_xor⟩⟩

/-- Settles O48: the three scalings by a power of two are the bit vectors' shifts. -/
theorem shiftsUseTheLowFiveBits : Obligations.ShiftsUseTheLowFiveBits := by
  rintro s l r n rfl rfl rfl hwf h
  exact ⟨binaryResult_of_binOp rfl hwf h (aluShl_eq _ _), binaryResult_of_binOp rfl hwf h (aluLogicalShr_eq _ _),
    binaryResult_of_binOp rfl hwf h (aluArithmeticShr_eq _ _)⟩

/-- Settles O49: both are `unOp` of a function of the top word. -/
theorem negateAndNotReplaceTheTop : Obligations.NegateAndNotReplaceTheTop := by
  intro s hwf h
  rw [← aluNegate_eq, ← aluNot_eq]
  exact ⟨unaryResult_of_unOp rfl hwf h, unaryResult_of_unOp rfl hwf h⟩

end Sys2Proof.Machine
end

section
/-! The statements about missing operands and about control transfer (44_control.md), and that a pushed word is fetched like
any other (20_memory.md R45). -/

namespace Sys2Proof.Machine

/-! ### Missing operands -/

theorem exec_of_isBinary {i : Instr} (h : i.isBinary = true) : ∃ f, ∀ s, exec i s = complete (binOp f) s := by
  cases i with
  | add | sub | mul | div | rem | and | or | xor | shl | logicalShr | arithmeticShr => exact ⟨_, fun _ => rfl⟩
  | _ => cases h

theorem exec_of_isBinaryIf {i : Instr} (h : i.isBinaryIf = true) :
    ∃ rel off, ∀ s, exec i s = complete (binaryIf rel off) s := by
  cases i with
  | binaryIfEq | binaryIfNe | binaryIfLt | binaryIfGt | binaryIfLe | binaryIfGe => exact ⟨_, _, fun _ => rfl⟩
  | _ => cases h

section
variable {s : State}

theorem binOp_error_at_sp (h : 1023 < s.sp) (f : Word → Word → Option Word) :
    binOp f s = .error (.fault (.memoryRange s.pc s.sp)) s := Op.bind_error _ (popWord_outside h)

theorem binOp_error_above_sp (h : s.sp = 1023) (f : Word → Word → Option Word) :
    binOp f s = .error (.fault (.memoryRange s.pc 1024)) (s.setSp 1024) := by
  have hr : popWord s = .ok (s.word s.sp) (s.setSp 1024) := by
    rw [popWord_word (by omega) (by omega), h]
    rfl
  rw [binOp, Op.bind_ok _ hr]
  exact Op.bind_error _ (popWord_outside (s := s.setSp 1024) (by simp))

theorem binaryIf_error_at_sp (h : 1023 < s.sp) (rel : Int → Int → Bool) (off : Int) :
    binaryIf rel off s = .error (.fault (.memoryRange s.pc s.sp)) s := by
  rw [binaryIf, Op.bind_ok _ (getSp_apply s)]
  exact Op.bind_error _ (memRead_outside (.inr h) s)

theorem binaryIf_error_above_sp (h : s.sp = 1023) (rel : Int → Int → Bool) (off : Int) :
    binaryIf rel off s = .error (.fault (.memoryRange s.pc 1024)) s := by
  rw [binaryIf, Op.bind_ok _ (getSp_apply s), Op.bind_ok _ (memRead_word (by omega) (by omega) s), h]
  exact Op.bind_error _ (memRead_outside (.inr (by decide)) s)

theorem unaryIf_error_at_sp (h : 1023 < s.sp) (test : Int → Bool) (off : Int) :
    unaryIf test off s = .error (.fault (.memoryRange s.pc s.sp)) s := by
  rw [unaryIf, Op.bind_ok _ (getSp_apply s)]
  exact Op.bind_error _ (memRead_outside (.inr h) s)

end

/-- Settles O50: each shape of instruction reads at `sp` first and at `sp + 1` second. -/
theorem missingOperandsFault : Obligations.MissingOperandsFault := by
  refine ⟨fun i s hi => ?_, fun i s hi hsp => ?_⟩
  · rcases hi with hi | hi
    · obtain ⟨f, hexec⟩ := exec_of_isBinary hi
      exact ⟨fun hsp => faultsWith_of_error (hexec s) (binOp_error_at_sp hsp f) (sameChannels_refl s),
        fun hsp => faultsWith_of_error (hexec s) (binOp_error_above_sp hsp f) (sameChannels_refl s)⟩
    · obtain ⟨rel, off, hexec⟩ := exec_of_isBinaryIf hi
      exact ⟨fun hsp => faultsWith_of_error (hexec s) (binaryIf_error_at_sp hsp rel off) (sameChannels_refl s),
        fun hsp => faultsWith_of_error (hexec s) (binaryIf_error_above_sp hsp rel off) (sameChannels_refl s)⟩
  · cases i with
    | negate | not => exact faultsWith_of_error rfl (Op.bind_error _ (popWord_outside hsp)) (sameChannels_refl s)
    | ret => exact faultsWith_of_error rfl (Op.bind_error _ (memRead_outside (.inr hsp) s)) (sameChannels_refl s)
    | unaryIfEqz | unaryIfNez | unaryIfLtz | unaryIfGez =>
      exact faultsWith_of_error rfl (unaryIf_error_at_sp hsp _ _) (sameChannels_refl s)
    | _ => cases hi

/-! ### Call, Return, Goto -/

/-- Settles O51: the signed slice, a push of the next index before the jump, and on a full stack the push's fault. -/
theorem callPushesTheReturnAddress : Obligations.CallPushesTheReturnAddress := by
  refine ⟨fun w hw => ?decoded, fun off s hwf => ⟨fun hroom => ?room, fun hsp => ?full⟩⟩
  case decoded =>
    exact decode_of_readFrom ⟨bits_group_of_and_mask hw, sext_bits_eq_toInt w (hi := 25) (by decide)⟩
  case room => exact pushResult_of_pushWord hwf hroom rfl rfl
  case full =>
    exact ⟨_, complete_fault (Op.bind_error _ (pushWord_overflow hsp _)), rfl, rfl, sameMemory_of_mem_eq rfl,
      sameChannels_refl s⟩

theorem returnSp_eq {sp : Int} (hsp : sp ≤ 1023) (extra : Nat) :
    returnSp sp extra = if sp + 1 + ((extra / 4 : Nat) : Int) ≤ 1024 then sp + 1 + ((extra / 4 : Nat) : Int) else 1025 := by
  rw [returnSp, widx_natCast, clamp, Config.spReset]
  omega

/-- Settles O52: the read at `sp`, then the two registers. -/
theorem returnTakesTheTopWord : Obligations.ReturnTakesTheTopWord := by
  rintro extra s ⟨hlo, hhi⟩
  rw [← returnSp_eq hhi]
  exact complete_ok (Op.bind_ok _ (memRead_word hlo hhi s))

theorem toNat_returnAddress {p : Int} (hlo : 0 ≤ p) (hhi : p ≤ 1023) : ((BitVec.ofInt 32 (p + 1)).toNat : Int) = p + 1 := by
  rw [BitVec.toNat_ofInt]
  omega

/-- Settles O53: the Call stores `pc + 1` at its new `sp`, which Return reads, and both move `sp` by one. -/
theorem returnUndoesCall : Obligations.ReturnUndoesCall := by
  intro off s hwf hroom hlo hhi
  obtain ⟨t, hcall, ⟨hword, -⟩, hsp, -⟩ := (callPushesTheReturnAddress.2 off s hwf).1 hroom
  obtain ⟨hsplo, hsphi⟩ := hroom
  refine ⟨t, hcall, fun u husp huword => ?_⟩
  have hone : u.hasOne := by rw [State.hasOne]; omega
  refine ⟨_, returnTakesTheTopWord 0 u hone, ?_, ?_⟩
  · rw [huword, hsp, hword]
    exact toNat_returnAddress hlo hhi
  · simp only [Nat.zero_div]
    omega

/-- Settles O54: the one operation of Goto is the jump, and the fetch at a far target faults. -/
theorem gotoMovesOnlyPc : Obligations.GotoMovesOnlyPc := by
  refine ⟨fun w hw => ?_, fun off s t ht => ⟨?_, fun hrs hout => ?_⟩⟩
  · exact decode_of_readFrom ⟨bits_group_of_and_mask hw, sext_bits_eq_toInt w (hi := 25) (lo := 2) (by decide)⟩
  · rw [ht]
    exact complete_ok (jump_apply _ s)
  · exact step_of_fetch_outside (by rw [ht]; exact hrs) hout

/-! ### The conditional branches -/

section
variable {s : State}

theorem jump_or_advance (taken : Bool) (off : Int) :
    (if taken = true then jump (target s.pc off) else advance : Op Unit) s =
      .ok () (s.setPc (s.pc + if taken = true then off else 1)) := by
  cases taken <;> rfl

theorem binaryIf_of_hasTwo (h : s.hasTwo) (rel : Int → Int → Bool) (off : Int) : binaryIf rel off s =
    .ok () (s.setPc (s.pc + if rel (s32 (s.word (s.sp + 1))) (s32 (s.word s.sp)) = true then off else 1)) := by
  obtain ⟨hlo, hhi⟩ := h
  rw [binaryIf, Op.bind_ok _ (getSp_apply s), Op.bind_ok _ (memRead_word hlo (by omega) s),
    Op.bind_ok _ (memRead_word (by omega) (by omega) s), Op.bind_ok _ (getPc_apply s), jump_or_advance]

theorem unaryIf_of_hasOne (h : s.hasOne) (test : Int → Bool) (off : Int) : unaryIf test off s =
    .ok () (s.setPc (s.pc + if test (s32 (s.word s.sp)) = true then off else 1)) := by
  obtain ⟨hlo, hhi⟩ := h
  rw [unaryIf, Op.bind_ok _ (getSp_apply s), Op.bind_ok _ (memRead_word hlo hhi s), Op.bind_ok _ (getPc_apply s),
    jump_or_advance]

end

section
variable (l r v : Word)

theorem relEq_s32 : relEq (s32 l) (s32 r) = true ↔ l = r := by rw [relEq, decide_eq_true_iff, s32, s32, BitVec.toInt_inj]

theorem relNe_s32 : relNe (s32 l) (s32 r) = true ↔ ¬ l = r := by
  rw [relNe, decide_eq_true_iff, s32, s32, Ne, BitVec.toInt_inj]

theorem testEqz_s32 : testEqz (s32 v) = true ↔ v = 0#32 := by rw [testEqz, decide_eq_true_iff, s32_eq_zero_iff]

theorem testNez_s32 : testNez (s32 v) = true ↔ ¬ v = 0#32 := by rw [testNez, decide_eq_true_iff, Ne, s32_eq_zero_iff]

theorem testLtz_s32 : testLtz (s32 v) = true ↔ v.msb = true := by rw [testLtz, BitVec.msb_eq_toInt, s32]

theorem testGez_s32 : testGez (s32 v) = true ↔ ¬ v.msb = true := by
  rw [testGez, BitVec.msb_eq_toInt, s32, decide_eq_true_iff, decide_eq_true_iff]
  omega

end

/-- Settles O55: the six relations on signed words, each taken or not. -/
theorem binaryIfBranchesOnSignedComparison : Obligations.BinaryIfBranchesOnSignedComparison := by
  rintro off s l r rfl rfl h
  have hbranch (rel : Int → Int → Bool) : complete (binaryIf rel off) s = _ := complete_ok (binaryIf_of_hasTwo h rel off)
  refine ⟨(hbranch relEq).trans ?_, (hbranch relNe).trans ?_, hbranch relLt, hbranch relGt, hbranch relLe, hbranch relGe⟩
  · simp only [relEq_s32]
    rfl
  · simp only [relNe_s32, ite_not]
    rfl

/-- Settles O56: the four tests of the signed top word, each taken or not. -/
theorem unaryIfBranchesOnTheTopWord : Obligations.UnaryIfBranchesOnTheTopWord := by
  rintro off s v rfl h
  have hbranch (test : Int → Bool) : complete (unaryIf test off) s = _ := complete_ok (unaryIf_of_hasOne h test off)
  refine ⟨(hbranch testEqz).trans ?_, (hbranch testNez).trans ?_, (hbranch testLtz).trans ?_, (hbranch testGez).trans ?_⟩
  · simp only [testEqz_s32]
    rfl
  · simp only [testNez_s32, ite_not]
    rfl
  · simp only [testLtz_s32]
    rfl
  · simp only [testGez_s32, ite_not]
    rfl

/-! ### Memory is one array -/

/-- Settles O43: the push stores its word at `sp - 1 = pc + 1`, where the next cycle fetches. -/
theorem pushedWordIsFetchedNext : Obligations.PushedWordIsFetchedNext := by
  intro imm s hwf hrs hlo hhi hsp hdec
  have hroom : s.hasRoom := by rw [State.hasRoom]; omega
  obtain ⟨t, hpush, ⟨hword, -⟩, -, hpc, hrs', -⟩ := (pushStoresItsImmediate.2 imm s hwf).1 hroom
  refine ⟨t, (step_of_decode_ok hrs hlo (by omega) hdec).trans hpush, hrs'.trans hrs, ?_⟩
  rw [fetch_word (by omega) (by omega), ← hword, hpc, hsp]
  congr 2
  omega

end Sys2Proof.Machine
end

section
/-! The texts of Print and Dump and the number parser of Input (41_miscellaneous.md R101, 45_output.md R153, R154): a text
of digits spells a number, and the parser reads what a text spells. -/

namespace Sys2Proof.Machine

/-! ### Texts that spell a number -/

theorem digitOf_digitChar {v : Nat} (h : v < 16) : digitOf (digitChar v) = some v := by
  have hall : ∀ v < 16, digitOf (digitChar v) = some v := by decide
  exact hall v h

theorem spells_nil (base : Nat) : Spells base [] 0 := ⟨by simp, rfl⟩

/-- One more digit at the end. -/
theorem Spells.snoc {base n v : Nat} {text : List Byte} (h : Spells base text n) (hv : v < base) (hbase : base ≤ 16) :
    Spells base (text ++ [digitChar v]) (n * base + v) := by
  obtain ⟨hdigits, hval⟩ := h
  have hdigit := digitOf_digitChar (v := v) (by omega)
  refine ⟨fun b hb => ?_, ?_⟩
  · obtain hb | hb := List.mem_append.1 hb
    · exact hdigits b hb
    · rw [List.mem_singleton.1 hb]
      exact ⟨v, hdigit, hv⟩
  · rw [List.foldl_append, hval]
    simp [hdigit]

/-- The digits of a number, while the fuel lasts, spell it. -/
theorem spells_digitsOf {base fuel n : Nat} (hlo : 2 ≤ base) (hhi : base ≤ 16) (hn : n < base ^ fuel) :
    Spells base (digitsOf base fuel n) n := by
  induction fuel generalizing n with
  | zero =>
    obtain rfl : n = 0 := by simpa using hn
    exact spells_nil base
  | succ fuel ih =>
    rw [digitsOf]
    split
    case isTrue h => simpa using (spells_nil base).snoc h hhi
    case isFalse h =>
      have hdiv : n / base < base ^ fuel := Nat.div_lt_of_lt_mul (by rwa [pow_succ'] at hn)
      have := (ih hdiv).snoc (Nat.mod_lt n (by omega)) hhi
      rwa [Nat.div_add_mod'] at this

/-- The digits of a positive number begin with a digit other than zero. -/
theorem digitsOf_eq_cons {base fuel n : Nat} (hlo : 2 ≤ base) (hhi : base ≤ 16) (hn : n < base ^ fuel) (hpos : 0 < n) :
    ∃ b rest, digitsOf base fuel n = b :: rest ∧ b ≠ 0x30#8 := by
  induction fuel generalizing n with
  | zero => simp at hn; omega
  | succ fuel ih =>
    rw [digitsOf]
    split
    case isTrue h =>
      refine ⟨_, [], rfl, fun hzero => ?_⟩
      have hdigit := digitOf_digitChar (v := n) (by omega)
      rw [hzero] at hdigit
      have : 0 = n := Option.some.inj hdigit
      omega
    case isFalse h =>
      have hdiv : n / base < base ^ fuel := Nat.div_lt_of_lt_mul (by rwa [pow_succ'] at hn)
      obtain ⟨b, rest, hcons, hb⟩ := ih hdiv (Nat.div_pos (by omega) (by omega))
      exact ⟨b, _, by rw [hcons, List.cons_append], hb⟩

theorem spellsPlain_digitsWord {base n : Nat} (hlo : 2 ≤ base) (hhi : base ≤ 16) (hn : n < 2 ^ 32) :
    SpellsPlain base (digitsWord base n) n := by
  have hfuel : n < base ^ 32 := Nat.lt_of_lt_of_le hn (Nat.pow_le_pow_left hlo 32)
  refine ⟨spells_digitsOf hlo hhi hfuel, ?_⟩
  obtain rfl | hpos := Nat.eq_zero_or_pos n
  · have hzero : digitsWord base 0 = [0x30#8] := if_pos (by omega)
    simp [hzero]
  · obtain ⟨b, rest, hcons, hb⟩ := digitsOf_eq_cons hlo hhi hfuel hpos
    have : digitsWord base n = b :: rest := hcons
    simp [this, hb]

theorem spells_hexFixed {k n : Nat} (hn : n < 16 ^ k) : Spells 16 (hexFixed k n) n := by
  induction k generalizing n with
  | zero =>
    obtain rfl : n = 0 := by simpa using hn
    exact spells_nil 16
  | succ k ih =>
    have hdiv : n / 16 < 16 ^ k := Nat.div_lt_of_lt_mul (by rwa [pow_succ'] at hn)
    have := (ih hdiv).snoc (Nat.mod_lt n (by decide)) (le_refl 16)
    rwa [Nat.div_add_mod'] at this

theorem length_hexFixed (k n : Nat) : (hexFixed k n).length = k := by
  induction k generalizing n with
  | zero => rfl
  | succ k ih => simp [hexFixed, ih]

theorem formatDecimal_of_neg {x : Int} (h : x < 0) : formatDecimal x = 0x2D#8 :: digitsWord 10 x.natAbs := if_pos h

theorem formatDecimal_of_nonneg {x : Int} (h : 0 ≤ x) : formatDecimal x = digitsWord 10 x.natAbs := if_neg (by omega)

/-- The texts of Print are those of R153. -/
theorem formatPrint_spells (v : Word) :
    (v.msb = false → SpellsPlain 10 (formatPrint 0 v) v.toNat) ∧
    (v.msb = true → ∃ d, formatPrint 0 v = 0x2D#8 :: d ∧ SpellsPlain 10 d (4294967296 - v.toNat)) ∧
    SpellsPlain 16 (formatPrint 1 v) v.toNat ∧ SpellsPlain 2 (formatPrint 2 v) v.toNat ∧
    SpellsPlain 8 (formatPrint 3 v) v.toNat := by
  have hlt := v.isLt
  refine ⟨fun hmsb => ?_, fun hmsb => ?_, spellsPlain_digitsWord (by decide) (by decide) hlt,
    spellsPlain_digitsWord (by decide) (by decide) hlt, spellsPlain_digitsWord (by decide) (by decide) hlt⟩
  · have hint : v.toInt = v.toNat := BitVec.toInt_eq_toNat_of_msb hmsb
    have habs : v.toInt.natAbs = v.toNat := by omega
    rw [formatPrint, formatDecimal_of_nonneg (by omega), habs]
    exact spellsPlain_digitsWord (by decide) (by decide) hlt
  · have hge := BitVec.toNat_ge_of_msb_true hmsb
    have hint := BitVec.toInt_eq_msb_cond v
    rw [if_pos hmsb] at hint
    have habs : v.toInt.natAbs = 4294967296 - v.toNat := by omega
    have hneg : v.toInt < 0 := by omega
    refine ⟨_, formatDecimal_of_neg hneg, ?_⟩
    rw [habs]
    exact spellsPlain_digitsWord (by decide) (by decide) (by omega)

/-! ### The parser reads what a text spells -/

/-- A digit of the base means the same to the parser. -/
theorem digitValue_of_digitOf {base v : Nat} {b : Byte} (h : digitOf b = some v) (hv : v < base) :
    digitValue base b = some v := by
  simp only [digitOf] at h
  simp only [digitValue]
  split at h
  case isTrue hdecimal =>
    cases h
    rw [if_pos hdecimal, if_pos hv]
  case isFalse hdecimal =>
    split at h
    case isTrue hletter =>
      cases h
      rw [if_neg hdecimal, if_pos hletter, if_pos hv]
    case isFalse => cases h

theorem digitsFrom_of_digits {base : Nat} {text : List Byte}
    (h : ∀ b ∈ text, ∃ v, digitOf b = some v ∧ v < base) (acc : Nat) :
    digitsFrom base acc text = some (text.foldl (fun acc b => acc * base + (digitOf b).getD 0) acc) := by
  induction text generalizing acc with
  | nil => rfl
  | cons b text ih =>
    obtain ⟨v, hdigit, hv⟩ := h b (by simp)
    simp only [digitsFrom, digitValue_of_digitOf hdigit hv, List.foldl_cons, hdigit, Option.getD_some]
    exact ih (fun b hb => h b (by simp [hb])) _

theorem digitsNat_of_spells {base n : Nat} {text : List Byte} (h : SpellsPlain base text n) :
    digitsNat base text = some n := by
  obtain ⟨⟨hdigits, hval⟩, hne, -⟩ := h
  rw [digitsNat, if_neg hne, digitsFrom_of_digits hdigits, hval]

theorem parsePrefixed_of_spells {base : Nat} {text : List Byte} {v : Word} (h : SpellsPlain base text v.toNat) :
    parsePrefixed base text = some v := by
  have hle : v.toNat ≤ 0xFFFFFFFF := Nat.le_of_lt_succ v.isLt
  simp only [parsePrefixed, digitsNat_of_spells h, if_pos hle, BitVec.ofNat_toNat, BitVec.setWidth_eq]

/-- A text of decimal digits has no sign and names no base. -/
theorem parseInput_of_digits {text : List Byte} (h : ∀ b ∈ text, ∃ v, digitOf b = some v ∧ v < 10) :
    parseInput text = parseSigned false text := by
  have hx : ¬ ∃ v, digitOf 0x78#8 = some v ∧ v < 10 := by simp [digitOf]
  have hb : ¬ ∃ v, digitOf 0x62#8 = some v ∧ v < 10 := by simp [digitOf]
  have hminus : ¬ ∃ v, digitOf 0x2D#8 = some v ∧ v < 10 := by simp [digitOf]
  unfold parseInput
  split
  · exact absurd (h _ (by simp)) hx
  · exact absurd (h _ (by simp)) hb
  · exact absurd (h _ (by simp)) hminus
  · rfl

theorem parseSigned_of_spells {text : List Byte} {neg : Bool} {x : Int} (hx : x = if neg then -(x.natAbs : Int) else x.natAbs)
    (hlo : -2147483648 ≤ x) (hhi : x ≤ 2147483647) (h : SpellsPlain 10 text x.natAbs) :
    parseSigned neg text = some (BitVec.ofInt 32 x) := by
  simp only [parseSigned, digitsNat_of_spells h, ← hx, if_pos (And.intro hlo hhi)]

/-- A signed word's decimal text parses back to it. -/
theorem parseInput_formatDecimal {x : Int} (hlo : -2147483648 ≤ x) (hhi : x ≤ 2147483647) :
    parseInput (formatDecimal x) = some (BitVec.ofInt 32 x) := by
  have hspells : SpellsPlain 10 (digitsWord 10 x.natAbs) x.natAbs :=
    spellsPlain_digitsWord (by decide) (by decide) (by omega)
  by_cases hneg : x < 0
  · rw [formatDecimal_of_neg hneg]
    exact parseSigned_of_spells (neg := true) (by rw [if_pos rfl]; omega) hlo hhi hspells
  · rw [formatDecimal_of_nonneg (by omega), parseInput_of_digits hspells.1.1]
    exact parseSigned_of_spells (by rw [if_neg (by decide)]; omega) hlo hhi hspells

/-- Settles O29: each text spells the word's number, and the parser reads what it spells. -/
theorem printedNumbersParseBack : Obligations.PrintedNumbersParseBack := by
  intro v
  obtain ⟨-, -, hhex, hbin, -⟩ := formatPrint_spells v
  have hlo := BitVec.le_toInt v
  have hhi : v.toInt < 2 ^ 31 := BitVec.toInt_lt
  refine ⟨?_, parsePrefixed_of_spells hhex, parsePrefixed_of_spells hbin⟩
  rw [formatPrint, parseInput_formatDecimal hlo (by omega), BitVec.ofInt_toInt]

end Sys2Proof.Machine
end

section
/-! The statements about the output instructions (45_output.md): each emits one text, flushes and advances (`Emits`), and
what becomes of a text when no operation fails, or when operation `k` does. -/

namespace Sys2Proof.Machine

/-! ### Emitting a text -/

/-- An operation is run for its result alone. -/
theorem Op.bind_congr {α β : Type} {m m' : Op α} {f f' : α → Op β} {s : State} (hm : m s = m' s)
    (hf : ∀ a t, m' s = .ok a t → f a t = f' a t) : (m >>= f) s = (m' >>= f') s := by
  rw [Op.bind_apply, Op.bind_apply, hm]
  cases h : m' s with
  | ok a t => exact hf a t h
  | error e t => rfl

theorem Op.bind_assoc {α β γ : Type} (m : Op α) (f : α → Op β) (g : β → Op γ) (s : State) :
    ((m >>= f) >>= g) s = (m >>= fun a => f a >>= g) s := by
  rw [Op.bind_apply, Op.bind_apply, Op.bind_apply]
  cases m s with
  | ok a t => exact (Op.bind_apply _ _ t).symm
  | error e t => rfl

theorem complete_congr {m m' : Op Unit} {s : State} (h : m s = m' s) : complete m s = complete m' s := by
  rw [complete, complete, h]

theorem emitAll_append (xs ys : List Byte) (s : State) :
    emitAll (xs ++ ys) s = (do emitAll xs; emitAll ys : Op Unit) s := by
  induction xs generalizing s with
  | nil => rfl
  | cons x xs ih =>
    rw [List.cons_append, emitAll, emitAll, Op.bind_assoc]
    exact Op.bind_congr rfl fun _ t _ => ih t

theorem emitAll_singleton (b : Byte) (s : State) : emitAll [b] s = emit b s := by
  rw [emitAll, Op.bind_apply]
  cases emit b s <;> rfl

/-- Emitting leaves Memory alone. -/
theorem mem_of_emitAll {text : List Byte} {s t : State} {u : Unit} (h : emitAll text s = .ok u t) : t.mem = s.mem := by
  have hframe : Framed .dump s (emitAll text s) := framed_emitAll rfl (.head _) text
  rw [h] at hframe
  exact hframe.mem rfl

/-! ### The outcome of a text -/

/-- The instruction emits the text, flushes and advances. -/
def Emits (i : Instr) (s : State) (text : List Byte) : Prop :=
  exec i s = complete (do emitAll text; flush; advance) s

section
variable {i : Instr} {s : State} {text : List Byte}

/-- No operation fails: the whole text is emitted. -/
theorem Emits.next_of_noFailure (h : Emits i s text) (hs : s.noFailure) :
    exec i s =
      .next { s with output := s.output ++ text, oracle := s.oracle.drop (text.length + 1), pc := s.pc + 1 } := by
  refine h.trans (complete_ok ?_)
  have hdrop : ∀ b ∈ s.oracle.drop text.length, b = false := fun b hb => hs b (List.mem_of_mem_drop hb)
  rw [Op.bind_ok _ (emitAll_ok hs text), flush, Op.bind_ok _ (channel_ok (headD_of_noFailure hdrop))]
  simp only [advance_apply, State.setOutput_oracle, State.setOracle_oracle, List.tail_drop]
  rfl

/-- Operations that do not fail emit their bytes. -/
theorem emitAll_of_oracle (bs : List Byte) {o : List Bool} (h : s.oracle = List.replicate bs.length false ++ o) :
    emitAll bs s = .ok () ((s.setOracle o).setOutput (s.output ++ bs)) := by
  induction bs generalizing s with
  | nil =>
    rw [List.append_nil, show o = s.oracle from h.symm]
    rfl
  | cons b bs ih =>
    rw [List.length_cons, List.replicate_succ, List.cons_append] at h
    rw [emitAll, Op.bind_ok _ (emit_ok (by rw [h]; rfl) b), ih (by rw [State.setOutput_oracle, State.setOracle_oracle, h]; rfl)]
    simp only [State.setOutput_output, List.append_assoc, List.singleton_append]
    rfl

/-- Operation `k` fails: the first `k` bytes are emitted and the run ends. -/
theorem Emits.next_of_failure (h : Emits i s text) {k : Nat} {rest : List Bool} (hk : k ≤ text.length)
    (ho : s.oracle = List.replicate k false ++ true :: rest) :
    exec i s = .next (takeFault (.ioError s.pc) ((s.setOracle rest).setOutput (s.output ++ text.take k))) := by
  have hemitted : emitAll (text.take k) s =
      .ok () ((s.setOracle (true :: rest)).setOutput (s.output ++ text.take k)) :=
    emitAll_of_oracle _ (by rwa [List.length_take_of_le hk])
  refine h.trans (complete_fault ?_)
  obtain hlt | rfl := Nat.lt_or_eq_of_le hk
  · refine Op.bind_error _ ?_
    rw [← List.take_append_drop k text, emitAll_append, List.take_append_drop, Op.bind_ok _ hemitted,
      List.drop_eq_getElem_cons hlt, emitAll]
    exact Op.bind_error _ (emit_error rfl _)
  · rw [List.take_length] at hemitted ⊢
    rw [Op.bind_ok _ hemitted]
    exact Op.bind_error _ (channel_error rfl)

end

/-! ### Print -/

theorem emits_print {off : Int} {s : State} {idx : Int} (hidx : stackIndex s off = idx) (hlo : 0 ≤ idx) (hhi : idx ≤ 1023) :
    Emits (.print off) s (formatPrint (off % 4).toNat (s.word idx) ++ [newline]) := by
  refine complete_congr ?_
  rw [hidx, Op.bind_ok _ (memRead_word hlo hhi s)]
  refine Eq.trans ?_ (Op.bind_congr (emitAll_append _ _ s) fun _ _ _ => rfl).symm
  rw [Op.bind_assoc]
  exact Op.bind_congr rfl fun _ t _ => Op.bind_congr (emitAll_singleton newline t).symm fun _ _ _ => rfl

/-- Settles O58: the texts are those of R153, and Print emits one with a newline behind it. -/
theorem printEmitsALine : Obligations.PrintEmitsALine := by
  refine ⟨formatPrint_spells, ?_⟩
  rintro off s i text hi hlo hhi rfl hs
  exact (emits_print hi.symm hlo hhi).next_of_noFailure hs

/-! ### Stprint -/

theorem byteOf_eq_extractLsb' (w : Word) (k : Nat) : byteOf w k = w.extractLsb' (8 * k) 8 := by
  apply BitVec.eq_of_toNat_eq
  rw [byteOf_toNat, BitVec.extractLsb'_toNat, Nat.shiftRight_eq_div_pow, pow_mul]
  rfl

theorem printedBytes_eq (w : Word) : printedBytes w =
    [w.extractLsb' 0 8, w.extractLsb' 8 8, w.extractLsb' 16 8].filter (fun b => decide (b ≠ 0x01#8)) := by
  simp only [printedBytes, Config.chunk, Config.sentinel, funext (byteOf_eq_extractLsb' w)]
  rfl

/-- The continuation flag is bit 24. -/
theorem continues_eq_getLsbD (w : Word) : continues w = w.getLsbD 24 := by
  rw [continues, BitVec.getLsbD, Nat.testBit_eq_decide_div_mod_eq]
  rfl

theorem wordsUp_eq_map (s : State) (i : Int) (n : Nat) :
    s.wordsUp i n = (List.range n).map (fun k : Nat => s.word (i + (k : Int))) := by
  simp [State.wordsUp, List.map_eq_flatMap, List.flatMap_assoc]

theorem wordsUp_succ (s : State) (i : Int) (n : Nat) : s.wordsUp i (n + 1) = s.word i :: s.wordsUp (i + 1) n := by
  rw [wordsUp_eq_map, wordsUp_eq_map, List.range_succ_eq_map, List.map_cons, List.map_map]
  refine congrArg₂ List.cons (by simp) (List.map_congr_left fun k _ => ?_)
  simp only [Function.comp_apply, Nat.succ_eq_add_one]
  congr 1
  push_cast
  omega

theorem wordsUp_of_mem_eq {s t : State} (h : t.mem = s.mem) (i : Int) (n : Nat) : t.wordsUp i n = s.wordsUp i n := by
  simp only [State.wordsUp, State.word, h]

/-- The walk emits the packed string of the words it walks over. -/
theorem stprintWalk_eq_emitAll {n : Nat} {i : Int} (s : State) (hlo : 0 ≤ i) (hn : n = 0 ∨ i + n ≤ 1024) :
    stprintWalk n i s = emitAll (packedText (s.wordsUp i n)) s := by
  induction n generalizing i s with
  | zero => rfl
  | succ n ih =>
    rw [stprintWalk, Op.bind_ok _ (memRead_word hlo (by omega) s), wordsUp_succ, packedText]
    split
    · rfl
    · rw [emitAll_append, printedBytes_eq]
      refine Op.bind_congr rfl fun _ t ht => ?_
      rw [continues_eq_getLsbD]
      split
      · rw [ih t (by omega) (by omega), wordsUp_of_mem_eq (mem_of_emitAll ht)]
      · rfl

theorem emits_stprint {off : Nat} {s : State} {idx : Int} (hidx : stackIndex s off = idx) (hsp : 0 ≤ s.sp) :
    Emits (.stprint off) s (packedText (s.wordsUp idx (1024 - idx).toNat)) := by
  have hge : 0 ≤ idx := by rw [← hidx, stackIndex_natCast]; omega
  refine complete_congr (Op.bind_congr ?_ fun _ _ _ => rfl)
  rw [hidx, wordsFrom_eq]
  exact stprintWalk_eq_emitAll s hge (by omega)

/-- Settles O57: the walk emits the packed string. -/
theorem stprintEmitsThePackedString : Obligations.StprintEmitsThePackedString := by
  rintro off s i text hi rfl hsp hs
  exact (emits_stprint ((stackIndex_natCast s off).trans hi.symm) hsp).next_of_noFailure hs

/-! ### Dump -/

/-- The lines of Dump from relative address `rel`. -/
def dumpTextFrom (s : State) (sp : Int) (rel n : Nat) : List Byte :=
  (List.range n).flatMap (fun k => formatDump (rel + k) (s.word (sp + (rel + k : Nat))) ++ [newline])

theorem dumpTextFrom_succ (s : State) (sp : Int) (rel n : Nat) :
    dumpTextFrom s sp rel (n + 1) = formatDump rel (s.word (sp + rel)) ++ ([newline] ++ dumpTextFrom s sp (rel + 1) n) := by
  simp only [dumpTextFrom, List.range_succ_eq_map, List.flatMap_cons, List.flatMap_map, Nat.add_zero, List.append_assoc,
    Nat.succ_eq_add_one, Nat.add_right_comm rel 1, ← Nat.add_assoc]

theorem dumpLines_eq_emitAll {sp : Int} {n rel : Nat} (s : State) (hsp : 0 ≤ sp) (hn : sp + rel + n ≤ 1024) :
    dumpLines sp n rel s = emitAll (dumpTextFrom s sp rel n) s := by
  induction n generalizing rel s with
  | zero => rfl
  | succ n ih =>
    rw [dumpLines, Op.bind_ok _ (memRead_word (by omega) (by omega) s), dumpTextFrom_succ, emitAll_append]
    refine Op.bind_congr rfl fun _ t ht => ?_
    rw [emitAll_append]
    refine Op.bind_congr (emitAll_singleton newline t).symm fun _ u hu => ?_
    have hmem : u.mem = s.mem := (mem_of_emitAll hu).trans (mem_of_emitAll ht)
    rw [ih u (by push_cast; omega)]
    simp only [dumpTextFrom, State.word, hmem]

theorem emits_dump {s : State} (h : s.hasOne) : Emits .dump s (s.dumpText (1024 - s.sp).toNat) := by
  obtain ⟨hlo, hhi⟩ := h
  have hlt : s.sp < (Config.memWords : Int) := by simp only [Config.memWords]; omega
  have htext : s.dumpText (1024 - s.sp).toNat = dumpTextFrom s s.sp 0 (1024 - s.sp).toNat := by
    simp only [State.dumpText, dumpTextFrom, Nat.zero_add]
  refine complete_congr ?_
  rw [if_pos hlt, htext]
  refine Op.bind_congr ?_ fun _ _ _ => rfl
  rw [wordsFrom_eq]
  exact dumpLines_eq_emitAll s hlo (by omega)

/-- Settles O59: a line is two fixed-width hexadecimal numbers, and the lines are emitted from the top of the stack. -/
theorem dumpEmitsTheStack : Obligations.DumpEmitsTheStack := by
  refine ⟨fun rel v hrel => ?_, fun s => ⟨fun hsp => ?_, ?_⟩⟩
  · exact ⟨hexFixed 4 rel, hexFixed 8 v.toNat, rfl, length_hexFixed 4 rel, spells_hexFixed (by omega),
      length_hexFixed 8 v.toNat, spells_hexFixed v.isLt⟩
  · have hge : ¬ s.sp < (Config.memWords : Int) := by simp only [Config.memWords]; omega
    exact (complete_congr (by rw [if_neg hge])).trans (complete_ok (advance_apply s))
  · rintro text rfl hone hs
    exact (emits_dump hone).next_of_noFailure hs

/-! ### A failing channel -/

/-- Settles O60: each of the three instructions emits its text, up to the failing operation. -/
theorem failingChannelKeepsEmittedBytes : Obligations.FailingChannelKeepsEmittedBytes := by
  intro i s text k rest hi hk ho
  have hemits : Emits i s text := by
    obtain ⟨off, rfl, hlo, hhi, rfl⟩ | ⟨off, rfl, hsp, rfl⟩ | ⟨rfl, hone, rfl⟩ := hi
    · exact emits_print rfl hlo hhi
    · exact emits_stprint rfl hsp
    · exact emits_dump hone
  exact ⟨_, hemits.next_of_failure hk ho, rfl, rfl, rfl, rfl, rfl, rfl⟩

end Sys2Proof.Machine
end

section
/-! The statements about ReadLine (40_execution_cycle.md R88) and about the instructions that wait for ever (R84, S13): what
the loop does is read off what the stream answers (`State.incoming`) and what the oracle answers. -/

namespace Sys2Proof.Machine

/-! ### What the stream answers -/

/-- The answer ends a line: a terminator, or the end of the stream (R88). -/
def Incoming.endsLine : Incoming → Bool
  | .byte b => Machine.endsLine b
  | .endOfStream => true
  | .nothing => false

theorem endsLine_eq_true_iff (b : Byte) : endsLine b = true ↔ b = 0x0A#8 ∨ b = 0x00#8 := by
  rw [endsLine, Bool.or_eq_true, decide_eq_true_iff, decide_eq_true_iff, newline]

theorem endsLine_eq_false_iff (b : Byte) : endsLine b = false ↔ b ≠ 0x0A#8 ∧ b ≠ 0x00#8 := by
  rw [← Bool.not_eq_true, endsLine_eq_true_iff, not_or]

theorem mem_lineEnds_iff (a : Incoming) : a ∈ [.byte 0x0A#8, .byte 0x00#8, .endOfStream] ↔ a.endsLine = true := by
  cases a with
  | byte b => simp [Incoming.endsLine, endsLine_eq_true_iff]
  | endOfStream => simp [Incoming.endsLine]
  | nothing => simp [Incoming.endsLine]

theorem incoming_of_getElem? {l : List Byte} {n : Nat} {b : Byte} (tail : StreamTail) (h : l[n]? = some b) :
    incoming n l tail = .byte b := by
  induction l generalizing n with
  | nil => simp at h
  | cons c l ih =>
    cases n with
    | zero =>
      cases h
      rfl
    | succ n => exact ih h

/-- The bytes at hand come first, then the next block. -/
theorem incoming_of_append_block {l : List Byte} {tail : StreamTail} {n : Nat} {b : Byte}
    (h : (l ++ tail.block)[n]? = some b) : incoming n l tail = .byte b := by
  induction l generalizing n with
  | nil =>
    cases hb : tail.block with
    | nil => simp [hb] at h
    | cons c bs =>
      rw [List.nil_append, hb] at h
      cases n with
      | zero =>
        cases h
        simp only [incoming, hb]
      | succ n =>
        simp only [incoming, hb]
        exact incoming_of_getElem? _ h
  | cons c l ih =>
    cases n with
    | zero =>
      cases h
      rfl
    | succ n => exact ih h

theorem incoming_of_ahead {s : State} {k : Nat} {b : Byte} (h : s.ahead[k]? = some b) : s.incoming k = .byte b :=
  incoming_of_append_block h

theorem incoming_ends_at_length (l : List Byte) : incoming l.length l .ends = .endOfStream := by
  induction l with
  | nil => rfl
  | cons c l ih => exact ih

/-- A stream that has not ended, with no terminator at hand and none in its next block, never ends the line. -/
theorem incoming_not_endsLine {l : List Byte} {tail : StreamTail} (htail : tail ≠ .ends)
    (h : ∀ b ∈ l ++ tail.block, endsLine b = false) (n : Nat) : (incoming n l tail).endsLine = false := by
  induction n generalizing l tail with
  | zero =>
    cases l with
    | cons c l => exact h c (by simp)
    | nil =>
      cases tail with
      | ends => exact absurd rfl htail
      | silent => rfl
      | repeats b bs => exact h b (by simp)
      | lines k =>
        obtain ⟨b, hb, hends⟩ := StreamTail.endsLine_mem_block_lines k
        rw [h b (by simpa using hb)] at hends
        cases hends
  | succ n ih =>
    cases l with
    | cons c l => exact ih htail fun b hb => h b (List.mem_cons_of_mem c hb)
    | nil =>
      cases tail with
      | ends => exact absurd rfl htail
      | silent => rfl
      | repeats b bs =>
        refine ih (l := bs) (tail := .repeats b bs) (by simp) fun c hc => h c ?_
        simp only [StreamTail.block_repeats, List.nil_append, List.mem_append, List.mem_cons] at hc ⊢
        tauto
      | lines k =>
        obtain ⟨b, hb, hends⟩ := StreamTail.endsLine_mem_block_lines k
        rw [h b (by simpa using hb)] at hends
        cases hends

/-! ### The line -/

theorem getElem?_of_takeWhile {l : List Byte} {p : Byte → Bool} {k : Nat} {b : Byte} (h : (l.takeWhile p)[k]? = some b) :
    l[k]? = some b ∧ p b = true := by
  refine ⟨?_, List.mem_takeWhile_imp (List.mem_of_getElem? h)⟩
  obtain ⟨rest, hrest⟩ := List.takeWhile_prefix p (l := l)
  rw [← hrest]
  exact List.getElem?_append_left (List.getElem?_eq_some_iff.1 h).1 ▸ h

/-- Behind the bytes before the first terminator stands the terminator, if there is one. -/
theorem getElem?_length_takeWhile {l : List Byte} {p : Byte → Bool} (h : l.any p = true) :
    ∃ b, l[(l.takeWhile (fun b => !p b)).length]? = some b ∧ p b = true := by
  induction l with
  | nil => simp at h
  | cons c l ih =>
    cases hc : p c with
    | true => exact ⟨c, by simp [hc], hc⟩
    | false =>
      obtain ⟨b, hb, hp⟩ := ih (by simpa [hc] using h)
      exact ⟨b, by simpa [hc] using hb, hp⟩

section
variable {s : State}

/-- A byte of the line comes at its place and is no terminator. -/
theorem incoming_of_line {k : Nat} {b : Byte} (h : s.line[k]? = some b) : s.incoming k = .byte b ∧ endsLine b = false := by
  obtain ⟨hk, hb⟩ := getElem?_of_takeWhile h
  exact ⟨incoming_of_ahead hk, by simpa using hb⟩

theorem incoming_at_terminator (h : s.terminated = true) :
    ∃ b, s.incoming s.line.length = .byte b ∧ endsLine b = true := by
  obtain ⟨b, hb, hends⟩ := getElem?_length_takeWhile h
  exact ⟨b, incoming_of_ahead hb, hends⟩

theorem lineEnds_cases (h : s.lineEnds = true) : s.terminated = true ∨ s.terminated = false ∧ s.inputTail = .ends := by
  cases ht : s.terminated with
  | true => exact .inl rfl
  | false => exact .inr ⟨rfl, by simpa [State.lineEnds, ht] using h⟩

/-- Without a terminator the line of a stream that ends is all that is at hand. -/
theorem incoming_at_end (h : s.terminated = false) (htail : s.inputTail = .ends) :
    s.incoming s.line.length = .endOfStream := by
  have hahead : s.ahead = s.input := by rw [State.ahead, htail, StreamTail.block_ends, List.append_nil]
  have hline : s.line = s.input := by
    rw [State.line, hahead, List.takeWhile_eq_self_iff]
    intro b hb
    rw [State.terminated, hahead, List.any_eq_false] at h
    simpa using h b hb
  rw [State.incoming, hline, htail]
  exact incoming_ends_at_length s.input

theorem incoming_endsLine_of_lineEnds (h : s.lineEnds = true) : (s.incoming s.line.length).endsLine = true := by
  obtain ht | ⟨ht, htail⟩ := lineEnds_cases h
  · obtain ⟨b, hb, hends⟩ := incoming_at_terminator ht
    rw [hb]
    exact hends
  · rw [incoming_at_end ht htail]
    rfl

theorem incoming_of_not_lineEnds (h : s.lineEnds = false) (k : Nat) : (s.incoming k).endsLine = false := by
  simp only [State.lineEnds, Bool.or_eq_false_iff, decide_eq_false_iff_not] at h
  obtain ⟨hterm, htail⟩ := h
  refine incoming_not_endsLine htail (fun b hb => ?_) k
  rw [State.terminated, List.any_eq_false] at hterm
  simpa using hterm b hb

end

/-! ### Calls of InByte -/

/-- `k` bytes have been taken off the stream by `calls` operations of the channel, and nothing else has changed. -/
structure InputMoves (s t : State) (k calls : Nat) : Prop where
  consumes : Consumes s t k
  oracle : t.oracle = s.oracle.drop calls
  mem : t.mem = s.mem
  pc : t.pc = s.pc
  sp : t.sp = s.sp
  rs : t.rs = s.rs
  output : t.output = s.output

theorem InputMoves.refl (s : State) : InputMoves s s 0 0 where
  consumes := consumes_zero rfl rfl rfl
  oracle := rfl
  mem := rfl
  pc := rfl
  sp := rfl
  rs := rfl
  output := rfl

theorem InputMoves.trans {s t u : State} {j k c d : Nat} (h : InputMoves s t j c) (h' : InputMoves t u k d) :
    InputMoves s u (j + k) (c + d) where
  consumes := h.consumes.trans h'.consumes
  oracle := by rw [h'.oracle, h.oracle, List.drop_drop]
  mem := h'.mem.trans h.mem
  pc := h'.pc.trans h.pc
  sp := h'.sp.trans h.sp
  rs := h'.rs.trans h.rs
  output := h'.output.trans h.output

/-- One answer of the oracle used up. -/
theorem inputMoves_oracle (s : State) : InputMoves s (s.setOracle s.oracle.tail) 0 1 :=
  { InputMoves.refl s with
    consumes := consumes_zero rfl rfl rfl
    oracle := List.drop_one.symm }

theorem headD_eq_false_iff (o : List Bool) : o.headD false = false ↔ o[0]? ≠ some true := by
  cases o <;> simp

theorem headD_eq_true_iff (o : List Bool) : o.headD false = true ↔ o[0]? = some true := by
  cases o <;> simp

section
variable {s : State}

/-- What taking a byte does, by what the stream answers. -/
theorem takeByte_of_incoming (s : State) :
    (∃ b t, s.incoming 0 = .byte b ∧ takeByte s = .ok (some b) t ∧ InputMoves s t 1 0) ∨
      (s.incoming 0 = .endOfStream ∧ takeByte s = .ok none s) ∨
      (s.incoming 0 = .nothing ∧ takeByte s = .error .never s) := by
  obtain ⟨b, rest, hi, h⟩ | ⟨b, rest, hi, hb, h⟩ | ⟨hi, hl, h⟩ | ⟨hi, hl, h⟩ := takeByte_cases s
  · refine .inl ⟨b, _, ?_, h, { InputMoves.refl s with consumes := consumes_byte hi }⟩
    rw [State.incoming, hi]
    rfl
  · refine .inl ⟨b, _, ?_, h, { InputMoves.refl s with consumes := consumes_block hi hb }⟩
    simp only [State.incoming, hi, incoming, hb]
  · refine .inr (.inl ⟨?_, h⟩)
    rw [State.incoming, hi, hl]
    rfl
  · refine .inr (.inr ⟨?_, h⟩)
    rw [State.incoming, hi, hl]
    rfl

/-- What an InByte does: it fails, or it does what the stream answers. -/
theorem inByte_cases (s : State) :
    (s.oracle[0]? = some true ∧ inByte s = .error (.fault (.ioError s.pc)) (s.setOracle s.oracle.tail)) ∨
      (s.oracle[0]? ≠ some true ∧
        ((∃ b t, s.incoming 0 = .byte b ∧ inByte s = .ok (some b) t ∧ InputMoves s t 1 1) ∨
          (s.incoming 0 = .endOfStream ∧ inByte s = .ok none (s.setOracle s.oracle.tail)) ∨
          (s.incoming 0 = .nothing ∧ inByte s = .error .never (s.setOracle s.oracle.tail)))) := by
  by_cases ho : s.oracle[0]? = some true
  · exact .inl ⟨ho, inByte_error ((headD_eq_true_iff _).2 ho)⟩
  · refine .inr ⟨ho, ?_⟩
    rw [inByte_ok ((headD_eq_false_iff _).2 ho)]
    obtain ⟨b, t, hb, h, ht⟩ | ⟨hend, h⟩ | ⟨hnothing, h⟩ := takeByte_of_incoming (s.setOracle s.oracle.tail)
    · exact .inl ⟨b, t, hb, h, (inputMoves_oracle s).trans ht⟩
    · exact .inr (.inl ⟨hend, h⟩)
    · exact .inr (.inr ⟨hnothing, h⟩)

/-! ### The loop of ReadLine -/

/-- The loop over bytes that end no line, with no failing operation: they are read, and the loop goes on behind them. -/
theorem readLineFrom_bytes {l : List Byte} (h : ∀ k b, l[k]? = some b → s.incoming k = .byte b ∧ endsLine b = false)
    (ho : ∀ k < l.length, s.oracle[k]? ≠ some true) (buf : List Byte) :
    ∃ t, InputMoves s t l.length l.length ∧ ∀ n, readLineFrom (n + l.length) buf s = readLineFrom n (buf ++ l) t := by
  induction l generalizing s buf with
  | nil => exact ⟨s, InputMoves.refl s, fun n => by rw [List.append_nil]; rfl⟩
  | cons c l ih =>
    obtain ⟨hc, hends⟩ := h 0 c rfl
    obtain ⟨ho0, _⟩ | ⟨_, ⟨b, t, hb, hin, ht⟩ | ⟨hend, _⟩ | ⟨hnothing, _⟩⟩ := inByte_cases s
    · exact absurd ho0 (ho 0 (by simp))
    · cases hc.symm.trans hb
      obtain ⟨u, hu, hloop⟩ := ih (s := t)
        (fun k b hk => by rw [ht.consumes.2.1]; exact h (k + 1) b hk)
        (fun k hk => by
          rw [ht.oracle, List.getElem?_drop, Nat.add_comm]
          exact ho (k + 1) (Nat.succ_lt_succ hk))
        (buf ++ [c])
      refine ⟨u, ?_, fun n => ?_⟩
      · have := ht.trans hu
        rwa [Nat.add_comm] at this
      · rw [List.length_cons, ← Nat.add_assoc, readLineFrom_byte hin hends, hloop n, List.append_assoc, List.singleton_append]
    · cases hc.symm.trans hend
    · cases hc.symm.trans hnothing

/-- A loop that the stream never ends and the oracle never fails in time never completes. -/
theorem readLineFrom_never (hin : ∀ k, (s.incoming k).endsLine = false)
    (ho : ∀ k, s.oracle[k]? = some true → ∃ j < k, s.incoming j = .nothing) (n : Nat) (buf : List Byte) :
    ∃ t, readLineFrom n buf s = .error .never t := by
  induction n generalizing s buf with
  | zero => exact ⟨s, rfl⟩
  | succ n ih =>
    obtain ⟨ho0, _⟩ | ⟨_, ⟨b, t, hb, hbyte, ht⟩ | ⟨hend, _⟩ | ⟨_, hnever⟩⟩ := inByte_cases s
    · obtain ⟨j, hj, _⟩ := ho 0 ho0
      exact absurd hj (Nat.not_lt_zero j)
    · have hends : endsLine b = false := by simpa [hb, Incoming.endsLine] using hin 0
      rw [readLineFrom_byte hbyte hends]
      refine ih (fun k => by rw [ht.consumes.2.1]; exact hin (k + 1)) (fun k hk => ?_) _
      rw [ht.oracle, List.getElem?_drop, Nat.add_comm] at hk
      obtain ⟨j, hj, hnothing⟩ := ho (k + 1) hk
      cases j with
      | zero => cases hb.symm.trans hnothing
      | succ j => exact ⟨j, by omega, by rw [ht.consumes.2.1]; exact hnothing⟩
    · have := hin 0
      rw [hend] at this
      cases this
    · exact ⟨_, readLineFrom_error hnever⟩

/-- Request `m` ends the line or fails, and every request before it is answered. -/
def StopsAt (s : State) (m : Nat) : Prop :=
  (∀ j < m, s.incoming j ≠ .nothing) ∧ ((s.incoming m).endsLine = true ∨ s.oracle[m]? = some true)

/-- A loop with fuel for such a request completes. -/
theorem readLineFrom_completes {m n : Nat} (h : StopsAt s m) (hmn : m < n) (buf : List Byte) (t : State) :
    readLineFrom n buf s ≠ .error .never t := by
  induction n generalizing s m buf with
  | zero => omega
  | succ n ih =>
    obtain ⟨hanswered, hstop⟩ := h
    obtain ⟨_, hfail⟩ | ⟨ho, ⟨b, u, hb, hbyte, hu⟩ | ⟨_, hend⟩ | ⟨hnothing, _⟩⟩ := inByte_cases s
    · rw [readLineFrom_error hfail]
      simp
    · cases hends : endsLine b with
      | true =>
        rw [readLineFrom_terminator hbyte hends]
        simp
      | false =>
        rw [readLineFrom_byte hbyte hends]
        cases m with
        | zero =>
          rw [hb, Incoming.endsLine, hends] at hstop
          exact absurd hstop (by simp [ho])
        | succ m =>
          refine ih (m := m) ⟨fun j hj => ?_, ?_⟩ (by omega) _
          · rw [hu.consumes.2.1]
            exact hanswered (j + 1) (by omega)
          · rw [hu.consumes.2.1, hu.oracle, List.getElem?_drop, Nat.add_comm 1]
            exact hstop
    · rw [readLineFrom_end hend]
      simp
    · cases m with
      | zero =>
        rw [hnothing] at hstop
        exact absurd hstop (by simp [ho, Incoming.endsLine])
      | succ m => exact absurd hnothing (hanswered 0 (by omega))

/-! ### ReadLine -/

/-- The bound on the calls of InByte in `readLine`. -/
def readFuel (s : State) : Nat := s.input.length + s.inputTail.block.length + s.oracle.length + 1

theorem readLine_eq (s : State) : readLine s = readLineFrom (readFuel s) [] s := rfl

theorem length_line_le (s : State) : s.line.length ≤ s.input.length + s.inputTail.block.length := by
  rw [← List.length_append]
  exact (List.takeWhile_prefix _).length_le

/-- Without failures ReadLine takes the line. -/
theorem readLine_of_lineEnds (h : s.lineEnds = true) (hs : s.noFailure) :
    ∃ t, readLine s = .ok s.line t ∧
      InputMoves s t (s.line.length + if s.terminated then 1 else 0) (s.line.length + 1) := by
  have ho : ∀ k, s.oracle[k]? ≠ some true := fun k hk => by cases hs true (List.mem_of_getElem? hk)
  obtain ⟨t, ht, hloop⟩ := readLineFrom_bytes (fun _ _ hk => incoming_of_line hk) (fun k _ => ho k) []
  have hfuel := length_line_le s
  have hread := hloop (readFuel s - s.line.length - 1 + 1)
  rw [show readFuel s - s.line.length - 1 + 1 + s.line.length = readFuel s by rw [readFuel]; omega,
    ← readLine_eq, List.nil_append] at hread
  have hnext : t.incoming 0 = s.incoming s.line.length := by rw [ht.consumes.2.1, Nat.zero_add]
  obtain ⟨ho0, _⟩ | ⟨_, ⟨b, u, hb, hbyte, hu⟩ | ⟨hend, hnone⟩ | ⟨hnothing, _⟩⟩ := inByte_cases t
  · rw [ht.oracle, List.getElem?_drop] at ho0
    exact absurd ho0 (ho _)
  · have hends := incoming_endsLine_of_lineEnds h
    rw [← hnext, hb] at hends
    rw [readLineFrom_terminator hbyte hends] at hread
    refine ⟨u, hread, ?_⟩
    obtain hterm | ⟨hterm, htail⟩ := lineEnds_cases h
    · rw [if_pos hterm]
      exact ht.trans hu
    · cases hb.symm.trans (hnext.trans (incoming_at_end hterm htail))
  · rw [readLineFrom_end hnone] at hread
    refine ⟨_, hread, ?_⟩
    obtain hterm | ⟨hterm, _⟩ := lineEnds_cases h
    · obtain ⟨b, hb, _⟩ := incoming_at_terminator hterm
      cases hend.symm.trans (hnext.trans hb)
    · rw [if_neg (by simp [hterm])]
      exact ht.trans (inputMoves_oracle t)
  · have hends := incoming_endsLine_of_lineEnds h
    rw [← hnext, hnothing] at hends
    cases hends

theorem readLine_of_lineNever (h : s.lineNever) : ∃ t, readLine s = .error .never t :=
  readLineFrom_never (incoming_of_not_lineEnds h.1) h.2 _ _

/-- Bytes that come one after the other make a list. -/
theorem exists_bytes {k : Nat} (h : ∀ j < k, ∃ b, s.incoming j = .byte b ∧ endsLine b = false) :
    ∃ l : List Byte, l.length = k ∧ ∀ j b, l[j]? = some b → s.incoming j = .byte b ∧ endsLine b = false := by
  induction k with
  | zero => exact ⟨[], rfl, fun j b hj => by simp at hj⟩
  | succ k ih =>
    obtain ⟨l, rfl, hl⟩ := ih fun j hj => h j (by omega)
    obtain ⟨c, hc⟩ := h l.length (by omega)
    refine ⟨l ++ [c], by simp, fun j b hj => ?_⟩
    rw [List.getElem?_append] at hj
    split at hj
    case isTrue => exact hl j b hj
    case isFalse hge =>
      have hlt : j - l.length < 1 := (List.getElem?_eq_some_iff.1 hj).1
      obtain rfl : j = l.length := by omega
      rw [Nat.sub_self] at hj
      cases hj
      exact hc

/-- The first failing InByte ends ReadLine, with the bytes before it consumed. -/
theorem readLine_of_failure {k : Nat} {rest : List Bool} (h : ∀ j < k, ∃ b, s.incoming j = .byte b ∧ endsLine b = false)
    (ho : s.oracle = List.replicate k false ++ true :: rest) :
    ∃ t, readLine s = .error (.fault (.ioError s.pc)) t ∧ Consumes s t k ∧ t.output = s.output := by
  obtain ⟨l, rfl, hl⟩ := exists_bytes h
  have hfail : s.oracle[l.length]? = some true := by simp [ho]
  obtain ⟨t, ht, hloop⟩ := readLineFrom_bytes hl
    (fun k hk => by simp [ho, List.getElem?_append_left, hk]) []
  have hread := hloop (readFuel s - l.length - 1 + 1)
  have hlen : s.oracle.length = l.length + (1 + rest.length) := by simp [ho]; omega
  rw [show readFuel s - l.length - 1 + 1 + l.length = readFuel s by rw [readFuel]; omega, ← readLine_eq] at hread
  have hfail' : t.oracle[0]? = some true := by rw [ht.oracle, List.getElem?_drop]; exact hfail
  obtain ⟨_, herr⟩ | ⟨hok, _⟩ := inByte_cases t
  · rw [readLineFrom_error herr, ht.pc] at hread
    exact ⟨_, hread, ht.consumes.trans (consumes_zero rfl rfl rfl), ht.output⟩
  · exact absurd hfail' hok

end

/-! ### The readers -/

/-- Both readers begin with ReadLine. -/
theorem exec_reader {i : Instr} (hi : i.readsInput = true) :
    ∃ rest : List Byte → Op Unit, ∀ s, exec i s = complete (do let line ← readLine; rest line) s := by
  cases i with
  | input | stinput => exact ⟨_, fun _ => rfl⟩
  | _ => cases hi

theorem exec_reader_of_never {i : Instr} {s t : State} (hi : i.readsInput = true) (h : readLine s = .error .never t) :
    exec i s = .fault .neverCompletes := by
  obtain ⟨rest, hexec⟩ := exec_reader hi
  exact (hexec s).trans (complete_never (Op.bind_error _ h))

theorem exec_reader_of_fault {i : Instr} {s t : State} {f : RunFault} (hi : i.readsInput = true)
    (h : readLine s = .error (.fault f) t) : exec i s = .next (takeFault f t) := by
  obtain ⟨rest, hexec⟩ := exec_reader hi
  exact (hexec s).trans (complete_fault (Op.bind_error _ h))

/-- Settles O28: the line, and the answer behind it, are where the stream has them, and the loop reads up to the first
terminator, end or failure. -/
theorem readLineTakesOneLine : Obligations.ReadLineTakesOneLine := by
  intro s
  refine ⟨fun hends => ⟨fun k b hk => ?_, ?_, fun hs => ?_⟩, fun hends k => ?_, fun hnever i hi => ?_,
    fun k rest hbytes ho => ?_⟩
  · obtain ⟨hin, hb⟩ := incoming_of_line hk
    exact ⟨hin, (endsLine_eq_false_iff b).1 hb⟩
  · exact (mem_lineEnds_iff _).2 (incoming_endsLine_of_lineEnds hends)
  · obtain ⟨t, hread, ht⟩ := readLine_of_lineEnds hends hs
    exact ⟨t, hread, ⟨ht.consumes, ht.output, ht.oracle⟩, ht.mem, ht.pc, ht.sp, ht.rs⟩
  · rw [mem_lineEnds_iff, incoming_of_not_lineEnds hends]
    simp
  · obtain ⟨t, ht⟩ := readLine_of_lineNever hnever
    exact exec_reader_of_never hi ht
  · obtain ⟨t, hread, hcons, hout⟩ := readLine_of_failure
      (fun j hj => (hbytes j hj).imp fun b hb => ⟨hb.1, (endsLine_eq_false_iff b).2 hb.2⟩) ho
    exact ⟨t, hread, hcons, hout, fun i hi => exec_reader_of_fault hi hread⟩

/-! ### Waiting for ever -/

/-- A line that does not wait for ever stops at a request the loop has fuel for. -/
theorem exists_stopsAt {s : State} (h : ¬ s.lineNever) : ∃ m < readFuel s, StopsAt s m := by
  cases hends : s.lineEnds with
  | true =>
    have hle := length_line_le s
    refine ⟨s.line.length, by rw [readFuel]; omega, fun j hj => ?_, .inl (incoming_endsLine_of_lineEnds hends)⟩
    rw [(incoming_of_line (List.getElem?_eq_getElem hj)).1]
    simp
  | false =>
    have hfail : ∃ k, s.oracle[k]? = some true ∧ ∀ j < k, s.incoming j ≠ .nothing := by
      by_contra hnone
      push Not at hnone
      exact h ⟨hends, hnone⟩
    obtain ⟨k, hk, hanswered⟩ := hfail
    have hlt := (List.getElem?_eq_some_iff.1 hk).1
    exact ⟨k, by rw [readFuel]; omega, hanswered, .inr hk⟩

/-- The result is not that of an operation that never completes. -/
def Completes {α : Type} (r : EStateM.Result Stop State α) : Prop := ∀ t, r ≠ .error .never t

theorem Completes.bind {α β : Type} {m : Op α} {f : α → Op β} {s : State} (hm : Completes (m s))
    (hf : ∀ a t, Completes (f a t)) : Completes ((m >>= f) s) := by
  intro u h
  obtain herr | ⟨a, t, _, herr⟩ := Op.bind_error_iff.1 h
  · exact hm u herr
  · exact hf a t u herr

theorem completes_pushWord (v : Word) (s : State) : Completes (pushWord v s) := by
  intro t h
  obtain ⟨-, hf, -⟩ | ⟨-, hf, -⟩ := pushWord_error_cases h <;> cases hf

theorem completes_advance (s : State) : Completes (advance s) := fun _ h => by cases h

theorem completes_pushWords (ws : List Word) (s : State) : Completes (pushWords ws s) := by
  induction ws generalizing s with
  | nil => exact fun _ h => by cases h
  | cons w ws ih => exact (completes_pushWord w s).bind fun _ t => ih t

/-- A reader completes if its line does: nothing behind ReadLine waits. -/
theorem exec_reader_completes {i : Instr} {s : State} (hi : i.readsInput = true) (h : ¬ s.lineNever) :
    exec i s ≠ .fault .neverCompletes := by
  obtain ⟨m, hm, hstops⟩ := exists_stopsAt h
  have hline : Completes (readLine s) := fun t => readLineFrom_completes hstops hm [] t
  have hcomplete {m : Op Unit} (hm : Completes (m s)) : complete m s ≠ .fault .neverCompletes := by
    obtain ⟨u, hu⟩ | ⟨⟨t, ht⟩, _⟩ := complete_next_or_never m s
    · rw [hu]
      simp
    · exact absurd ht (hm t)
  cases i with
  | input =>
    refine hcomplete (hline.bind fun line t => ?_)
    cases parseInput (trim line) with
    | none => exact fun _ h => by cases h
    | some v => exact (completes_pushWord v t).bind fun _ u => completes_advance u
  | stinput => exact hcomplete (hline.bind fun line t => (completes_pushWords _ t).bind fun _ u => completes_advance u)
  | _ => cases hi

/-- Settles O14: a step answers no next state only for a reader that never completes, and that is one whose line never
ends. -/
theorem everyRunningStepAnswersNext : Obligations.EveryRunningStepAnswersNext := by
  intro s hrs
  constructor
  case left =>
    intro hwait
    obtain ⟨i, hlo, hhi, hdec, hstep⟩ | ⟨f, hstep, _⟩ := step_running_cases hrs
    · obtain hnext | ⟨hi, hnever⟩ := exec_next_or_never i s
      · exact hstep ▸ hnext
      · by_cases hline : s.lineNever
        · exact absurd ⟨hlo, hhi, ⟨i, hdec, hi⟩, hline⟩ hwait
        · exact absurd hnever (exec_reader_completes hi hline)
    · exact ⟨_, hstep⟩
  case right =>
    rintro ⟨hlo, hhi, ⟨i, hdec, hi⟩, hline⟩
    obtain ⟨t, ht⟩ := readLine_of_lineNever hline
    exact (step_of_decode_ok hrs hlo hhi hdec).trans (exec_reader_of_never hi ht)

end Sys2Proof.Machine
end

section
/-! The statements about Input and Stinput (41_miscellaneous.md R98, R99): the words of a packed string, their place in
Memory, and the line that Stprint prints again. -/

namespace Sys2Proof.Machine

/-! ### Packed strings -/

/-- A chunk is the word of its bytes, byte 3 being the continuation flag (R99). -/
theorem chunkWord_eq (a b c : Byte) (p : Prop) [Decidable p] :
    chunkWord a b c (if p then 0 else Config.contFlag) = wordOfBytes a b c (if p then 0x00#8 else 0x01#8) := by
  rw [chunkWord, wordOfBytes]
  split <;> rfl

theorem length_padString (str : List Byte) : (padString str).length = 3 * ((str.length + 2) / 3) := by
  rw [padString, List.length_append, List.length_replicate, Config.chunk]
  omega

theorem length_packChunks {l : List Byte} {n : Nat} (h : l.length = 3 * n) : (packChunks l).length = n := by
  fun_induction packChunks l generalizing n with
  | case1 a b c rest ih =>
    simp only [List.length_cons] at h ⊢
    rw [ih (n := n - 1) (by omega)]
    omega
  | case2 l hl =>
    match l, h with
    | [], h => simp at h; simp [← h]
    | [_], h => simp at h; omega
    | [_, _], h => simp at h; omega
    | a :: b :: c :: rest, _ => exact absurd rfl (hl a b c rest)

/-- The number of words Stinput pushes for a string. -/
def stringChunks (str : List Byte) : Nat := if str = [] then 1 else (str.length + 2) / 3

theorem length_stringWords (str : List Byte) : (stringWords str).length = stringChunks str := by
  rw [stringWords, stringChunks]
  split
  · rfl
  · exact length_packChunks (length_padString str)

/-- Chunk `k` holds the bytes `3k` to `3k+2`, and the flag if it is not the last. -/
theorem byteOf_packChunks {l : List Byte} {n : Nat} (h : l.length = 3 * n) {k : Nat} {w : Word}
    (hw : (packChunks l)[k]? = some w) :
    (∀ j < 3, l[3 * k + j]? = some (byteOf w j)) ∧ byteOf w 3 = if k + 1 < n then 0x01#8 else 0x00#8 := by
  fun_induction packChunks l generalizing n k with
  | case1 a b c rest ih =>
    simp only [List.length_cons] at h
    cases k with
    | zero =>
      rw [List.getElem?_cons_zero, chunkWord_eq, Option.some.injEq] at hw
      subst hw
      refine ⟨fun j hj => ?_, ?_⟩
      · obtain rfl | rfl | rfl : j = 0 ∨ j = 1 ∨ j = 2 := by omega
        all_goals simp
      · rw [byteOf_wordOfBytes_3]
        cases rest with
        | nil =>
          simp only [List.length_nil] at h
          rw [if_pos rfl, if_neg (by omega)]
        | cons d rest =>
          simp only [List.length_cons] at h
          rw [if_neg (by simp), if_pos (by omega)]
    | succ k =>
      obtain ⟨hbytes, hflag⟩ := ih (n := n - 1) (by omega) hw
      refine ⟨fun j hj => ?_, ?_⟩
      · rw [show 3 * (k + 1) + j = 3 * k + j + 3 by omega]
        exact hbytes j hj
      · rw [hflag]
        congr 1
        exact propext (by omega)
  | case2 => simp at hw

/-! ### Pushing a string -/

theorem pushWords_append (xs ys : List Word) (s : State) :
    pushWords (xs ++ ys) s = (do pushWords xs; pushWords ys : Op Unit) s := by
  induction xs generalizing s with
  | nil => rfl
  | cons x xs ih =>
    rw [List.cons_append, pushWords, pushWords, Op.bind_assoc]
    exact Op.bind_congr rfl fun _ t _ => ih t

theorem pushWords_singleton (w : Word) (s : State) : pushWords [w] s = pushWord w s := by
  rw [pushWords, Op.bind_apply]
  cases pushWord w s <;> rfl

/-- The state after a list of words has been pushed, the last one first: it lies from the new top of the stack upward. -/
def State.pushedWords (s : State) (ws : List Word) : State :=
  (s.setSp (s.sp - ws.length)).setMem (s.mem.writeWords (s.sp - ws.length).toNat ws)

theorem pushWords_reverse {ws : List Word} {s : State} (hlo : (ws.length : Int) ≤ s.sp) (hhi : s.sp ≤ 1024) :
    pushWords ws.reverse s = .ok () (s.pushedWords ws) := by
  induction ws with
  | nil =>
    have hsame : s.pushedWords [] = s := by
      simp only [State.pushedWords, List.length_nil, Nat.cast_zero, Int.sub_zero]
      rfl
    rw [hsame]
    rfl
  | cons w ws ih =>
    simp only [List.length_cons] at hlo
    push_cast at hlo
    have hsp : (s.pushedWords ws).sp = s.sp - ws.length := rfl
    have hlast : (s.pushedWords ws).pushed w = s.pushedWords (w :: ws) := by
      have htop : s.sp - ws.length - 1 = s.sp - (w :: ws).length := by
        rw [List.length_cons]
        push_cast
        omega
      have hnext : (s.sp - ws.length).toNat = (s.sp - (w :: ws).length).toNat + 1 := by omega
      simp only [State.pushed, State.pushedWords, State.setMem_sp, State.setSp_sp, State.setMem_mem, htop,
        Memory.writeWords, ← hnext]
      rfl
    rw [List.reverse_cons, pushWords_append, Op.bind_ok _ (ih (by omega)), pushWords_singleton, ← hlast]
    exact pushWord_pushed (by simp only [State.hasRoom, hsp]; omega) w

/-- More words than the stack has room for overflow, with some words written. -/
theorem pushWords_overflow {ws : List Word} {s : State} (hlo : 0 ≤ s.sp) (hhi : s.sp ≤ 1024)
    (h : s.sp < (ws.length : Int)) :
    ∃ m p, pushWords ws s = .error (.fault (.stackOverflow s.pc)) ((s.setSp p).setMem m) := by
  induction ws generalizing s with
  | nil => simp at h; omega
  | cons w ws ih =>
    simp only [List.length_cons] at h
    push_cast at h
    by_cases hfull : s.sp ≤ 0
    · exact ⟨s.mem, s.sp, Op.bind_error _ (pushWord_overflow hfull w)⟩
    · obtain ⟨m, p, hrest⟩ := ih (s := s.pushed w) (by simp only [pushed_sp]; omega) (by simp only [pushed_sp]; omega)
        (by simp only [pushed_sp]; omega)
      exact ⟨m, p, (Op.bind_ok _ (pushWord_pushed ⟨by omega, hhi⟩ w)).trans hrest⟩

/-- With `sp = 1025` the first push already faults. -/
theorem pushWords_above {ws : List Word} (hne : ws ≠ []) {s : State} (hsp : s.sp = 1025) :
    pushWords ws s = .error (.fault (.memoryRange s.pc 1024)) (s.setSp 1024) := by
  cases ws with
  | nil => exact absurd rfl hne
  | cons w ws =>
    have habove := pushWord_above (s := s) (by omega) w
    rw [hsp] at habove
    exact Op.bind_error _ habove

/-! ### Input -/

/-- What ReadLine took off the stream has been taken in every state that differs in Memory, registers and run state
alone. -/
theorem InputMoves.takesLine {s t u : State}
    (h : InputMoves s t (s.line.length + if s.terminated then 1 else 0) (s.line.length + 1)) (hi : u.input = t.input)
    (hl : u.inputTail = t.inputTail) (hc : u.consumed = t.consumed) (hout : u.output = t.output)
    (ho : u.oracle = t.oracle) : TakesLine s u :=
  ⟨h.consumes.trans (consumes_zero hi hl hc), hout.trans h.output, ho.trans h.oracle⟩

section
variable {s t : State}

/-- Input behind ReadLine, for a line that is a number. -/
theorem exec_input_of_number {line : List Byte} {v : Word} (hread : readLine s = .ok line t)
    (hv : parseInput (trim line) = some v) : exec .input s = complete (fun _ => (do pushWord v; advance : Op Unit) t) s := by
  refine complete_congr ?_
  rw [Op.bind_ok _ hread]
  simp only [hv]

theorem exec_input_of_no_number {line : List Byte} (hread : readLine s = .ok line t)
    (hv : parseInput (trim line) = none) : exec .input s = .next (takeFault (.parseError t.pc) t) := by
  refine complete_fault ?_
  rw [Op.bind_ok _ hread]
  simp only [hv]
  exact raise_apply _ t

/-- Stinput behind ReadLine. -/
theorem exec_stinput {line : List Byte} (max : Nat) (hread : readLine s = .ok line t) :
    exec (.stinput max) s =
      complete (fun _ => (do pushWords (stringWords (lineString max line)).reverse; advance : Op Unit) t) s :=
  complete_congr (Op.bind_ok _ hread)

end

/-- Settles O34: ReadLine leaves `sp` and Memory to the push. -/
theorem inputPushesTheNumberOfTheLine : Obligations.InputPushesTheNumberOfTheLine := by
  intro s v hwf hroom hs hends hv
  obtain ⟨t, hread, ht⟩ := readLine_of_lineEnds hends hs
  have hroom' : t.hasRoom := by rwa [State.hasRoom, ht.sp]
  obtain ⟨hlo, hhi⟩ := hroom
  refine ⟨_, (exec_input_of_number hread hv).trans (complete_ok (Op.bind_ok _ (pushWord_pushed hroom' v))),
    ht.takesLine rfl rfl rfl rfl rfl, ?_, ?_, ?_, ht.rs⟩
  · refine storesWord_of_writeWord hwf (by omega) (by omega) ?_
    rw [← ht.mem, ← ht.sp]
    rfl
  · rw [← ht.sp]
    rfl
  · rw [← ht.pc]
    rfl

/-- Settles O35: the fault is that of the parser or of a push, and both come behind ReadLine. -/
theorem lineReadersFaultAfterTakingTheLine : Obligations.LineReadersFaultAfterTakingTheLine := by
  intro s hs hends
  obtain ⟨t, hread, ht⟩ := readLine_of_lineEnds hends hs
  refine ⟨fun hv => ?parse, fun v hv hsp => ?full, ?chunks⟩
  case parse =>
    exact ⟨_, exec_input_of_no_number hread hv, by rw [takeFault_rs, ht.pc], ht.takesLine rfl rfl rfl rfl rfl⟩
  case full =>
    have hover := pushWord_overflow (s := t) (by rwa [ht.sp]) v
    exact ⟨_, (exec_input_of_number hread hv).trans (complete_fault (Op.bind_error _ hover)),
      by rw [takeFault_rs, ht.pc], ht.takesLine rfl rfl rfl rfl rfl, sameMemory_of_mem_eq ht.mem⟩
  case chunks =>
    rintro max str rfl hlo hhi hlt
    obtain ⟨m, p, hover⟩ := pushWords_overflow (ws := (stringWords (lineString max s.line)).reverse) (s := t)
      (by rwa [ht.sp]) (by rwa [ht.sp]) (by rwa [ht.sp, List.length_reverse, length_stringWords])
    exact ⟨_, (exec_stinput max hread).trans (complete_fault (Op.bind_error _ hover)), by rw [takeFault_rs, ht.pc],
      ht.takesLine rfl rfl rfl rfl rfl⟩

theorem stringWords_ne_nil (str : List Byte) : stringWords str ≠ [] := by
  intro h
  have hlen := length_stringWords str
  rw [h, stringChunks] at hlen
  split at hlen
  · cases hlen
  · have := List.length_pos_iff.2 ‹str ≠ []›
    simp at hlen
    omega

/-- Settles O42: the first push of each instruction finds `sp = 1025`. -/
theorem pushesAboveTheEmptyStackFault : Obligations.PushesAboveTheEmptyStackFault := by
  intro s hsp
  have habove (t : State) (ht : t.sp = 1025) (v : Word) :
      pushWord v t = .error (.fault (.memoryRange t.pc 1024)) (t.setSp 1024) :=
    (pushWords_singleton v t).symm.trans (pushWords_above (by simp) ht)
  refine ⟨fun imm => ?_, fun off => ?_, fun hs hends => ?_⟩
  · exact faultsWith_of_error rfl (Op.bind_error _ (habove s hsp _)) (sameChannels_refl s)
  · exact faultsWith_of_error rfl (Op.bind_error _ (habove s hsp _)) (sameChannels_refl s)
  · obtain ⟨t, hread, ht⟩ := readLine_of_lineEnds hends hs
    have htsp : t.sp = 1025 := ht.sp.trans hsp
    refine ⟨fun v hv => ?_, fun max => ?_⟩
    · exact ⟨_, (exec_input_of_number hread hv).trans (complete_fault (Op.bind_error _ (habove t htsp v))),
        by rw [takeFault_rs, ht.pc], ht.takesLine rfl rfl rfl rfl rfl⟩
    · have hpush := pushWords_above (ws := (stringWords (lineString max s.line)).reverse)
        (by simpa using stringWords_ne_nil _) htsp
      exact ⟨_, (exec_stinput max hread).trans (complete_fault (Op.bind_error _ hpush)), by rw [takeFault_rs, ht.pc],
        ht.takesLine rfl rfl rfl rfl rfl⟩

/-! ### Stinput -/

theorem byteOf_readWord (m : Memory) (i : Nat) {j : Nat} (hj : j < 4) : byteOf (m.readWord i) j = m.readByte (4 * i + j) := by
  rw [Memory.readWord]
  obtain rfl | rfl | rfl | rfl : j = 0 ∨ j = 1 ∨ j = 2 ∨ j = 3 := by omega
  all_goals simp

/-- Stinput with room: the words of the string lie from the new top of the stack upward, and nothing else changes but the
registers and the stream. -/
theorem exec_stinput_of_room {max : Nat} {s : State} (hs : s.noFailure) (hends : s.lineEnds = true)
    (hlo : ((stringWords (lineString max s.line)).length : Int) ≤ s.sp) (hhi : s.sp ≤ 1024) :
    ∃ t, exec (.stinput max) s = .next t ∧ TakesLine s t ∧
      t.sp = s.sp - (stringWords (lineString max s.line)).length ∧ t.pc = s.pc + 1 ∧ t.rs = s.rs ∧
      t.mem = s.mem.writeWords t.sp.toNat (stringWords (lineString max s.line)) := by
  obtain ⟨t, hread, ht⟩ := readLine_of_lineEnds hends hs
  have hpush := pushWords_reverse (ws := stringWords (lineString max s.line)) (s := t) (by rwa [ht.sp]) (by rwa [ht.sp])
  refine ⟨_, (exec_stinput max hread).trans (complete_ok (Op.bind_ok _ hpush)), ht.takesLine rfl rfl rfl rfl rfl,
    ?_, ?_, ht.rs, ?_⟩
  · rw [← ht.sp]
    rfl
  · rw [← ht.pc]
    rfl
  · rw [← ht.mem]
    rfl

/-- Settles O36: word `k` of the string lies at `sp' + k`, and its bytes are those of the padded string. -/
theorem stinputPacksTheLine : Obligations.StinputPacksTheLine := by
  rintro max s str n rfl hn hwf hs hends hlo hhi
  have hlen : (stringWords (lineString max s.line)).length = n := (length_stringWords _).trans hn.symm
  obtain ⟨t, hexec, htakes, hsp, hpc, hrs, hmem⟩ := exec_stinput_of_room (max := max) hs hends (by rwa [hlen]) hhi
  rw [hlen] at hsp
  have hword {k : Nat} (hk : k < n) :
      (stringWords (lineString max s.line))[k]? = some (t.mem.readWord (t.sp.toNat + k)) := by
    rw [hmem, Memory.readWord_writeWords_same hwf _ (by omega) (by omega)]
    exact List.getElem?_eq_getElem (by omega)
  refine ⟨t, hexec, htakes, hsp, hpc, hrs, fun hnil => ?empty, fun hne k hk => ?chunk, fun a ha => ?frame⟩
  case empty =>
    have hzero := hword (k := 0) (by rw [hn, if_pos hnil]; decide)
    rw [stringWords, if_pos hnil] at hzero
    exact (Option.some.inj hzero).symm
  case chunk =>
    have hchunk := hword hk
    rw [stringWords, if_neg hne] at hchunk
    rw [if_neg hne] at hn
    obtain ⟨hbytes, hflag⟩ := byteOf_packChunks (n := n) (by rw [length_padString, hn]) hchunk
    refine ⟨fun j hj => ?_, ?_⟩
    · rw [hbytes j hj, byteOf_readWord _ _ (by omega)]
    · rw [← hflag, byteOf_readWord _ _ (by decide)]
  case frame =>
    rw [hmem]
    exact Memory.readByte_writeWords_other s.mem _ (by omega)

/-! ### Printing the string again -/

theorem ne_zero_of_mem_lineString {max : Nat} {s : State} {b : Byte} (h : b ∈ lineString max s.line) : b ≠ 0x00#8 := by
  have hline : b ∈ s.line := by
    have htrim := List.mem_of_mem_take h
    rw [trim, List.mem_reverse] at htrim
    have hrev := (List.dropWhile_sublist _).subset htrim
    rw [List.mem_reverse] at hrev
    exact (List.dropWhile_sublist _).subset hrev
  obtain ⟨k, hk⟩ := List.mem_iff_getElem?.1 hline
  obtain ⟨-, hends⟩ := incoming_of_line hk
  exact ((endsLine_eq_false_iff b).1 hends).2

theorem getLsbD_wordOfBytes (a b c d : Byte) : (wordOfBytes a b c d).getLsbD 24 = decide (d.toNat % 2 = 1) := by
  have ha := a.isLt
  have hb := b.isLt
  have hc := c.isLt
  rw [← continues_eq_getLsbD, continues, wordOfBytes_toNat, Config.contFlag]
  congr 1
  exact propext (by omega)

theorem printedBytes_wordOfBytes (a b c d : Byte) :
    printedBytes (wordOfBytes a b c d) = [a, b, c].filter (fun b => decide (b ≠ 0x01#8)) := by
  have hbytes : (List.range Config.chunk).map (byteOf (wordOfBytes a b c d)) = [a, b, c] := by
    simp [Config.chunk, List.range_succ]
  rw [printedBytes, hbytes]
  rfl

/-- One word of a packed string that is not zero. -/
theorem packedText_wordOfBytes {a : Byte} (ha : a ≠ 0x00#8) (b c d : Byte) (ws : List Word) :
    packedText (wordOfBytes a b c d :: ws) =
      [a, b, c].filter (fun b => decide (b ≠ 0x01#8)) ++ if d.toNat % 2 = 1 then packedText ws else [] := by
  have hne : wordOfBytes a b c d ≠ 0#32 := by
    intro hzero
    have : byteOf (wordOfBytes a b c d) 0 = byteOf 0#32 0 := congrArg (fun w => byteOf w 0) hzero
    rw [byteOf_wordOfBytes_0] at this
    exact ha this
  rw [packedText, if_neg hne, ← printedBytes_eq, printedBytes_wordOfBytes, getLsbD_wordOfBytes]
  simp only [decide_eq_true_iff]

/-- The chunks of a string without a zero byte print the string, less its sentinels, whatever lies behind them. -/
theorem packedText_packChunks {l : List Byte} {n : Nat} (hlen : l.length = 3 * (n + 1)) (hl : ∀ b ∈ l, b ≠ 0x00#8)
    (ws : List Word) : packedText (packChunks l ++ ws) = l.filter (fun b => decide (b ≠ 0x01#8)) := by
  fun_induction packChunks l generalizing n with
  | case1 a b c rest ih =>
    rw [List.cons_append, chunkWord_eq, packedText_wordOfBytes (hl a (by simp))]
    cases rest with
    | nil => simp
    | cons d rest =>
      simp only [List.length_cons] at hlen
      rw [if_neg (List.cons_ne_nil d rest), if_pos (by decide), ih (n := n - 1) (by simp only [List.length_cons]; omega)
        fun b hb => hl b (by simp [hb])]
      exact (List.filter_append [a, b, c] (d :: rest)).symm
  | case2 l hl' =>
    match l, hlen with
    | [], h => simp at h
    | [_], h => simp at h; omega
    | [_, _], h => simp at h; omega
    | a :: b :: c :: rest, _ => exact absurd rfl (hl' a b c rest)

theorem packedText_stringWords {str : List Byte} (h : ∀ b ∈ str, b ≠ 0x00#8) (ws : List Word) :
    packedText (stringWords str ++ ws) = str.filter (fun b => decide (b ≠ 0x01#8)) := by
  rw [stringWords]
  split
  case isTrue hnil =>
    subst hnil
    rfl
  case isFalse hne =>
    have hpos := List.length_pos_iff.2 hne
    rw [packedText_packChunks (n := (str.length + 2) / 3 - 1) (by rw [length_padString]; omega), padString,
      List.filter_append, List.filter_replicate_of_neg (by simp), List.append_nil]
    intro b hb
    rw [padString, List.mem_append] at hb
    obtain hb | hb := hb
    · exact h b hb
    · rw [List.eq_of_mem_replicate hb]
      decide

/-- Words loaded from index `i` upward are read from there upward. -/
theorem wordsUp_writeWords {s : State} {m : Memory} {i : Int} {ws : List Word} (hwf : m.wf = true) (hlo : 0 ≤ i)
    (hhi : i + ws.length ≤ 1024) (hs : s.mem = m.writeWords i.toNat ws) (n : Nat) :
    s.wordsUp i (ws.length + n) = ws ++ s.wordsUp (i + ws.length) n := by
  rw [wordsUp_eq_map, wordsUp_eq_map, List.range_add, List.map_append, List.map_map]
  refine congrArg₂ List.append (List.ext_getElem (by simp) fun k hk hk' => ?_) (List.map_congr_left fun k _ => ?_)
  · rw [List.getElem_map, List.getElem_range, State.word, hs, show (i + (k : Int)).toNat = i.toNat + k by omega]
    exact Memory.readWord_writeWords_same hwf ws (by omega) hk'
  · simp only [Function.comp_apply]
    congr 1
    push_cast
    omega

/-- Settles O37: from the new top of the stack Stprint reads the words Stinput pushed, and they print the line. -/
theorem stinputThenStprintPrintsTheLine : Obligations.StinputThenStprintPrintsTheLine := by
  rintro max s str rfl hwf hs hends hlo hhi
  have hlen := length_stringWords (lineString max s.line)
  rw [stringChunks] at hlen
  rw [← hlen] at hlo
  obtain ⟨t, hexec, ⟨-, hout, horacle⟩, hsp, -, hrs, hmem⟩ := exec_stinput_of_room hs hends hlo hhi
  have ht : t.noFailure := fun b hb => hs b (List.mem_of_mem_drop (horacle ▸ hb))
  have hwords := wordsUp_writeWords (s := t) (i := t.sp) hwf (by omega) (by omega) hmem (1024 - s.sp).toNat
  have htext : packedText (t.wordsUp t.sp (1024 - t.sp).toNat) =
      (lineString max s.line).filter (fun b => decide (b ≠ 0x01#8)) := by
    rw [show (1024 - t.sp).toNat = (stringWords (lineString max s.line)).length + (1024 - s.sp).toNat by omega, hwords]
    exact packedText_stringWords (fun b hb => ne_zero_of_mem_lineString hb) _
  refine ⟨t, _, hexec, stprintEmitsThePackedString 0 t t.sp _ (by simp) htext.symm (by omega) ht, ?_, rfl, hrs⟩
  rw [← hout]

end Sys2Proof.Machine
end
